-- ==== Sys2Proof/Word.lean ====
section
/-! DEFINITION. The sizes and widths of 00_scope.md R9 and R10 that the types of MSFV carry, and its bit
vectors (R11: bit 0 is the least significant bit). Config.lean holds the other parameters of R9. -/

namespace Sys2Proof

/-- NSLOTS (R9, R10): the twelve segments of a revolution. -/
abbrev Config.nslots : Nat := 12

/-- MASK_W (R9, R10): the bits of the presence mask. -/
abbrev Config.maskW : Nat := 12

/-- INDEX_W (R9; decision D16). -/
abbrev Config.indexW : Nat := 4

/-- The seconds half of TIME_W (R9; decision D16). -/
abbrev Config.secW : Nat := 32

/-- The nanoseconds half of TIME_W (R9; decision D16). -/
abbrev Config.nsecW : Nat := 32

/-- TIME_W, seconds and nanoseconds as one value (R9; decision D16, R78). -/
abbrev Config.timeW : Nat := 64

/-- COUNTER_W (R9; decision D16). -/
abbrev Config.counterW : Nat := 64

/-- The bytes of a point scalar (R10: 4-byte scalars). -/
abbrev Config.scalarSize : Nat := 4

/-- SCALAR_W (R9; decision D23): the bits of a point scalar. -/
abbrev Config.scalarW : Nat := 32

/-- The width of the sensor-local timestamp (R9, R10: 64-bit local timestamp). -/
abbrev Config.localTimestampW : Nat := 64

/-- The bytes of the sensor-local timestamp. -/
abbrev Config.localTimestampSize : Nat := 8

/-- One byte of a datagram, of the working buffer or of a frame (R11, R44). -/
abbrev Byte := BitVec 8

/-- A 32-bit unsigned value: length field, CRC, probe answer (R12, R75, R77, R140). -/
abbrev Word := BitVec 32

/-- A point scalar or an inertial scalar, an opaque pattern (R25, R26). -/
abbrev Scalar := BitVec Config.scalarW

/-- A time (sec in bits 63:32, nsec in bits 31:0; R20, R78). -/
abbrev Time := BitVec Config.timeW

end Sys2Proof
end

