-- ==== Sys2Proof/Syntax.lean ====
section
/-! DEFINITION. The operands and the operations of MSFV: Segments (10_state.md R24 to R26), straps (R40),
input events (30_encoding.md R70) and the twelve rows of spec/opcode_table.json. -/

namespace Sys2Proof

/-- The sequencing state MODE (10_state.md R30). -/
inductive Mode where
  /-- no message in progress -/
  | idle
  /-- encoding B only: a message head is in the working buffer -/
  | accum
  /-- a fatal ingestion fault was raised; sticky -/
  | faulted
  deriving DecidableEq, Repr

/-- The wire encoding selected by the ENC strap (10_state.md R40): 0 is A, 1 is B. -/
inductive Enc where
  /-- self-declaring -/
  | a
  /-- probed -/
  | b
  deriving DecidableEq, Repr

/-- The LAYOUT strap as sampled (10_state.md R40, 44_frame_release.md R172): the 5 × 2 × 2 layouts. -/
structure Layout where
  level : Fin 5
  ts    : Bool
  refl  : Bool
  deriving DecidableEq, Repr

/-- The configuration CFG (10_state.md R20, R40). MAX_DEPTH has no width here: R40 makes its width an
implementation parameter of at least 2 bits, and an unbounded number is a DESIGN CHOICE (log entry 16). -/
structure Straps where
  enc      : Enc
  maxDepth : Nat
  layout   : Layout
  deriving DecidableEq, Repr

/-- The strap inputs as the host drives them at an RST (45_control.md R185); `none` is an undriven strap
(10_state.md R40: only MAX_DEPTH has a default). R70 gives the MAX_DEPTH operand no width and R40 calls its
width an implementation parameter of at least 2 bits; the model takes any natural number, which holds the
values of every width (DESIGN CHOICE, log entry 16). -/
structure StrapInputs where
  enc      : Option (BitVec 1)
  maxDepth : Option Nat
  level    : Option (BitVec 3)
  ts       : Option (BitVec 1)
  refl     : Option (BitVec 1)
  deriving DecidableEq, Repr

/-- A Point (10_state.md R26): eleven 32-bit patterns and the 64-bit sensor-local timestamp `lts`. -/
structure Point where
  x            : Scalar
  y            : Scalar
  z            : Scalar
  intensity    : Scalar
  range        : Scalar
  azimuth      : Scalar
  elevation    : Scalar
  layer        : Scalar
  echo         : Scalar
  index        : Scalar
  reflectivity : Scalar
  lts          : BitVec Config.localTimestampW
  deriving DecidableEq, Repr

/-- The inertial sample (10_state.md R25): `valid = false` is an absent sample. -/
structure Imu where
  valid  : Bool
  angvel : Vector Scalar 3
  accel  : Vector Scalar 3
  quat   : Vector Scalar 4
  deriving DecidableEq, Repr

/-- A Segment (10_state.md R24): point groups are lists of scanlines, scanlines lists of Points. -/
structure Segment where
  index   : BitVec Config.indexW
  tSec    : BitVec Config.secW
  tNsec   : BitVec Config.nsecW
  counter : BitVec Config.counterW
  groups  : List (List (List Point))
  imu     : Imu
  deriving DecidableEq, Repr

/-- The Segment whose every field is zero or empty: what the `seg` side-band field carries when it is
all zeros. -/
def Segment.zero : Segment where
  index := 0
  tSec := 0
  tNsec := 0
  counter := 0
  groups := []
  imu := { valid := false, angvel := Vector.replicate 3 0, accel := Vector.replicate 3 0, quat := Vector.replicate 4 0 }

/-- The strap inputs of an event word of zeros: ENC and LAYOUT driven low, MAX_DEPTH undriven
(DESIGN CHOICE, log entry 10). -/
def StrapInputs.zero : StrapInputs where
  enc := some 0
  maxDepth := none
  level := some 0
  ts := some 0
  refl := some 0

/-- One input transaction as it stands on the ports (30_encoding.md R70): the 4-bit event code and every
side-band field. Only the fields of the code's own format mean anything. -/
structure Event where
  ev   : BitVec 4
  cfg  : StrapInputs
  len  : BitVec 16
  data : List Byte
  t    : Time
  seg  : Segment
  deriving DecidableEq, Repr

/-- The transaction with code `ev` and every side-band field zero. -/
def Event.ofCode (ev : BitVec 4) : Event where
  ev := ev
  cfg := StrapInputs.zero
  len := 0
  data := []
  t := 0
  seg := Segment.zero

/-- The operations of MSFV, one constructor per row of spec/opcode_table.json (30_encoding.md R79). -/
inductive Instr where
  /-- RST: sample the straps and reset (45_control.md R185) -/
  | rst (cfg : StrapInputs)
  /-- RXD.Z: the zero-length datagram (40_demux.md R100) -/
  | rxdZ (t : Time)
  /-- RXD.HA: message head, self-declaring encoding (40_demux.md R103) -/
  | rxdHA (data : List Byte) (t : Time)
  /-- RXD.HB: message head, probed encoding (40_demux.md R104) -/
  | rxdHB (data : List Byte) (t : Time)
  /-- RXD.CH: continuation chunk (40_demux.md R111) -/
  | rxdCH (data : List Byte) (t : Time)
  /-- ATO: accumulation timeout (40_demux.md R115) -/
  | ato
  /-- SEGP: segment push (43_assembler.md R150) -/
  | segp (seg : Segment)
  /-- CRCV: internal, the CRC compare (41_crc.md R133) -/
  | crcv (region : List Byte) (crcWire : Word)
  /-- IMUF: internal, inertial forward (43_assembler.md R151) -/
  | imuf (seg : Segment)
  /-- FREL: internal, frame release (44_frame_release.md R165) -/
  | frel
  /-- MSG.A: a wire message of encoding A, received whole (30_encoding.md R73, R75): the length field
  `plen`, the bytes `body` from offset 8 on (payload and trailing CRC), the receive time -/
  | msgA (plen : Word) (body : List Byte) (t : Time)
  /-- MSG.B: a datagram of encoding B that begins with the marker (30_encoding.md R73, R76): the bytes
  `rest` from offset 4 on, the receive time -/
  | msgB (rest : List Byte) (t : Time)
  deriving DecidableEq, Repr

end Sys2Proof
end

