-- ==== Sys2Proof/Config.lean ====
section
/-! DEFINITION. The implementation parameters of 00_scope.md R9 (the widths and counts that types carry
stand in Word.lean) and the numbers of R10, the two decoder oracles of
42_decoder_contract.md R140 and the free value of WB_TIME. The oracles and the free value are opaque:
nothing can be proved about their values, so a statement that mentions them holds for every decoder. -/

namespace Sys2Proof

/-- MARKER_SIZE (R9). -/
def Config.markerSize : Nat := 4

/-- MARKER, offset 0 first (R9, R73; the spec's decision D1). -/
def Config.marker : List Byte := [0x02, 0x02, 0x02, 0x02]

/-- MIN_EXTRA (R9): a head is longer than MARKER_SIZE + MIN_EXTRA. -/
def Config.minExtra : Nat := 8

/-- LEN_OFFSET (R9; decision D2). -/
def Config.lenOffset : Nat := 4

/-- LEN_SIZE (R9). -/
def Config.lenSize : Nat := 4

/-- CRC_SIZE (R9). -/
def Config.crcSize : Nat := 4

/-- CAP, 1 MiB = 2^20 bytes (R9). -/
def Config.cap : Nat := 1048576

/-- MAX_DGRAM (R9; decision D11). -/
def Config.maxDgram : Nat := 65535

/-- WB_CAP = CAP + MAX_DGRAM = 1,114,111 bytes (R9, R112). -/
def Config.wbCap : Nat := Config.cap + Config.maxDgram

/-- CRC_POLY (R9; decision D4). -/
def Config.crcPoly : Word := 0x04C11DB7

/-- The bit reversal of CRC_POLY that the reflected loop of 41_crc.md R131 uses. -/
def Config.crcPolyReflected : Word := 0xEDB88320

/-- CRC_INIT (R9; decision D4). -/
def Config.crcInit : Word := 0xFFFFFFFF

/-- CRC_XOROUT (R9; decision D4). -/
def Config.crcXorOut : Word := 0xFFFFFFFF

/-- MAX_DEPTH when the host leaves it undriven (R9, 10_state.md R40). -/
def Config.defaultDepth : Nat := 3

/-- The end-to-end example of R10: Points of each of its twelve Segments. -/
def Config.examplePointsPerSegment : Nat := 900

/-- The end-to-end example of R10: Points of its one frame. -/
def Config.examplePoints : Nat := 10800

/-- The end-to-end example of R10: the stride of its layout, LEVEL 1. -/
def Config.exampleStride : Nat := 16

/-- The probe's answer (42_decoder_contract.md R140): a payload length, or the bytes required in total. -/
inductive ProbeAnswer where
  | ok (n : Word)
  | need (r : Word)
  deriving DecidableEq, Repr, Inhabited

/-- The answer of `decode` (42_decoder_contract.md R140). -/
inductive DecodeAnswer where
  | fail
  | seg (s : Segment)
  deriving DecidableEq, Repr, Inhabited

/-- The Segment Decoder: two pure functions, parameters of the step relation and never state (R8, R140). -/
structure Oracles where
  probe  : List Byte → ProbeAnswer
  decode : List Byte → Time → DecodeAnswer

/-- The attached decoder's `probe`: unconstrained (R140, U11; log entry 11). -/
opaque Config.probe : List Byte → ProbeAnswer

/-- The attached decoder's `decode`: unconstrained (R140, U11; log entry 11). -/
opaque Config.decodeSegment : List Byte → Time → DecodeAnswer

/-- The decoder attached to the block. 70_reset_and_hazards.md R222 binds the two oracles for the encoding before
RST and does not say whether a later RST may come with another pair: that one pair serves both encodings and
every RST of a run is a DESIGN CHOICE (log entry 17). -/
def Config.oracles : Oracles where
  probe := Config.probe
  decode := Config.decodeSegment

/-- The contents of WB_TIME after the n-th RST: unspecified (10_state.md R48, U15), a free value
(log entry 4). -/
opaque Config.unspecifiedTime : Nat → Time

end Sys2Proof
end

