-- ==== Sys2Proof/WellFormed.lean ====
section
/-! DEFINITION. Which operands an operation can carry: the widths and ranges of 30_encoding.md R70 to R76
and the reserved values of R82. -/

namespace Sys2Proof

/-- A datagram of 1 to MAX_DGRAM bytes (30_encoding.md R70, 20_memory.md R54). -/
def datagramOk (data : List Byte) : Bool :=
  1 ≤ data.length && data.length ≤ Config.maxDgram

/-- A datagram that is long enough to be a message head (40_demux.md R101: "exceeds marker-size + 8"). -/
def headLengthOk (n : Nat) : Bool :=
  Config.markerSize + Config.minExtra < n && n ≤ Config.maxDgram

/-- A legal configuration (10_state.md R40): ENC and LAYOUT driven, LEVEL 0..4, MAX_DEPTH at least 1 or
undriven. -/
def StrapInputs.legal (c : StrapInputs) : Bool :=
  c.enc.isSome && c.ts.isSome && c.refl.isSome
    && (match c.level with | some l => l.toNat < 5 | none => false)
    && (match c.maxDepth with | some d => 1 ≤ d | none => true)

/-- The operands of an operation are ones the spec gives it. Every 4-bit Segment index is an operand
(12..15 raise BAD_INDEX, R82). CRCV's region is read from WB in front of its trailing CRC (R133); IMUF
is invoked on a valid sample (R151); a message body is what follows the fixed fields of its head (R73). -/
def Instr.wellFormed : Instr → Bool
  | .rst cfg => cfg.legal
  | .rxdZ _ => true
  | .rxdHA data _ => datagramOk data
  | .rxdHB data _ => datagramOk data
  | .rxdCH data _ => datagramOk data
  | .ato => true
  | .segp _ => true
  | .crcv region _ => region.length + Config.crcSize ≤ Config.wbCap
  | .imuf seg => seg.imu.valid
  | .frel => true
  | .msgA _ body _ => headLengthOk (Config.markerSize + Config.lenSize + body.length)
  | .msgB rest _ => headLengthOk (Config.markerSize + rest.length)

end Sys2Proof
end

