-- ==== Sys2Proof/Decode.lean ====
section
/-! DEFINITION. The two decoders of 30_encoding.md (events at the ports, wire messages inside a datagram),
the byte-order helpers they use, and the encoder. -/

namespace Sys2Proof

/-- The unsigned value of a byte sequence, the byte at the lowest offset least significant
(00_scope.md R12, 20_memory.md R51). -/
def leValue : List Byte → Nat
  | [] => 0
  | b :: bs => b.toNat + 256 * leValue bs

/-- `le32` of a 4-byte sequence (00_scope.md R12). -/
def le32 (b : List Byte) : Word := BitVec.ofNat 32 (leValue b)

/-- The `n` little-endian bytes of a value (44_frame_release.md R173). -/
def leBytes (n : Nat) (v : Nat) : List Byte :=
  match n with
  | 0 => []
  | k + 1 => BitVec.ofNat 8 v :: leBytes k (v / 256)

/-- A 32-bit pattern as four bytes, least significant first (R173). -/
def le32Bytes (v : Word) : List Byte := leBytes 4 v.toNat

/-- A 64-bit pattern as eight bytes, least significant first (R173). -/
def le64Bytes (v : BitVec 64) : List Byte := leBytes 8 v.toNat

/-- Why a transaction or a datagram decodes to no operation. -/
inductive DecodeError where
  /-- an event code other than 0x1, 0x8, 0x9, 0xC (30_encoding.md R81) -/
  | reservedEventCode (ev : BitVec 4)
  /-- an RXD whose `data` is not `len` bytes long: no RXD by the format of R70 -/
  | lengthMismatch
  /-- a datagram shorter than the marker or not beginning with it (R80) -/
  | badResync
  /-- a datagram with the marker and no more than MARKER_SIZE + 8 bytes (R80) -/
  | undersizedHead
  deriving DecidableEq, Repr

/-- What a decoder answers. -/
inductive Decoded where
  | instr (i : Instr)
  | rejected (e : DecodeError)
  deriving DecidableEq, Repr

/-- Which operation an RXD with `len >= 1` is (30_encoding.md R79, R84): a chunk in ACCUM, else a head of
the configured encoding. In FAULTED the operation is ignored whichever it is (60_exceptions.md R201), and the
head form is a DESIGN CHOICE (log entry 18). -/
def selectRxd (mode : Mode) (enc : Enc) (data : List Byte) (t : Time) : Instr :=
  match mode, enc with
  | .accum, _ => .rxdCH data t
  | _, .a => .rxdHA data t
  | _, .b => .rxdHB data t

/-- The operation a transaction selects (30_encoding.md R70, R79, R81). R79 selects RXD.Z and SEGP in IDLE and
ACCUM; in FAULTED, where every event but RST is ignored, their transactions are read as they are there (DESIGN
CHOICE, log entry 18). -/
def decodeEvent (mode : Mode) (enc : Enc) (e : Event) : Decoded :=
  if e.ev = 0x1 then .instr (.rst e.cfg)
  else if e.ev = 0x8 then
    if e.data.length ≠ e.len.toNat then .rejected .lengthMismatch
    else if e.len = 0 then .instr (.rxdZ e.t)
    else .instr (selectRxd mode enc e.data e.t)
  else if e.ev = 0x9 then .instr .ato
  else if e.ev = 0xC then .instr (.segp e.seg)
  else .rejected (.reservedEventCode e.ev)

/-- The message head a datagram is under the configured encoding (30_encoding.md R73, R74; the order of
the tests is that of 40_demux.md R101). -/
def decodeMessage (enc : Enc) (data : List Byte) (t : Time) : Decoded :=
  if data.length < Config.markerSize ∨ data.take Config.markerSize ≠ Config.marker then .rejected .badResync
  else if data.length ≤ Config.markerSize + Config.minExtra then .rejected .undersizedHead
  else
    match enc with
    | .a => .instr (.msgA (le32 ((data.drop Config.lenOffset).take Config.lenSize))
              (data.drop (Config.markerSize + Config.lenSize)) t)
    | .b => .instr (.msgB (data.drop Config.markerSize) t)

/-- The bytes of a message of encoding A: marker, length field, payload and CRC (20_memory.md R56). -/
def messageABytes (plen : Word) (body : List Byte) : List Byte :=
  Config.marker ++ le32Bytes plen ++ body

/-- The bytes of a datagram of encoding B: marker and opaque rest (20_memory.md R56). -/
def messageBBytes (rest : List Byte) : List Byte := Config.marker ++ rest

/-- The transaction that carries a datagram (R70, EV_RXD). -/
def rxdEvent (data : List Byte) (t : Time) : Event :=
  { Event.ofCode 0x8 with len := BitVec.ofNat 16 data.length, data := data, t := t }

/-- The words of an operation: a transaction at the ports, or the bytes of a datagram. -/
inductive Words where
  | event (e : Event)
  | datagram (bytes : List Byte)
  deriving DecidableEq, Repr

/-- The encoder, from the tables of 30_encoding.md R70 and R73. The internal operations have no encoding
(R79). The receive time of a message is not among its bytes: it is the `t` field of the RXD that carries
them. -/
def encode : Instr → Option Words
  | .rst cfg => some (.event { Event.ofCode 0x1 with cfg := cfg })
  | .rxdZ t => some (.event (rxdEvent [] t))
  | .rxdHA data t => some (.event (rxdEvent data t))
  | .rxdHB data t => some (.event (rxdEvent data t))
  | .rxdCH data t => some (.event (rxdEvent data t))
  | .ato => some (.event (Event.ofCode 0x9))
  | .segp seg => some (.event { Event.ofCode 0xC with seg := seg })
  | .crcv _ _ => none
  | .imuf _ => none
  | .frel => none
  | .msgA plen body _ => some (.datagram (messageABytes plen body))
  | .msgB rest _ => some (.datagram (messageBBytes rest))

/-- Does the table select the operation in this MODE and under this ENC (30_encoding.md R79; the `select` entries
of spec/opcode_table.json for the wire messages)? The internal operations are selected by no event. -/
def Instr.selectedBy (mode : Mode) (enc : Enc) : Instr → Bool
  | .rst _ => true
  | .rxdZ _ => mode ≠ .faulted
  | .rxdHA _ _ => mode = .idle && enc = .a
  | .rxdHB _ _ => mode = .idle && enc = .b
  | .rxdCH _ _ => mode = .accum
  | .ato => true
  | .segp _ => mode ≠ .faulted
  | .crcv _ _ => false
  | .imuf _ => false
  | .frel => false
  | .msgA _ _ _ => mode = .idle && enc = .a
  | .msgB _ _ => mode ≠ .faulted && enc = .b

/-- The receive time among the operands of an operation; zero where it has none. -/
def Instr.receiveTime : Instr → Time
  | .rst _ => 0
  | .rxdZ t => t
  | .rxdHA _ t => t
  | .rxdHB _ t => t
  | .rxdCH _ t => t
  | .ato => 0
  | .segp _ => 0
  | .crcv _ _ => 0
  | .imuf _ => 0
  | .frel => 0
  | .msgA _ _ t => t
  | .msgB _ t => t

/-- Decoding the words of an operation, with the receive time that accompanies a datagram. -/
def decodeWords (mode : Mode) (enc : Enc) (t : Time) : Words → Decoded
  | .event e => decodeEvent mode enc e
  | .datagram bytes => decodeMessage enc bytes t

/-- The datagram of a table word of a wire format: {data[0], data[1], data[2], data[3]}, byte 0 in the
high bits (30_encoding.md R74), then zeros up to the shortest legal head, 13 bytes. -/
def tableDatagram (w : Nat) : List Byte :=
  [BitVec.ofNat 8 (w / 2 ^ 24), BitVec.ofNat 8 (w / 2 ^ 16), BitVec.ofNat 8 (w / 2 ^ 8), BitVec.ofNat 8 w]
    ++ List.replicate 9 0

/-- The operation a word of spec/opcode_table.json stands for: rows of one byte are event codes, rows of
four bytes are the first four bytes of a datagram (under ENC = A). Every operand the table gives no bits
is zero. -/
def decodeTableWord (nbits w : Nat) : Option Instr :=
  let answer :=
    if nbits ≤ 8 then
      if w < 16 then decodeEvent .idle .a (Event.ofCode (BitVec.ofNat 4 w)) else .rejected .lengthMismatch
    else if nbits = 32 then decodeMessage .a (tableDatagram w) 0
    else .rejected .lengthMismatch
  match answer with
  | .instr i => some i
  | .rejected _ => none

end Sys2Proof
end

