-- ==== Sys2Proof/Machine/State.lean ====
section
/-! DEFINITION. The state of MSFV (10_state.md R20), its output transactions (30_encoding.md R86), the
reasons a step can stop, and the state after reset (10_state.md R48). -/

namespace Sys2Proof.Machine

/-- The byte-addressed space WB (10_state.md R44): address and byte pairs, addresses strictly rising. An
address that is not listed has no value: nothing has written it since the last RST (log entry 3). -/
abbrev Memory := List Host.Cell

/-- A FRAME transaction (30_encoding.md R86, 44_frame_release.md R171). -/
structure Frame where
  ts      : Time
  stride  : Nat
  layout  : Layout
  npoints : Nat
  rows    : Nat
  data    : List Byte
  deriving DecidableEq, Repr

/-- An IMU transaction (30_encoding.md R86, 43_assembler.md R151). -/
structure ImuSample where
  ts     : Time
  angvel : Vector Scalar 3
  accel  : Vector Scalar 3
  quat   : Vector Scalar 4
  deriving DecidableEq, Repr

/-- The output transactions (30_encoding.md R86). DIAG and FAULT carry the 8-bit cause. -/
inductive Output where
  | frame (f : Frame)
  | imu (m : ImuSample)
  | diag (cause : BitVec 8)
  | fault (cause : BitVec 8)
  deriving DecidableEq, Repr

/-- The answer of CRCV (41_crc.md R133). -/
inductive Verdict where
  | accept
  | reject
  deriving DecidableEq, Repr

/-- The state. `slots`, `mask`, `mode`, `wb`, `wbLen`, `wbTime`, `faultCause` and `cfg` are the tuple of
10_state.md R20. The other fields are the model's own: whether RST has ever been applied (R221), the
events presented and not yet consumed (R32), the output trace (R60), the answer of a CRCV run on its own,
and how many free values have been drawn. -/
structure State where
  slots      : Vector (List Segment) Config.nslots
  mask       : BitVec Config.maskW
  mode       : Mode
  wb         : Memory
  wbLen      : Nat
  wbTime     : Time
  faultCause : BitVec 8
  cfg        : Straps
  started    : Bool
  input      : List Event
  outputs    : List Output
  crcVerdict : Option Verdict
  draws      : Nat
  deriving DecidableEq, Repr

/-- Why the machine stops with a fault. Neither is reached from a state that meets the invariant of
Sys2Proof/Safety.lean; both are safe (the model stops where no rule gives an effect). -/
inductive Fault where
  /-- a byte of WB inside [0, WB_LEN) that nothing has written since the last RST is read: raised by
  `memRead` (10_state.md R48: contents unspecified). Safe. -/
  | unwrittenByte (addr : Nat)
  /-- a write past WB_CAP: raised by `memWrite` (00_scope.md R12: "defined only when addr + n <= WB_CAP").
  Safe. -/
  | writeOutsideBuffer
  deriving DecidableEq, Repr

/-- Why the machine gives no meaning. -/
inductive Refusal where
  /-- an operation of the table without a meaning: raised by `exec` only. Safe. -/
  | notModelled (mnemonic : String)
  /-- a reserved event code (30_encoding.md R81, U9): raised by `step`. Safe. -/
  | reservedEventCode (ev : BitVec 4)
  /-- an RXD transaction whose data is not `len` bytes long (no RXD by 30_encoding.md R70): raised by
  `step`. Safe. -/
  | malformedTransaction
  /-- MAX_DEPTH = 0 at RST (10_state.md R40, U7): raised by RST. Safe. -/
  | illegalDepth
  /-- LAYOUT.LEVEL in 5..7 at RST (10_state.md R40, U8): raised by RST. Safe. -/
  | illegalLevel
  /-- ENC or LAYOUT undriven at RST (10_state.md R40, U17): raised by RST. Safe. -/
  | undrivenStrap
  /-- any operation but RST before the first RST (70_reset_and_hazards.md R221, U14): raised by every
  operation but RST. Safe. -/
  | beforeReset
  /-- a read of WB outside [0, WB_LEN) (20_memory.md R55, U16): raised by `memRead`. Safe. -/
  | readOutsideBuffer
  /-- an operation run in a state, or on a datagram, that does not select it (30_encoding.md R79): raised
  by RXD.HA, RXD.HB, RXD.CH, MSG.A and MSG.B; `step` never runs one so. Safe. -/
  | notSelected
  deriving DecidableEq, Repr

/-- The configuration of State.reset: MAX_DEPTH is the spec's default 3; ENC and LAYOUT have none
(10_state.md R48), and A, LEVEL 0, TS 0, REFL 0 are a DESIGN CHOICE (log entry 1). -/
def Straps.atReset : Straps where
  enc := .a
  maxDepth := Config.defaultDepth
  layout := { level := 0, ts := false, refl := false }

/-- The machine right after reset (10_state.md R48, 70_reset_and_hazards.md R220). WB_TIME is unspecified
there; zero is a DESIGN CHOICE (log entry 2). -/
def State.reset : State where
  slots := Vector.replicate Config.nslots []
  mask := 0x000
  mode := .idle
  wb := []
  wbLen := 0
  wbTime := 0
  faultCause := 0x00
  cfg := Straps.atReset
  started := true
  input := []
  outputs := []
  crcVerdict := none
  draws := 0

end Sys2Proof.Machine
end

