-- ==== Sys2Proof/Machine/Ops.lean ====
section
/-! DEFINITION. The named operations over the state: the working buffer (20_memory.md), the slots
(10_state.md R21, R22), emitting an output (00_scope.md R12), and the two exceptional outcomes,
`drop` (60_exceptions.md R195) and `raiseFault` (60_exceptions.md R200). There is no return operation:
after a drop the next event is decoded in MODE = IDLE (R196), and a fault is left only by RST (R201). -/

namespace Sys2Proof.Machine

/-- The outcome of an operation of the machine that answers an `α`. -/
abbrev Result (α : Type) := Host.Outcome α Fault Refusal

/-- Run `f` on the answer of `x`; a fault or a refusal of `x` ends the operation. -/
def andThen {α β : Type} (x : Result α) (f : α → Result β) : Result β :=
  match x with
  | .next a => f a
  | .fault r => .fault r
  | .refused r => .refused r

/-! ### Memory -/

/-- The canonical form: addresses strictly rising, all below WB_CAP (10_state.md R44). -/
abbrev Memory.wf (m : Memory) : Prop :=
  m.Pairwise (fun c d => c.1 < d.1) ∧ ∀ c ∈ m, c.1 < Config.wbCap

/-- The byte at an address; `none` where nothing is written. -/
def readByte (m : Memory) (a : Nat) : Option Byte := m.lookup a

/-- The bytes of `bs` at `a` and the addresses after it. -/
def cellsAt (a : Nat) : List Byte → Memory
  | [] => []
  | b :: bs => (a, b) :: cellsAt (a + 1) bs

/-- Write the bytes `bs` at `a` and the addresses after it. -/
def writeBytes (m : Memory) (a : Nat) (bs : List Byte) : Memory :=
  m.filter (fun c => c.1 < a) ++ cellsAt a bs ++ m.filter (fun c => a + bs.length ≤ c.1)

/-- The `n` bytes from `a` on, or the first address without a value. -/
def readBytes (m : Memory) (a : Nat) (n : Nat) : Result (List Byte) :=
  match n with
  | 0 => .next []
  | k + 1 =>
    match readByte m a with
    | none => .fault (.unwrittenByte a)
    | some b => andThen (readBytes m (a + 1) k) fun bs => .next (b :: bs)

/-- `MemRead(addr, n)` (00_scope.md R12, 20_memory.md R55): defined only inside [0, WB_LEN); elsewhere
the model refuses (U16). -/
def memRead (addr n : Nat) (s : State) : Result (List Byte) :=
  if addr + n ≤ s.wbLen then readBytes s.wb addr n else .refused .readOutsideBuffer

/-- `le32(MemRead(addr, 4))` (20_memory.md R52, 46_operation_laws.md R244). -/
def memRead32 (addr : Nat) (s : State) : Result Word :=
  andThen (memRead addr 4 s) fun bs => .next (le32 bs)

/-- `MemWrite(addr, |v|, v)` (00_scope.md R12): defined only inside [0, WB_CAP). -/
def memWrite (addr : Nat) (v : List Byte) (s : State) : Result State :=
  if addr + v.length ≤ Config.wbCap then .next { s with wb := writeBytes s.wb addr v }
  else .fault .writeOutsideBuffer

/-- The datagram part of a head or a chunk: write the bytes at `addr`, move WB_LEN behind them and latch
the receive time (40_demux.md R101, R111; 10_state.md R31, R47). -/
def acceptBytes (addr : Nat) (data : List Byte) (t : Time) (s : State) : Result State :=
  andThen (memWrite addr data s) fun s' =>
    .next { s' with wbLen := addr + data.length, wbTime := t }

/-! ### Sequencing state, outputs, drops and faults -/

/-- `MODE <- m`. -/
def setMode (m : Mode) (s : State) : State := { s with mode := m }

/-- Release the working buffer: `WB_LEN <- 0`, `MODE <- IDLE` (60_exceptions.md R195, 40_demux.md R106). -/
def releaseBuffer (s : State) : State := { s with wbLen := 0, mode := .idle }

/-- `emit PORT(fields)`: append one transaction to the output trace (00_scope.md R12, 20_memory.md R60). -/
def emit (o : Output) (s : State) : State := { s with outputs := s.outputs ++ [o] }

/-- The causes a DIAG carries (60_exceptions.md R190). -/
inductive DiagCause where
  | badResync
  | undersized
  | oversized
  | crcMismatch
  | decodeFail
  | capExceeded
  | accTimeout
  | probeDiag
  deriving DecidableEq, Repr

/-- The 8-bit codes of 60_exceptions.md R190. -/
def diagCode : DiagCause → BitVec 8
  | .badResync => 0x01
  | .undersized => 0x02
  | .oversized => 0x03
  | .crcMismatch => 0x04
  | .decodeFail => 0x05
  | .capExceeded => 0x06
  | .accTimeout => 0x07
  | .probeDiag => 0x10

/-- The causes of the fatal ingestion fault (60_exceptions.md R191). -/
inductive FaultCause where
  | badIndex
  | emptySlot
  deriving DecidableEq, Repr

/-- The 8-bit codes of 60_exceptions.md R191. -/
def faultCode : FaultCause → BitVec 8
  | .badIndex => 0x81
  | .emptySlot => 0x82

/-- `emit DIAG(cause)`. -/
def emitDiag (c : DiagCause) (s : State) : State := emit (.diag (diagCode c)) s

/-- `drop(cause)` (60_exceptions.md R195): the one way a datagram or a message is abandoned. -/
def drop (c : DiagCause) (s : State) : State := releaseBuffer (emitDiag c s)

/-- `raise IngestFault(cause)` (60_exceptions.md R200): the one way the fatal fault is taken. -/
def raiseFault (c : FaultCause) (s : State) : State :=
  emit (.fault (faultCode c)) { s with faultCause := faultCode c, mode := .faulted }

/-- What every operation but RST does first: before the first RST it has no meaning (70_reset_and_hazards.md
R221, U14), and in MODE = FAULTED it is consumed without any effect (60_exceptions.md R201). -/
def onRunning (s : State) (k : Result State) : Result State :=
  if s.started = false then .refused .beforeReset
  else if s.mode = .faulted then .next s
  else k

/-! ### Slots -/

/-- The slot a Segment belongs to, when its index is in 0..11 (43_assembler.md R150, 46_operation_laws.md
R240). -/
def slotOf (index : BitVec Config.indexW) : Option (Fin Config.nslots) :=
  if h : index.toNat < Config.nslots then some ⟨index.toNat, h⟩ else none

/-- `x[i]` (00_scope.md R12). -/
def slot (s : State) (i : Fin Config.nslots) : List Segment := s.slots[i.val]

/-- `x[i] <- q` (00_scope.md R12). -/
def setSlot (i : Fin Config.nslots) (q : List Segment) (s : State) : State :=
  { s with slots := s.slots.set i.val q }

/-- Empty all twelve slots (44_frame_release.md R170, 45_control.md R185). -/
def clearSlots (s : State) : State := { s with slots := Vector.replicate Config.nslots [] }

/-- The read-only status port (10_state.md R41): MODE, MASK, WB_LEN, FAULT_CAUSE. Reading is no event and
has no side effect. -/
def statusPort (s : State) : Mode × BitVec Config.maskW × Nat × BitVec 8 :=
  (s.mode, s.mask, s.wbLen, s.faultCause)

end Sys2Proof.Machine
end

