-- ==== Sys2Proof/Machine/Flags.lean ====
section
/-! DEFINITION. The presence mask (10_state.md R35 to R37): what sets a bit, what clears all of them, and
the completion test. -/

namespace Sys2Proof.Machine

/-- `MASK[i]`. -/
def present (s : State) (i : Fin Config.nslots) : Bool := s.mask.getLsbD i.val

/-- `MASK[i] <- 1` (43_assembler.md R152, 10_state.md R36). -/
def setPresence (i : Fin Config.nslots) (s : State) : State := { s with mask := s.mask ||| BitVec.twoPow Config.maskW i.val }

/-- `MASK <- 0x000` (44_frame_release.md R170, 45_control.md R185). -/
def clearMask (s : State) : State := { s with mask := 0x000 }

/-- The completion test `MASK = 0xFFF` (43_assembler.md R153). -/
def frameComplete (s : State) : Bool := s.mask == 0xFFF

end Sys2Proof.Machine
end

