-- ==== Sys2Proof/Machine/Operands.lean ====
section
/-! DEFINITION. Operand forms: the strap inputs of RST (10_state.md R40), the conditions under which a
datagram selects an operation (30_encoding.md R79), capture times (30_encoding.md R78) and the queue
primitives of 00_scope.md R12. -/

namespace Sys2Proof.Machine

/-- ENC as a bit: 0 is encoding A, 1 is encoding B (10_state.md R40). -/
def encOf (b : BitVec 1) : Enc := if b = 0 then .a else .b

/-- Sample the strap inputs (45_control.md R185): MAX_DEPTH is 3 when undriven; ENC or LAYOUT undriven
(U17), MAX_DEPTH = 0 (U7) and LEVEL in 5..7 (U8) are refused. -/
def sampleStraps (c : StrapInputs) : Result Straps :=
  match c.enc, c.level, c.ts, c.refl with
  | some enc, some level, some ts, some refl =>
    let depth := c.maxDepth.getD Config.defaultDepth
    if depth = 0 then .refused .illegalDepth
    else if h : level.toNat < 5 then
      .next
        { enc := encOf enc
          maxDepth := depth
          layout := { level := ⟨level.toNat, h⟩, ts := ts == 1, refl := refl == 1 } }
    else .refused .illegalLevel
  | _, _, _, _ => .refused .undrivenStrap

/-- The state and the datagram select RXD.HA (30_encoding.md R79). -/
def selectsHeadA (data : List Byte) (s : State) : Bool :=
  s.mode = .idle && s.cfg.enc = .a && datagramOk data

/-- The state and the datagram select RXD.HB (30_encoding.md R79). -/
def selectsHeadB (data : List Byte) (s : State) : Bool :=
  s.mode = .idle && s.cfg.enc = .b && datagramOk data

/-- The state and the datagram select RXD.CH (30_encoding.md R79). -/
def selectsChunk (data : List Byte) (s : State) : Bool :=
  s.mode = .accum && datagramOk data

/-- The first bytes of a datagram are the marker (40_demux.md R101, all four bytes in offset order). -/
def hasMarker (data : List Byte) : Bool :=
  Config.markerSize ≤ data.length && data.take Config.markerSize == Config.marker

/-- The capture time {t_sec, t_nsec} as one 64-bit value (30_encoding.md R78). -/
def captureTime (g : Segment) : Time := g.tSec ++ g.tNsec

/-- The front (newest) Segment of every queue, in order, or `none` when one is empty
(44_frame_release.md R166). -/
def fronts : List (List Segment) → Option (List Segment)
  | [] => some []
  | [] :: _ => none
  | (g :: _) :: qs =>
    match fronts qs with
    | none => none
    | some gs => some (g :: gs)

end Sys2Proof.Machine
end

