-- ==== Sys2Proof/Machine/Control.lean ====
section
/-! DEFINITION. The one control operation, RST (45_control.md R185). -/

namespace Sys2Proof.Machine

/-- The state after RST with a legal configuration (45_control.md R185). WB's contents and WB_TIME are
unspecified: no byte of WB has a value, and WB_TIME is a free value (log entries 3 and 4). The presented
events and the output trace belong to the environment and stay. -/
def resetWith (cfg : Straps) (s : State) : State :=
  { s with
    cfg := cfg
    slots := Vector.replicate Config.nslots []
    mask := 0x000
    mode := .idle
    wbLen := 0
    faultCause := 0x00
    wb := []
    wbTime := Config.unspecifiedTime s.draws
    draws := s.draws + 1
    crcVerdict := none
    started := true }

/-- RST (45_control.md R185): accepted in every MODE and before the first RST; a configuration outside
the legal range is refused. -/
def execRst (c : StrapInputs) (s : State) : Result State :=
  andThen (sampleStraps c) fun cfg => .next (resetWith cfg s)

end Sys2Proof.Machine
end

