-- ==== Sys2Proof/Machine/Serializer.lean ====
section
/-! DEFINITION. The point serializer and the layouts (44_frame_release.md R172 to R175). -/

namespace Sys2Proof.Machine

/-- How many scalars the contiguous block of a level has (44_frame_release.md R172). -/
def scalarCount : Fin 5 → Nat
  | 0 => 3
  | 1 => 4
  | 2 => 5
  | 3 => 7
  | 4 => 10

/-- BASE(LEVEL), the bytes of the contiguous block (44_frame_release.md R172): 12, 16, 20, 28, 40. -/
def baseOf (level : Fin 5) : Nat := Config.scalarSize * scalarCount level

/-- STRIDE(LAYOUT) = BASE(LEVEL) + 8 × TS + 4 × REFL (44_frame_release.md R172). -/
def strideOf (l : Layout) : Nat :=
  baseOf l.level + (if l.ts then Config.localTimestampSize else 0) + (if l.refl then Config.scalarSize else 0)

/-- The fields of the contiguous block, in offset order (44_frame_release.md R172): each level adds its
own to those of the level below. -/
def blockFields (level : Fin 5) (p : Point) : List Scalar :=
  [p.x, p.y, p.z]
    ++ (if 1 ≤ level.val then [p.intensity] else [])
    ++ (if 2 ≤ level.val then [p.range] else [])
    ++ (if 3 ≤ level.val then [p.azimuth, p.elevation] else [])
    ++ (if 4 ≤ level.val then [p.layer, p.echo, p.index] else [])

/-- `serialize(p, LAYOUT)` (44_frame_release.md R172, R173): the block, then `lts`, then `reflectivity`,
little-endian, no padding. -/
def serialize (l : Layout) (p : Point) : List Byte :=
  (blockFields l.level p).flatMap le32Bytes
    ++ (if l.ts then le64Bytes p.lts else [])
    ++ (if l.refl then le32Bytes p.reflectivity else [])

/-- The Points of a Segment in stored order: groups, scanlines, points (44_frame_release.md R168). -/
def pointsOf (g : Segment) : List Point := g.groups.flatten.flatten

/-- The records of the front Segments, slot 0 first (44_frame_release.md R165, R168). -/
def frameData (l : Layout) (fs : List Segment) : List Byte :=
  (fs.flatMap pointsOf).flatMap (serialize l)

/-- The least of the capture times, unsigned (44_frame_release.md R167, 46_operation_laws.md R240). -/
def frameTime (fs : List Segment) : Time :=
  fs.foldl (fun m g => if captureTime g < m then captureTime g else m) (BitVec.allOnes Config.timeW)

end Sys2Proof.Machine
end

