-- ==== Sys2Proof/Machine/FrameRelease.lean ====
section
/-! DEFINITION. The internal operation FREL (44_frame_release.md R165 to R171). -/

namespace Sys2Proof.Machine

/-- The FRAME of twelve front Segments (44_frame_release.md R165, R171). -/
def frameOf (l : Layout) (fs : List Segment) : Frame where
  ts := frameTime fs
  stride := strideOf l
  layout := l
  npoints := (frameData l fs).length / strideOf l
  rows := 1
  data := frameData l fs

/-- The hard cut (44_frame_release.md R170): every slot emptied, the mask zeroed. -/
def hardCut (s : State) : State := clearMask (clearSlots s)

/-- FREL (44_frame_release.md R165): the frame of the fronts, the cut, the emission; an empty slot raises
EMPTY_SLOT and emits no FRAME (R166). -/
def frameRelease (s : State) : State :=
  match fronts s.slots.toList with
  | none => raiseFault .emptySlot s
  | some fs => emit (.frame (frameOf s.cfg.layout fs)) (hardCut s)

/-- FREL run on its own (44_frame_release.md R165). -/
def execFrel (s : State) : Result State := onRunning s (.next (frameRelease s))

end Sys2Proof.Machine
end

