-- ==== Sys2Proof/Machine/Assembler.lean ====
section
/-! DEFINITION. The 12-slot assembler: SEGP and IMUF (43_assembler.md). -/

namespace Sys2Proof.Machine

/-- The IMU transaction of a Segment (43_assembler.md R151). -/
def imuSampleOf (g : Segment) : ImuSample where
  ts := captureTime g
  angvel := g.imu.angvel
  accel := g.imu.accel
  quat := g.imu.quat

/-- IMUF (43_assembler.md R151): a Segment with `imu.valid = 0` emits nothing. -/
def imuForward (g : Segment) (s : State) : State :=
  if g.imu.valid then emit (.imu (imuSampleOf g)) s else s

/-- The queue after a push: newest at the front, at most `depth` elements (43_assembler.md R152). -/
def pushQueue (depth : Nat) (g : Segment) (q : List Segment) : List Segment :=
  if (g :: q).length > depth then (g :: q).take depth else g :: q

/-- `push(s)` on slot `i` (43_assembler.md R152): the presence bit is set whether or not truncation
occurred. -/
def push (i : Fin Config.nslots) (g : Segment) (s : State) : State :=
  setPresence i (setSlot i (pushQueue s.cfg.maxDepth g (slot s i)) s)

/-- The completion test that follows every push (43_assembler.md R153). -/
def releaseIfComplete (s : State) : State := if frameComplete s then frameRelease s else s

/-- The push of a Segment with at least one point group; any other Segment touches no slot
(43_assembler.md R150). -/
def storeSegment (i : Fin Config.nslots) (g : Segment) (s : State) : State :=
  if 1 ≤ g.groups.length then releaseIfComplete (push i g s) else s

/-- SEGP(s) (43_assembler.md R150): the index test first, then the inertial sample, then the push. -/
def segmentPush (g : Segment) (s : State) : State :=
  match slotOf g.index with
  | none => raiseFault .badIndex s
  | some i => storeSegment i g (imuForward g s)

/-- SEGP as an event (43_assembler.md R150, 30_encoding.md R72). -/
def execSegp (g : Segment) (s : State) : Result State := onRunning s (.next (segmentPush g s))

/-- IMUF run on its own (43_assembler.md R151). -/
def execImuf (g : Segment) (s : State) : Result State := onRunning s (.next (imuForward g s))

end Sys2Proof.Machine
end

