-- ==== Sys2Proof/Machine/Crc.lean ====
section
/-! DEFINITION. The CRC-32 function and the internal operation CRCV (41_crc.md). -/

namespace Sys2Proof.Machine

/-- One turn of the inner loop of 41_crc.md R131. -/
def crcBit (c : Word) : Word :=
  if c.getLsbD 0 then (c >>> 1) ^^^ Config.crcPolyReflected else c >>> 1

/-- `n` turns of the inner loop. -/
def crcBits (n : Nat) (c : Word) : Word :=
  match n with
  | 0 => c
  | k + 1 => crcBits k (crcBit c)

/-- One byte: it enters at bits 7..0, then eight turns (41_crc.md R131). -/
def crcByte (c : Word) (b : Byte) : Word := crcBits 8 (c ^^^ b.setWidth 32)

/-- The accumulator after the bytes of `bs`, in offset order, from `c` (41_crc.md R131). -/
def crcAccumulate (c : Word) (bs : List Byte) : Word := bs.foldl crcByte c

/-- `crc32(b)` (41_crc.md R131). -/
def crc32 (bs : List Byte) : Word := crcAccumulate Config.crcInit bs ^^^ Config.crcXorOut

/-- The table of 41_crc.md R132. -/
def crcTable (i : Byte) : Word := crcBits 8 (i.setWidth 32)

/-- The byte-at-a-time update of 41_crc.md R132. -/
def crcTableByte (c : Word) (b : Byte) : Word := (c >>> 8) ^^^ crcTable ((c ^^^ b.setWidth 32).setWidth 8)

/-- `CRCV(region, crc_wire)`: equality of all 32 bits (41_crc.md R133). -/
def crcVerdictOf (region : List Byte) (crcWire : Word) : Verdict :=
  if crc32 region = crcWire then .accept else .reject

/-- CRCV run on its own (41_crc.md R133): it writes no state of the spec's; its answer is kept in the
model's own field `crcVerdict` (log entry 8). -/
def execCrcv (region : List Byte) (crcWire : Word) (s : State) : Result State :=
  onRunning s (.next { s with crcVerdict := some (crcVerdictOf region crcWire) })

end Sys2Proof.Machine
end

