-- ==== Sys2Proof/Machine/Demux.lean ====
section
/-! DEFINITION. The resync-marker frame demultiplexer (40_demux.md): RXD in its four forms, ATO, and the
wire messages MSG.A and MSG.B. Everything that calls the Segment Decoder takes it as an argument
(42_decoder_contract.md R140); an operation of the table hands it `Config.oracles`. -/

namespace Sys2Proof.Machine

/-- What the decoder's answer does (40_demux.md R106, 42_decoder_contract.md R142). -/
def handleDecoded (answer : DecodeAnswer) (s : State) : State :=
  match answer with
  | .fail => emitDiag .decodeFail s
  | .seg g => segmentPush g s

/-- `finish` after the region and the trailing CRC are read (40_demux.md R106): the CRC, then the decoder,
then the buffer is released before SEGP runs. -/
def finishMessage (o : Oracles) (region : List Byte) (crcWire : Word) (s : State) : State :=
  match crcVerdictOf region crcWire with
  | .reject => drop .crcMismatch s
  | .accept => handleDecoded (o.decode region s.wbTime) (releaseBuffer s)

/-- `finish(region_off, region_len, crc_off)` (40_demux.md R106). -/
def finish (o : Oracles) (regionOff regionLen crcOff : Nat) (s : State) : Result State :=
  andThen (memRead regionOff regionLen s) fun region =>
    andThen (memRead32 crcOff s) fun crcWire => .next (finishMessage o region crcWire s)

/-- The exact-length test and `finish` (40_demux.md R103, R105; the sums do not wrap, 46_operation_laws.md
R240). -/
def completeExact (o : Oracles) (total regionOff regionLen : Nat) (s : State) : Result State :=
  if s.wbLen < total then .next (drop .undersized s)
  else if s.wbLen > total then .next (drop .oversized s)
  else finish o regionOff regionLen (regionOff + regionLen) s

/-- Encoding A after the head check (40_demux.md R103). -/
def completeA (o : Oracles) (s : State) : Result State :=
  andThen (memRead32 Config.lenOffset s) fun plen =>
    completeExact o (Config.markerSize + Config.lenSize + plen.toNat + Config.crcSize)
      (Config.markerSize + Config.lenSize) plen.toNat s

/-- What the probe's answer does (40_demux.md R105, 42_decoder_contract.md R141, R144). -/
def handleProbe (o : Oracles) (answer : ProbeAnswer) (s : State) : Result State :=
  match answer with
  | .ok n => completeExact o (n.toNat + Config.crcSize) 0 n.toNat s
  | .need r =>
    if r.toNat > Config.cap then .next (drop .capExceeded (emitDiag .probeDiag s))
    else .next (setMode .accum s)

/-- `try_complete_B` (40_demux.md R105). -/
def tryCompleteB (o : Oracles) (s : State) : Result State :=
  andThen (memRead 0 s.wbLen s) fun bytes => handleProbe o (o.probe bytes) s

/-- The head check (40_demux.md R101), then `k` on the accepted datagram. -/
def headCheck (data : List Byte) (t : Time) (k : State → Result State) (s : State) : Result State :=
  if hasMarker data = false then .next (drop .badResync s)
  else if data.length ≤ Config.markerSize + Config.minExtra then .next (drop .undersized s)
  else andThen (acceptBytes 0 data t s) k

/-- A chunk (40_demux.md R111): the buffer bound first (R112), then the append and the probe. -/
def appendChunk (o : Oracles) (data : List Byte) (t : Time) (s : State) : Result State :=
  if s.wbLen + data.length > Config.wbCap then .next (drop .oversized s)
  else andThen (acceptBytes s.wbLen data t s) (tryCompleteB o)

/-- RXD.HA with a given decoder (40_demux.md R101, R103). -/
def receiveHeadA (o : Oracles) (data : List Byte) (t : Time) (s : State) : Result State :=
  onRunning s
    (if selectsHeadA data s then headCheck data t (completeA o) s else .refused .notSelected)

/-- RXD.HB with a given decoder (40_demux.md R101, R104). -/
def receiveHeadB (o : Oracles) (data : List Byte) (t : Time) (s : State) : Result State :=
  onRunning s
    (if selectsHeadB data s then headCheck data t (tryCompleteB o) s else .refused .notSelected)

/-- RXD.CH with a given decoder (40_demux.md R111). -/
def receiveChunk (o : Oracles) (data : List Byte) (t : Time) (s : State) : Result State :=
  onRunning s (if selectsChunk data s then appendChunk o data t s else .refused .notSelected)

/-- MSG.A with a given decoder: a message of encoding A received whole (30_encoding.md R73, 40_demux.md
R103). It carries the marker by construction, so only its length is tested (opcode table: len > 12). -/
def receiveMessageA (o : Oracles) (plen : Word) (body : List Byte) (t : Time) (s : State) : Result State :=
  let bytes := messageABytes plen body
  onRunning s
    (if selectsHeadA bytes s && headLengthOk bytes.length then
      andThen (acceptBytes 0 bytes t s) (completeA o)
    else .refused .notSelected)

/-- MSG.B with a given decoder (30_encoding.md R73, 40_demux.md R104, R111): in IDLE the head of a
message, in ACCUM a continuation chunk, whatever its first bytes (70_reset_and_hazards.md R227). -/
def receiveMessageB (o : Oracles) (rest : List Byte) (t : Time) (s : State) : Result State :=
  let bytes := messageBBytes rest
  onRunning s
    (if selectsHeadB bytes s && headLengthOk bytes.length then
      andThen (acceptBytes 0 bytes t s) (tryCompleteB o)
    else if selectsChunk bytes s then appendChunk o bytes t s
    else .refused .notSelected)

/-- The accumulation timeout (40_demux.md R115). -/
def accumulationTimeout (s : State) : State :=
  if s.mode = .accum then drop .accTimeout (emitDiag .probeDiag s) else s

/-- RXD.Z (40_demux.md R100): nothing changes; its receive time is ignored. -/
def execRxdZ (_t : Time) (s : State) : Result State := onRunning s (.next s)

/-- RXD.HA (40_demux.md R103). -/
def execRxdHA (data : List Byte) (t : Time) (s : State) : Result State :=
  receiveHeadA Config.oracles data t s

/-- RXD.HB (40_demux.md R104). -/
def execRxdHB (data : List Byte) (t : Time) (s : State) : Result State :=
  receiveHeadB Config.oracles data t s

/-- RXD.CH (40_demux.md R111). -/
def execRxdCH (data : List Byte) (t : Time) (s : State) : Result State :=
  receiveChunk Config.oracles data t s

/-- ATO (40_demux.md R115). -/
def execAto (s : State) : Result State := onRunning s (.next (accumulationTimeout s))

/-- MSG.A (30_encoding.md R73). -/
def execMsgA (plen : Word) (body : List Byte) (t : Time) (s : State) : Result State :=
  receiveMessageA Config.oracles plen body t s

/-- MSG.B (30_encoding.md R73). -/
def execMsgB (rest : List Byte) (t : Time) (s : State) : Result State :=
  receiveMessageB Config.oracles rest t s

end Sys2Proof.Machine
end

