-- ==== Sys2Proof/Machine/Dispatch.lean ====
section
/-! DEFINITION. One arm per operation of spec/opcode_table.json. -/

namespace Sys2Proof.Machine

def exec (i : Instr) (s : State) : Host.Outcome State Fault Refusal :=
  match i with
  | .rst cfg => Sys2Proof.Machine.execRst cfg s
  | .rxdZ t => Sys2Proof.Machine.execRxdZ t s
  | .rxdHA data t => Sys2Proof.Machine.execRxdHA data t s
  | .rxdHB data t => Sys2Proof.Machine.execRxdHB data t s
  | .rxdCH data t => Sys2Proof.Machine.execRxdCH data t s
  | .ato => Sys2Proof.Machine.execAto s
  | .segp seg => Sys2Proof.Machine.execSegp seg s
  | .crcv region crcWire => Sys2Proof.Machine.execCrcv region crcWire s
  | .imuf seg => Sys2Proof.Machine.execImuf seg s
  | .frel => Sys2Proof.Machine.execFrel s
  | .msgA plen body t => Sys2Proof.Machine.execMsgA plen body t s
  | .msgB rest t => Sys2Proof.Machine.execMsgB rest t s

end Sys2Proof.Machine
end

