-- ==== Sys2Proof/Machine/Fetch.lean ====
section
/-! DEFINITION. Taking the next event from the presented ones (10_state.md R32), and presenting a word of
spec/opcode_table.json as one. -/

namespace Sys2Proof.Machine

/-- What the next event is: none presented, no event of MSFV, or an operation and the state with the event
consumed. -/
inductive Fetched where
  | none
  | rejected (r : Refusal)
  | instr (i : Instr) (rest : State)
  deriving DecidableEq, Repr

/-- The refusal a rejected transaction ends in: a reserved code by its own name (30_encoding.md R81), any
other as malformed (R70). -/
def refusalOf : DecodeError → Refusal
  | .reservedEventCode ev => .reservedEventCode ev
  | .lengthMismatch => .malformedTransaction
  | .badResync => .malformedTransaction
  | .undersizedHead => .malformedTransaction

/-- Consume the first presented event and decode it under MODE and ENC (10_state.md R32, 30_encoding.md
R79, R84). -/
def fetch (s : State) : Fetched :=
  match s.input with
  | [] => .none
  | e :: rest =>
    match decodeEvent s.mode s.cfg.enc e with
    | .rejected r => .rejected (refusalOf r)
    | .instr i => .instr i { s with input := rest }

/-- The event a word of the table is presented as: a code with operands of zeros, or the RXD that carries
a datagram beginning with the word. -/
def tableEvent (nbits w : Nat) : Event :=
  if nbits = 32 then rxdEvent (tableDatagram w) 0 else Event.ofCode (BitVec.ofNat 4 w)

/-- Put the table word in front of the presented events. -/
def presentTableWord (nbits w : Nat) (s : State) : State :=
  { s with input := tableEvent nbits w :: s.input }

end Sys2Proof.Machine
end

