-- ==== Sys2Proof/Machine/Step.lean ====
section
/-! DEFINITION. One step: consume the next presented event and run the operation it selects
(00_scope.md R13, 10_state.md R32). -/

namespace Sys2Proof.Machine

/-- One event, run to completion (R13, R32). With no event presented the block waits (log entry 6). -/
def step (s : State) : Host.Outcome State Fault Refusal :=
  match fetch s with
  | .none => .next s
  | .rejected r => .refused r
  | .instr i rest => exec i rest

/-- `s` with the table word presented as its next event (log entry 6). -/
def State.withFetchWord (s : State) (nbits w : Nat) : State := presentTableWord nbits w s

end Sys2Proof.Machine
end

