-- ==== Sys2Proof/Machine/Script.lean ====
section
/-! DEFINITION. The stimulus script of 30_encoding.md R85: its lines, the event each one denotes, the
reader of their text, and the text in which R85 writes outputs. -/

namespace Sys2Proof.Machine

/-- A line of a stimulus script (30_encoding.md R85). -/
inductive ScriptLine where
  /-- `rst enc=<A|B> depth=<k> layout=<level>[+ts][+refl]` -/
  | rst (enc : Enc) (depth : Nat) (level : BitVec 3) (ts refl : Bool)
  /-- `rxd <hex bytes> @ <sec>.<nsec>` -/
  | rxd (bytes : List Byte) (sec : BitVec Config.secW) (nsec : BitVec Config.nsecW)
  /-- `rxd -`: the zero-length datagram -/
  | rxdNone
  /-- `ato` -/
  | ato
  /-- `segp idx=<i> t=<sec>.<nsec> groups=<g> [pts=<p>] [imu=<0|1>] [ctr=<c>]` -/
  | segp (idx : BitVec Config.indexW) (sec : BitVec Config.secW) (nsec : BitVec Config.nsecW) (groups pts : Nat) (imu : Bool) (ctr : BitVec Config.counterW)
  deriving DecidableEq, Repr

/-- The Point of a script Segment: `x = idx`, `y` the group's ordinal, `z` the point's ordinal, every other
field 0 (30_encoding.md R85). -/
def scriptPoint (idx : BitVec Config.indexW) (k j : Nat) : Point where
  x := idx.setWidth Config.scalarW
  y := BitVec.ofNat Config.scalarW k
  z := BitVec.ofNat Config.scalarW j
  intensity := 0
  range := 0
  azimuth := 0
  elevation := 0
  layer := 0
  echo := 0
  index := 0
  reflectivity := 0
  lts := 0

/-- The Segment of a `segp` line (30_encoding.md R85): each group is one scanline of `pts` Points. -/
def scriptSegment (idx : BitVec Config.indexW) (sec : BitVec Config.secW) (nsec : BitVec Config.nsecW) (groups pts : Nat) (imu : Bool)
    (ctr : BitVec Config.counterW) : Segment where
  index := idx
  tSec := sec
  tNsec := nsec
  counter := ctr
  groups := (List.range groups).map fun k => [(List.range pts).map fun j => scriptPoint idx k j]
  imu := { Segment.zero.imu with valid := imu }

/-- The event a script line denotes (30_encoding.md R70, R85). -/
def scriptEvent : ScriptLine → Event
  | .rst enc depth level ts refl =>
    { Event.ofCode 0x1 with
      cfg :=
        { enc := some (match enc with | .a => 0 | .b => 1)
          maxDepth := some depth
          level := some level
          ts := some (BitVec.ofBool ts)
          refl := some (BitVec.ofBool refl) } }
  | .rxd bytes sec nsec => rxdEvent bytes (sec ++ nsec)
  | .rxdNone => rxdEvent [] 0
  | .ato => Event.ofCode 0x9
  | .segp idx sec nsec groups pts imu ctr =>
    { Event.ofCode 0xC with seg := scriptSegment idx sec nsec groups pts imu ctr }

/-! ### The text of a script line (30_encoding.md R85) -/

/-- A text cut at every occurrence of a character. -/
def cutAt (sep : Char) : List Char → List (List Char)
  | [] => [[]]
  | c :: cs =>
    match cutAt sep cs with
    | [] => [[c]]
    | w :: ws => if c = sep then [] :: w :: ws else (c :: w) :: ws

/-- The words of a line, without its comment (from `;` on). -/
def wordsOf (line : List Char) : List (List Char) :=
  (cutAt ' ' (line.takeWhile (· ≠ ';'))).filter (· ≠ [])

/-- The value of a digit in a base up to 16. -/
def digitOf (base : Nat) (c : Char) : Option Nat :=
  let n := c.toNat
  let v := if 48 ≤ n ∧ n ≤ 57 then n - 48 else if 65 ≤ n ∧ n ≤ 70 then n - 55 else if 97 ≤ n ∧ n ≤ 102 then n - 87 else base
  if v < base then some v else none

/-- The number a text of digits denotes, `acc` being the digits already read. -/
def numberFrom (base acc : Nat) : List Char → Option Nat
  | [] => some acc
  | c :: cs => (digitOf base c).bind fun d => numberFrom base (acc * base + d) cs

/-- A decimal integer. -/
def readDecimal (cs : List Char) : Option Nat := if cs = [] then none else numberFrom 10 0 cs

/-- A decimal integer below 2^w. -/
def readBits (w : Nat) (cs : List Char) : Option (BitVec w) :=
  (readDecimal cs).bind fun n => if n < 2 ^ w then some (BitVec.ofNat w n) else none

/-- A byte as two hexadecimal digits. -/
def readHexByte (cs : List Char) : Option Byte :=
  if cs.length = 2 then (numberFrom 16 0 cs).map (BitVec.ofNat 8) else none

/-- `<sec>.<nsec>`: two decimal integers (30_encoding.md R85: not a decimal fraction). -/
def readTime (cs : List Char) : Option (BitVec Config.secW × BitVec Config.nsecW) :=
  match cutAt '.' cs with
  | [sec, nsec] => (readBits Config.secW sec).bind fun a => (readBits Config.nsecW nsec).map fun b => (a, b)
  | _ => none

/-- The value of `key=<value>` among the words of a line. -/
def fieldOf (key : List Char) (words : List (List Char)) : Option (List Char) :=
  match words.find? fun w => (key ++ ['=']).isPrefixOf w with
  | none => none
  | some w => some (w.drop (key.length + 1))

/-- `<A|B>`. -/
def readEnc : List Char → Option Enc
  | ['A'] => some .a
  | ['B'] => some .b
  | _ => none

/-- `<level>[+ts][+refl]`. -/
def readLayout (cs : List Char) : Option (BitVec 3 × Bool × Bool) :=
  match cutAt '+' cs with
  | [l] => (readBits 3 l).map fun l => (l, false, false)
  | [l, a] =>
    (readBits 3 l).bind fun l =>
      if a = "ts".toList then some (l, true, false)
      else if a = "refl".toList then some (l, false, true)
      else none
  | [l, a, b] =>
    (readBits 3 l).bind fun l =>
      if a = "ts".toList ∧ b = "refl".toList then some (l, true, true) else none
  | _ => none

/-- The bytes of an `rxd` line, up to the word `@`, and its time. -/
def readDatagram : List (List Char) → Option (List Byte × BitVec Config.secW × BitVec Config.nsecW)
  | [] => none
  | ['@'] :: [t] => (readTime t).map fun t => ([], t.1, t.2)
  | w :: ws => (readHexByte w).bind fun b => (readDatagram ws).map fun r => (b :: r.1, r.2)

/-- A field with a default when the line does not give it. -/
def fieldOr {α : Type} (key : List Char) (words : List (List Char)) (dflt : α)
    (read : List Char → Option α) : Option α :=
  match fieldOf key words with
  | none => some dflt
  | some v => read v

/-- `<0|1>`. -/
def readFlag : List Char → Option Bool
  | ['0'] => some false
  | ['1'] => some true
  | _ => none

/-- The line a text denotes (30_encoding.md R85), or `none` where it is no script line. -/
def readLine (line : List Char) : Option ScriptLine :=
  match wordsOf line with
  | [] => none
  | w :: ws =>
    if w = "rst".toList then
      (fieldOf "enc".toList ws).bind readEnc |>.bind fun enc =>
      (fieldOf "depth".toList ws).bind readDecimal |>.bind fun depth =>
      (fieldOf "layout".toList ws).bind readLayout |>.map fun l => .rst enc depth l.1 l.2.1 l.2.2
    else if w = "rxd".toList then
      if ws = [['-']] then some .rxdNone else (readDatagram ws).bind fun r => if r.1 = [] then none else some (.rxd r.1 r.2.1 r.2.2)
    else if w = "ato".toList then if ws = [] then some .ato else none
    else if w = "segp".toList then
      (fieldOf "idx".toList ws).bind (readBits Config.indexW) |>.bind fun idx =>
      (fieldOf "t".toList ws).bind readTime |>.bind fun t =>
      (fieldOf "groups".toList ws).bind readDecimal |>.bind fun groups =>
      (fieldOr "pts".toList ws 1 readDecimal).bind fun pts =>
      (fieldOr "imu".toList ws false readFlag).bind fun imu =>
      (fieldOr "ctr".toList ws 0 (readBits Config.counterW)).map fun ctr =>
        .segp idx t.1 t.2 groups pts imu ctr
    else none

/-- The name of a DIAG or FAULT cause by its code (60_exceptions.md R190, R191). -/
def causeName (c : BitVec 8) : String :=
  match c with
  | 0x01 => "BAD_RESYNC"
  | 0x02 => "UNDERSIZED"
  | 0x03 => "OVERSIZED"
  | 0x04 => "CRC_MISMATCH"
  | 0x05 => "DECODE_FAIL"
  | 0x06 => "CAP_EXCEEDED"
  | 0x07 => "ACC_TIMEOUT"
  | 0x10 => "PROBE_DIAG"
  | 0x81 => "BAD_INDEX"
  | 0x82 => "EMPTY_SLOT"
  | _ => "RESERVED"

/-- `<sec>.<nsec>` (30_encoding.md R85). -/
def timeText (t : Time) : String :=
  toString (t.extractLsb' Config.nsecW Config.secW).toNat ++ "." ++ toString (t.extractLsb' 0 Config.nsecW).toNat

/-- The text of an output (30_encoding.md R85). -/
def outputText : Output → String
  | .diag c => "DIAG(" ++ causeName c ++ ")"
  | .fault c => "FAULT(" ++ causeName c ++ ")"
  | .imu m => "IMU(" ++ timeText m.ts ++ ")"
  | .frame f =>
    "FRAME(ts=" ++ timeText f.ts ++ ", npoints=" ++ toString f.npoints ++ ", stride=" ++ toString f.stride ++ ")"

/-- Present the lines of a script, behind the events already presented (10_state.md R32). -/
def presentScript (lines : List ScriptLine) (s : State) : State :=
  { s with input := s.input ++ lines.map scriptEvent }

end Sys2Proof.Machine
end

