-- ==== Sys2Proof/Safety.lean ====
section
/-! DEFINITION. What counts as a safe run, in the terms statements use: the invariants that hold between
events (10_state.md R21, R31, R35, R37, R38; 40_demux.md R117; 60_exceptions.md R200, R201) and the absence
of the fatal fault (R201). -/

namespace Sys2Proof.Machine

/-- Every slot holds at most MAX_DEPTH Segments (10_state.md R21), and MAX_DEPTH is legal (R40). -/
abbrev DepthInv (s : State) : Prop :=
  1 ≤ s.cfg.maxDepth ∧ ∀ i : Fin 12, (slot s i).length ≤ s.cfg.maxDepth

/-- The mask is never all ones between events (10_state.md R37), and a bit is set exactly over a slot that
holds a Segment (R35, R38). -/
abbrev MaskInv (s : State) : Prop :=
  s.mask ≠ 0xFFF ∧ ∀ i : Fin 12, present s i = true ↔ slot s i ≠ []

/-- The working buffer is in canonical form, WB_LEN is in range (10_state.md R31, 40_demux.md R112) and
every byte below WB_LEN has a value (20_memory.md R55). -/
abbrev BufferInv (s : State) : Prop :=
  Memory.wf s.wb ∧ s.wbLen ≤ Config.wbCap ∧ ∀ a < s.wbLen, (readByte s.wb a).isSome = true

/-- MODE against WB_LEN, ENC and the marker (40_demux.md R117). -/
abbrev ModeInv (s : State) : Prop :=
  (s.mode = .idle → s.wbLen = 0) ∧
  (s.mode = .accum → s.cfg.enc = .b ∧ 13 ≤ s.wbLen ∧ ∀ k < Config.markerSize, readByte s.wb k = Config.marker[k]?)

/-- FAULT_CAUSE is 0x00 exactly outside FAULTED (10_state.md R41), and BAD_INDEX inside: EMPTY_SLOT is
unreachable (60_exceptions.md R191). -/
abbrev CauseInv (s : State) : Prop :=
  s.faultCause = if s.mode = .faulted then faultCode .badIndex else 0x00

/-- What holds between events. -/
structure Inv (s : State) : Prop where
  depth  : DepthInv s
  mask   : MaskInv s
  buffer : BufferInv s
  mode   : ModeInv s
  cause  : CauseInv s

/-- A state a claim may start from or end in: no fatal fault was raised (60_exceptions.md R201). -/
def NotFaulted (s : State) : Prop := s.mode ≠ .faulted ∧ s.faultCause = 0x00

end Sys2Proof.Machine
end

