-- ==== Sys2Proof/Certificates/Slice0/Obligations.lean ====
section
/-! DEFINITION. The statements for the provers. The helpers of the first part say the spec's outcomes on the
bytes of a datagram, without the working buffer's reads; a statement then says the machine answers them. -/

namespace Sys2Proof.Claims

open Sys2Proof.Machine

/-- `drop(cause)` with the code written out (60_exceptions.md R195). -/
def dropped (code : BitVec 8) (s : State) : State :=
  { s with outputs := s.outputs ++ [.diag code], wbLen := 0, mode := .idle }

/-- The state with the datagram `data` written at `addr`, WB_LEN behind it, and the receive time latched
(40_demux.md R101, R111). -/
def loaded (addr : Nat) (data : List Byte) (t : Time) (s : State) : State :=
  { s with wb := writeBytes s.wb addr data, wbLen := addr + data.length, wbTime := t }

/-- The buffer is released, then the decoder's answer acts (40_demux.md R106). -/
def decodedOutcome (answer : DecodeAnswer) (s : State) : State :=
  match answer with
  | .fail => { s with wbLen := 0, mode := .idle, outputs := s.outputs ++ [.diag 0x05] }
  | .seg g => segmentPush g { s with wbLen := 0, mode := .idle }

/-- The exact-length tests, the CRC test and the decoder on a message of `total` bytes whose CRC region is
`region` and whose trailing CRC is `wire` (40_demux.md R103, R105, R106). -/
def exactOutcome (o : Oracles) (total : Nat) (region : List Byte) (wire : Word) (s : State) : State :=
  if s.wbLen < total then dropped 0x02 s
  else if total < s.wbLen then dropped 0x03 s
  else if crc32 region = wire then decodedOutcome (o.decode region s.wbTime) s
  else dropped 0x04 s

/-- The length field of a message of encoding A (30_encoding.md R75). -/
def plenOf (bytes : List Byte) : Nat := leValue ((bytes.drop 4).take 4)

/-- The CRC region of a message of encoding A, its payload (20_memory.md R56, 40_demux.md R103). -/
def regionA (bytes : List Byte) : List Byte := (bytes.drop 8).take (plenOf bytes)

/-- The trailing CRC behind the `n` bytes up to it (30_encoding.md R77). -/
def trailingCrc (n : Nat) (bytes : List Byte) : Word := le32 ((bytes.drop n).take 4)

/-- Encoding A on the bytes gathered (40_demux.md R103, 20_memory.md R56). -/
def outcomeA (o : Oracles) (bytes : List Byte) (s : State) : State :=
  exactOutcome o (12 + plenOf bytes) (regionA bytes) (trailingCrc (8 + plenOf bytes) bytes) s

/-- Encoding B on the bytes gathered (40_demux.md R105, 20_memory.md R56). -/
def outcomeB (o : Oracles) (bytes : List Byte) (s : State) : State :=
  match o.probe bytes with
  | .ok n => exactOutcome o (n.toNat + 4) (bytes.take n.toNat) (trailingCrc n.toNat bytes) s
  | .need r =>
    if 1048576 < r.toNat then dropped 0x06 { s with outputs := s.outputs ++ [.diag 0x10] }
    else { s with mode := .accum }

/-- The head check on a datagram, with `accepted` the outcome of one that passes (40_demux.md R101). -/
def headOutcome (data : List Byte) (s accepted : State) : State :=
  if data.length < 4 ∨ data.take 4 ≠ [0x02, 0x02, 0x02, 0x02] then dropped 0x01 s
  else if data.length ≤ 12 then dropped 0x02 s
  else accepted

/-- A chunk behind the bytes `old` already gathered (40_demux.md R111, R112). -/
def chunkOutcome (o : Oracles) (old data : List Byte) (t : Time) (s : State) : State :=
  if 1114111 < s.wbLen + data.length then dropped 0x03 s
  else outcomeB o (old ++ data) (loaded s.wbLen data t s)

/-- The state after a valid inertial sample is forwarded (43_assembler.md R151). -/
def forwarded (g : Segment) (s : State) : State :=
  if g.imu.valid then
    { s with
      outputs := s.outputs ++
        [.imu { ts := g.tSec ++ g.tNsec, angvel := g.imu.angvel, accel := g.imu.accel, quat := g.imu.quat }] }
  else s

/-- The state after `g` is pushed on slot `i` (43_assembler.md R152): at most MAX_DEPTH Segments, the newest
first, and bit `i` set. -/
def pushed (i : Fin 12) (g : Segment) (s : State) : State :=
  { s with
    slots := s.slots.set i.val ((g :: s.slots[i.val]).take s.cfg.maxDepth)
    mask := s.mask ||| BitVec.twoPow 12 i.val }

/-- `f` is the FRAME of the twelve front Segments `fs` under a layout (44_frame_release.md R165, R167, R168,
R171). -/
def IsFrameOf (l : Layout) (fs : List Segment) (f : Frame) : Prop :=
  (∀ g ∈ fs, f.ts ≤ captureTime g) ∧ (∃ g ∈ fs, f.ts = captureTime g) ∧
  f.data = fs.flatMap (fun g => g.groups.flatMap fun grp => grp.flatMap fun line => line.flatMap (serialize l)) ∧
  f.npoints = (fs.map fun g => (g.groups.map fun grp => (grp.map List.length).sum).sum).sum ∧
  f.stride = strideOf l ∧ f.layout = l ∧ f.rows = 1

/-- Bit `k` of a datagram (bit `k % 8` of byte `k / 8`) flipped. -/
def flipBit (bs : List Byte) (k : Nat) : List Byte :=
  bs.modify (k / 8) fun b => b ^^^ BitVec.twoPow 8 (k % 8)

/-- A whole message of encoding A with a correct trailing CRC (20_memory.md R56). -/
def validMessageA (payload : List Byte) : List Byte :=
  Config.marker ++ le32Bytes (BitVec.ofNat 32 payload.length) ++ payload ++ le32Bytes (crc32 payload)

/-- A Segment the assembler stores: index in 0..11, at least one point group. -/
def Storable (g : Segment) : Prop := g.index.toNat < 12 ∧ g.groups ≠ []

/-- The CRC of the region was accepted, and the decoder answered a Segment whose index is above 11 for it
(40_demux.md R106, 42_decoder_contract.md R143). -/
def AnsweredBadIndex (o : Oracles) (region : List Byte) (wire : Word) (t : Time) : Prop :=
  crc32 region = wire ∧ ∃ g, o.decode region t = .seg g ∧ 11 < g.index.toNat

/-- The number of FRAME transactions in a trace. -/
def frameCount (os : List Output) : Nat := os.countP fun o => match o with | .frame _ => true | _ => false

/-- The number of IMU transactions in a trace. -/
def imuCount (os : List Output) : Nat := os.countP fun o => match o with | .imu _ => true | _ => false

/-- Two states that differ at most in bytes of WB at or above WB_LEN. -/
def SameUpToStaleBytes (s s' : State) : Prop :=
  s' = { s with wb := s'.wb } ∧ ∀ a < s.wbLen, readByte s'.wb a = readByte s.wb a

/-- The same relation on answers: equal stops, or next states related. -/
def SameAnswer : Result State → Result State → Prop
  | .next t, .next t' => SameUpToStaleBytes t t'
  | .fault r, .fault r' => r = r'
  | .refused r, .refused r' => r = r'
  | _, _ => False

/-- The address at which an operation stores its datagram, and how many bytes, as its meaning computes them:
a head at offset 0, a chunk at WB_LEN; every other operation but RST stores nothing. -/
def storedRange (i : Instr) (s : State) : Nat × Nat :=
  match i with
  | .rst _ => (0, 0)
  | .rxdZ _ => (0, 0)
  | .rxdHA data _ => (0, data.length)
  | .rxdHB data _ => (0, data.length)
  | .rxdCH data _ => (s.wbLen, data.length)
  | .ato => (0, 0)
  | .segp _ => (0, 0)
  | .crcv _ _ => (0, 0)
  | .imuf _ => (0, 0)
  | .frel => (0, 0)
  | .msgA plen body _ => (0, (messageABytes plen body).length)
  | .msgB rest _ => (if s.mode = .accum then s.wbLen else 0, (messageBBytes rest).length)

/-- The operation is RST. -/
def IsRst (i : Instr) : Prop := ∃ c, i = .rst c

/-- The four operations that write no state of the demultiplexer and no byte of WB. -/
def IsAssemblerOp (i : Instr) : Prop :=
  (∃ g, i = .segp g) ∨ (∃ g, i = .imuf g) ∨ i = .frel ∨ (∃ r w, i = .crcv r w)

/-- The operations of the demultiplexer: RXD in its four forms, ATO, and the two wire messages. -/
def IsDemuxOp (i : Instr) : Prop :=
  (∃ t, i = .rxdZ t) ∨ (∃ d t, i = .rxdHA d t) ∨ (∃ d t, i = .rxdHB d t) ∨ (∃ d t, i = .rxdCH d t) ∨
  i = .ato ∨ (∃ p b t, i = .msgA p b t) ∨ (∃ r t, i = .msgB r t)

end Sys2Proof.Claims

open Sys2Proof Sys2Proof.Machine Sys2Proof.Claims

/-! ### Stepping and decoding -/

/-- 00_scope.md R13, 10_state.md R32: a step consumes the first presented event and runs the operation it
selects under MODE and ENC. With no event presented nothing changes (the model's choice, log entry 6). A
transaction that decodes to none is refused by its name: a reserved event code as R81 of 30_encoding.md says,
an RXD whose data is not `len` bytes long by the model's choice (log entry 12). -/
def Obligations.StepRunsTheSelectedOperation : Prop :=
  ∀ s : State,
    (s.input = [] → step s = .next s) ∧
    ∀ e rest, s.input = e :: rest →
      (∀ i, decodeEvent s.mode s.cfg.enc e = .instr i → step s = exec i { s with input := rest }) ∧
      (∀ r, decodeEvent s.mode s.cfg.enc e = .rejected r → step s = .refused (refusalOf r))

/-- 30_encoding.md R70, R73, R79: event codes and message heads decode to the operations they stand for. What
operands the five table words of the first five clauses are given is the model's choice (log entries 10 and
14): zeros, MAX_DEPTH undriven, no datagram under the code 0x8, nine zero bytes behind the marker under
ENC = A. -/
def Obligations.WordsDecodeToTheirOperations : Prop :=
  decodeTableWord 8 0x1 = some (.rst StrapInputs.zero) ∧
  decodeTableWord 8 0x8 = some (.rxdZ 0) ∧
  decodeTableWord 8 0x9 = some .ato ∧
  decodeTableWord 8 0xC = some (.segp Segment.zero) ∧
  decodeTableWord 32 0x02020202 = some (.msgA 0 [0, 0, 0, 0, 0] 0) ∧
  decodeEvent .idle .a (rxdEvent [0x41] 7) = .instr (.rxdHA [0x41] 7) ∧
  decodeEvent .idle .b (rxdEvent [0x41] 7) = .instr (.rxdHB [0x41] 7) ∧
  decodeEvent .accum .b (rxdEvent [0x41] 7) = .instr (.rxdCH [0x41] 7) ∧
  decodeMessage .a [2, 2, 2, 2, 1, 0, 0, 0, 0x41, 0x8B, 0x9E, 0xD9, 0xD3] 7 =
    .instr (.msgA 1 [0x41, 0x8B, 0x9E, 0xD9, 0xD3] 7) ∧
  decodeMessage .b [2, 2, 2, 2, 1, 0, 0, 0, 0x41, 0x8B, 0x9E, 0xD9, 0xD3] 7 =
    .instr (.msgB [1, 0, 0, 0, 0x41, 0x8B, 0x9E, 0xD9, 0xD3] 7)

/-- 30_encoding.md R81: every other event code is refused, in every MODE. -/
def Obligations.ReservedEventCodesAreRefused : Prop :=
  ∀ (s : State) (e : Event) (rest : List Event), s.input = e :: rest →
    e.ev ≠ 0x1 → e.ev ≠ 0x8 → e.ev ≠ 0x9 → e.ev ≠ 0xC →
    step s = .refused (.reservedEventCode e.ev)

/-- 30_encoding.md R79, R84: the code selects RST and ATO in every MODE and SEGP in IDLE and ACCUM, under both
encodings; MODE, ENC and `len` select the form of an RXD. What SEGP and RXD transactions are read as in FAULTED,
where the rules ignore them, is the model's choice (log entry 18). Fields that are not the code's own are
ignored. -/
def Obligations.CodeModeEncAndLengthSelectTheOperation : Prop :=
  ∀ (e : Event) (mode : Mode) (enc : Enc),
    (e.ev = 0x1 → decodeEvent mode enc e = .instr (.rst e.cfg)) ∧
    (e.ev = 0x9 → decodeEvent mode enc e = .instr .ato) ∧
    (e.ev = 0xC → decodeEvent mode enc e = .instr (.segp e.seg)) ∧
    (e.ev = 0x8 → e.data.length = e.len.toNat →
      (e.len = 0 → decodeEvent mode enc e = .instr (.rxdZ e.t)) ∧
      (e.len ≠ 0 →
        decodeEvent .idle .a e = .instr (.rxdHA e.data e.t) ∧
        decodeEvent .idle .b e = .instr (.rxdHB e.data e.t) ∧
        decodeEvent .accum enc e = .instr (.rxdCH e.data e.t) ∧
        decodeEvent .faulted .a e = .instr (.rxdHA e.data e.t) ∧
        decodeEvent .faulted .b e = .instr (.rxdHB e.data e.t)))

/-- Decode and encode agree: the words of every well-formed operation that has words decode to it, in every MODE
and under every ENC that selects it. -/
def Obligations.DecodeOfEncodeIsTheOperation : Prop :=
  ∀ (i : Instr) (w : Words) (mode : Mode) (enc : Enc), i.wellFormed = true → encode i = some w →
    i.selectedBy mode enc = true → decodeWords mode enc i.receiveTime w = .instr i

/-- The other direction for wire messages: encoding the message a datagram decodes to gives the datagram
back, byte for byte. -/
def Obligations.EncodeOfDecodedDatagramIsTheDatagram : Prop :=
  ∀ (enc : Enc) (data : List Byte) (t : Time) (i : Instr),
    decodeMessage enc data t = .instr i → encode i = some (.datagram data)

/-! ### RST -/

/-- 45_control.md R185, 10_state.md R40 (treatments U7, U8, U17 of 93_implementation_defined.md): RST in any
state, with any legal configuration; an illegal one, or one with ENC or a LAYOUT strap undriven, is refused.
The contents of WB and WB_TIME after it are unspecified, and nothing is claimed of them. The `outputs` clause
says that nothing is emitted. Three clauses speak of the model's own fields by the model's choice: the presented
events stay (`input`, log entry 6), the trace stays (`outputs`, log entry 7), and an RST has now been applied
(`started`, log entry 5). -/
def Obligations.RstGivesTheResetState : Prop :=
  (∀ (s : State) (c : StrapInputs), c.legal = false → ∃ r, exec (.rst c) s = .refused r) ∧
  ∀ (s : State) (enc : BitVec 1) (depth : Option Nat) (level : BitVec 3) (ts refl : BitVec 1)
    (hl : level.toNat < 5), depth ≠ some 0 →
    ∃ u, exec (.rst { enc := some enc, maxDepth := depth, level := some level, ts := some ts, refl := some refl }) s
        = .next u ∧
      u.cfg = { enc := if enc = 0 then .a else .b
                maxDepth := depth.getD 3
                layout := { level := ⟨level.toNat, hl⟩, ts := decide (ts = 1), refl := decide (refl = 1) } } ∧
      (∀ i, slot u i = []) ∧ u.mask = 0x000 ∧ u.mode = .idle ∧ u.wbLen = 0 ∧ u.faultCause = 0x00 ∧
      u.outputs = s.outputs ∧ u.input = s.input ∧ u.started = true

/-- 10_state.md R40 (treatments U7, U8, U17 of 93_implementation_defined.md): RST with MAX_DEPTH = 0, with
LEVEL in 5..7, or with ENC or a LAYOUT strap undriven is refused, in every state. -/
def Obligations.IllegalStrapsAreRefused : Prop :=
  ∀ (s : State) (c : StrapInputs),
    (c.enc = none ∨ c.level = none ∨ c.ts = none ∨ c.refl = none →
      exec (.rst c) s = .refused .undrivenStrap) ∧
    (c.enc.isSome → c.level.isSome → c.ts.isSome → c.refl.isSome →
      (c.maxDepth = some 0 → exec (.rst c) s = .refused .illegalDepth) ∧
      (c.maxDepth ≠ some 0 → (∃ l, c.level = some l ∧ 5 ≤ l.toNat) → exec (.rst c) s = .refused .illegalLevel))

/-- 10_state.md R48: the values the spec gives for the state after reset. -/
def Obligations.ResetStateHasTheSpecValues : Prop :=
  (∀ i, slot State.reset i = []) ∧ State.reset.mask = 0x000 ∧ State.reset.mode = .idle ∧
  State.reset.wbLen = 0 ∧ State.reset.faultCause = 0x00 ∧ State.reset.cfg.maxDepth = 3

/-- 70_reset_and_hazards.md R221: before the first RST no operation but RST has a meaning. -/
def Obligations.NoBehaviourBeforeTheFirstRst : Prop :=
  ∀ (s : State) (i : Instr), s.started = false → ¬ IsRst i → exec i s = .refused .beforeReset

/-- 45_control.md R186, 10_state.md R40: no operation but RST changes the configuration. -/
def Obligations.OnlyRstChangesTheConfiguration : Prop :=
  ∀ (s u : State) (i : Instr), ¬ IsRst i → exec i s = .next u → u.cfg = s.cfg

/-! ### The demultiplexer -/

/-- 40_demux.md R100: in every MODE the zero-length datagram changes nothing. -/
def Obligations.ZeroLengthDatagramChangesNothing : Prop :=
  ∀ (s : State) (t : Time), s.started = true → exec (.rxdZ t) s = .next s

/-- 40_demux.md R101: the marker test first, then the length test, in both encodings; the state is the one
before the datagram but for the DIAG, the released buffer and MODE = IDLE. -/
def Obligations.BadHeadsAreDroppedByCause : Prop :=
  ∀ (s : State) (data : List Byte) (t : Time), s.started = true → s.mode = .idle →
    1 ≤ data.length → data.length ≤ 65535 →
    let i : Instr := match s.cfg.enc with | .a => .rxdHA data t | .b => .rxdHB data t
    (data.length < 4 ∨ data.take 4 ≠ [2, 2, 2, 2] → exec i s = .next (dropped 0x01 s)) ∧
    (4 ≤ data.length ∧ data.take 4 = [2, 2, 2, 2] ∧ data.length ≤ 12 → exec i s = .next (dropped 0x02 s))

/-- 40_demux.md R101, R103, R106, for every decoder and for the one attached: RXD.HA answers the outcome
computed on the datagram's bytes. -/
def Obligations.HeadOfEncodingACompletes : Prop :=
  ∀ (s : State) (data : List Byte) (t : Time), s.started = true → s.mode = .idle → s.cfg.enc = .a →
    1 ≤ data.length → data.length ≤ 65535 →
    (∀ o, receiveHeadA o data t s = .next (headOutcome data s (outcomeA o data (loaded 0 data t s)))) ∧
    exec (.rxdHA data t) s =
      .next (headOutcome data s (outcomeA Config.oracles data (loaded 0 data t s)))

/-- 40_demux.md R101, R104, R105, R106, for every decoder and for the one attached: RXD.HB answers the
outcome computed on the datagram's bytes. -/
def Obligations.HeadOfEncodingBCompletes : Prop :=
  ∀ (s : State) (data : List Byte) (t : Time), s.started = true → s.mode = .idle → s.cfg.enc = .b →
    1 ≤ data.length → data.length ≤ 65535 →
    (∀ o, receiveHeadB o data t s = .next (headOutcome data s (outcomeB o data (loaded 0 data t s)))) ∧
    exec (.rxdHB data t) s =
      .next (headOutcome data s (outcomeB Config.oracles data (loaded 0 data t s)))

/-- 40_demux.md R111, R112, R105, R106, for every decoder and for the one attached: RXD.CH appends the whole
datagram behind the bytes gathered, or drops the message, and probes what is then in the buffer. -/
def Obligations.ChunkCompletes : Prop :=
  ∀ (s : State) (old data : List Byte) (t : Time), s.started = true → s.mode = .accum →
    1 ≤ data.length → data.length ≤ 65535 → readBytes s.wb 0 s.wbLen = .next old →
    (∀ o, receiveChunk o data t s = .next (chunkOutcome o old data t s)) ∧
    exec (.rxdCH data t) s = .next (chunkOutcome Config.oracles old data t s)

/-- 40_demux.md R115: ATO emits PROBE_DIAG and drops with ACC_TIMEOUT in ACCUM, and does nothing in IDLE. -/
def Obligations.TimeoutDropsOnlyAMessageInProgress : Prop :=
  ∀ s : State, s.started = true →
    (s.mode = .accum →
      exec .ato s = .next { s with outputs := s.outputs ++ [.diag 0x10, .diag 0x07], wbLen := 0, mode := .idle }) ∧
    (s.mode = .idle → exec .ato s = .next s)

/-- 30_encoding.md R73, R75, 40_demux.md R103: a message of encoding A that arrives whole is its head datagram.
That MSG.A is an operation of its own, a whole datagram received in IDLE with the receive time of the RXD that
carries it, is the model's choice (log entry 12). -/
def Obligations.MessageAIsItsHeadDatagram : Prop :=
  ∀ (s : State) (plen : Word) (body : List Byte) (t : Time), s.started = true → s.mode = .idle →
    s.cfg.enc = .a → 12 < 8 + body.length → 8 + body.length ≤ 65535 →
    exec (.msgA plen body t) s = exec (.rxdHA (messageABytes plen body) t) s ∧
    exec (.msgA plen body t) s =
      .next (exactOutcome Config.oracles (12 + plen.toNat) (body.take plen.toNat)
        (le32 ((body.drop plen.toNat).take 4)) (loaded 0 (messageABytes plen body) t s))

/-- 30_encoding.md R73, 40_demux.md R104, R111, 70_reset_and_hazards.md R227: a datagram of encoding B is a
head in IDLE; in ACCUM it is a chunk although it begins with the marker. That MSG.B is an operation of its own,
a head in IDLE and a chunk in ACCUM with the receive time of the RXD that carries it, is the model's choice
(log entry 12). -/
def Obligations.MessageBIsItsDatagram : Prop :=
  ∀ (s : State) (rest : List Byte) (t : Time), s.started = true →
    12 < 4 + rest.length → 4 + rest.length ≤ 65535 →
    (s.mode = .idle → s.cfg.enc = .b →
      exec (.msgB rest t) s = exec (.rxdHB (messageBBytes rest) t) s ∧
      exec (.msgB rest t) s =
        .next (outcomeB Config.oracles (messageBBytes rest) (loaded 0 (messageBBytes rest) t s))) ∧
    (s.mode = .accum →
      exec (.msgB rest t) s = exec (.rxdCH (messageBBytes rest) t) s ∧
      ∀ old, readBytes s.wb 0 s.wbLen = .next old →
        exec (.msgB rest t) s = .next (chunkOutcome Config.oracles old (messageBBytes rest) t s))

/-- 30_encoding.md R79 (the refusal is the model's choice, log entry 12): an RXD form run where MODE or ENC
does not select it is refused by name; `step` never runs one so. -/
def Obligations.UnselectedFormsAreRefusedAndNeverStepped : Prop :=
  (∀ (s : State) (data : List Byte) (t : Time), s.started = true → s.mode ≠ .faulted →
    (s.mode = .accum ∨ s.cfg.enc = .b → exec (.rxdHA data t) s = .refused .notSelected) ∧
    (s.mode = .accum ∨ s.cfg.enc = .a → exec (.rxdHB data t) s = .refused .notSelected) ∧
    (s.mode = .idle → exec (.rxdCH data t) s = .refused .notSelected)) ∧
  ∀ s : State, step s ≠ .refused .notSelected

/-- 40_demux.md R106: a message whose CRC is rejected gives the same state whatever the decoder would have
answered: the decoder is not called. -/
def Obligations.RejectedCrcNeverReachesTheDecoder : Prop :=
  ∀ (o : Oracles) (region : List Byte) (wire : Word) (s : State), crc32 region ≠ wire →
    finishMessage o region wire s = dropped 0x04 s

/-- 40_demux.md R118, first half: a whole message of encoding A with a correct CRC is accepted, and the
decoder is handed its payload and its receive time. -/
def Obligations.ValidMessageReachesTheDecoder : Prop :=
  ∀ (o : Oracles) (s : State) (payload : List Byte) (t : Time), s.started = true → s.mode = .idle →
    s.cfg.enc = .a → 1 ≤ payload.length → 12 + payload.length ≤ 65535 →
    receiveHeadA o (validMessageA payload) t s =
      .next (decodedOutcome (o.decode payload t) (loaded 0 (validMessageA payload) t s))

/-- 40_demux.md R118, second half: every single-bit corruption of such a message is dropped with one DIAG of
a head, length or CRC cause, the same for every decoder, so the decoder is not reached; no slot and no
presence bit changes. -/
def Obligations.SingleBitCorruptionNeverReachesTheDecoder : Prop :=
  ∀ (s : State) (payload : List Byte) (t : Time) (k : Nat), s.started = true → s.mode = .idle →
    s.cfg.enc = .a → 1 ≤ payload.length → 12 + payload.length ≤ 65535 → k < 8 * (12 + payload.length) →
    ∃ u, (∀ o, receiveHeadA o (flipBit (validMessageA payload) k) t s = .next u) ∧
      (if k < 32 then u.outputs = s.outputs ++ [.diag 0x01]
       else if k < 64 then u.outputs = s.outputs ++ [.diag 0x02] ∨ u.outputs = s.outputs ++ [.diag 0x03]
       else u.outputs = s.outputs ++ [.diag 0x04]) ∧
      u.slots = s.slots ∧ u.mask = s.mask ∧ u.mode = .idle ∧ u.wbLen = 0 ∧ u.faultCause = s.faultCause

/-- 40_demux.md R119: an RXD raises the fatal fault only where the decoder returned, for the CRC region of the
bytes gathered and after its CRC was accepted, a Segment that breaks its contract, and then with BAD_INDEX. -/
def Obligations.RxdFaultsOnlyOnABrokenContract : Prop :=
  ∀ (o : Oracles) (s u : State) (data : List Byte) (t : Time), Inv s → s.mode ≠ .faulted → u.mode = .faulted →
    (receiveHeadA o data t s = .next u →
      u.faultCause = 0x81 ∧
      AnsweredBadIndex o (regionA data) (trailingCrc (8 + plenOf data) data) t) ∧
    (receiveHeadB o data t s = .next u →
      u.faultCause = 0x81 ∧
      ∃ n, o.probe data = .ok n ∧ AnsweredBadIndex o (data.take n.toNat) (trailingCrc n.toNat data) t) ∧
    (receiveChunk o data t s = .next u →
      u.faultCause = 0x81 ∧
      ∃ old n, readBytes s.wb 0 s.wbLen = .next old ∧ o.probe (old ++ data) = .ok n ∧
        AnsweredBadIndex o ((old ++ data).take n.toNat) (trailingCrc n.toNat (old ++ data)) t)

/-- 46_operation_laws.md R242, the RXD rows: a head of encoding A ends with the buffer released, in IDLE or
FAULTED; a head of encoding B or a chunk may instead wait in ACCUM with all its bytes in the buffer. -/
def Obligations.RxdEndsIdleWaitingOrFaulted : Prop :=
  ∀ (o : Oracles) (s u : State) (data : List Byte) (t : Time), s.started = true →
    (s.mode = .idle → receiveHeadA o data t s = .next u →
      u.wbLen = 0 ∧ (u.mode = .idle ∨ u.mode = .faulted)) ∧
    (s.mode = .idle → receiveHeadB o data t s = .next u →
      (u.wbLen = 0 ∧ (u.mode = .idle ∨ u.mode = .faulted)) ∨ (u.wbLen = data.length ∧ u.mode = .accum)) ∧
    (s.mode = .accum → receiveChunk o data t s = .next u →
      (u.wbLen = 0 ∧ (u.mode = .idle ∨ u.mode = .faulted)) ∨
      (u.wbLen = s.wbLen + data.length ∧ u.mode = .accum))

/-- Frame of the demultiplexer's operations (RXD in four forms, ATO, MSG.A, MSG.B), 40_demux.md R117: the
configuration, the presented events and the model's own fields are unchanged, FAULT_CAUSE too unless the
fault is taken, and WB_TIME unless a datagram was accepted, which latches its receive time. The slots and the
mask are unchanged, or are what SEGP of a Segment the decoder answered makes of them; for which bytes it answered
it, the completion statements say. -/
def Obligations.DemuxFrame : Prop :=
  ∀ (s u : State) (i : Instr), IsDemuxOp i → exec i s = .next u →
    u.cfg = s.cfg ∧ u.started = s.started ∧ u.input = s.input ∧ u.crcVerdict = s.crcVerdict ∧
    u.draws = s.draws ∧ (u.mode ≠ .faulted → u.faultCause = s.faultCause) ∧
    (u.wbTime = s.wbTime ∨ u.wbTime = i.receiveTime) ∧
    ((u.slots = s.slots ∧ u.mask = s.mask) ∨
      ∃ region g, Config.oracles.decode region i.receiveTime = .seg g ∧
        u.slots = (segmentPush g s).slots ∧ u.mask = (segmentPush g s).mask)

/-- Frame of the working buffer, over every operation but RST: a byte outside the stored datagram reads as
before, in every form; ATO, RXD.Z, SEGP, IMUF, FREL and CRCV store nothing, so all of memory does. -/
def Obligations.MemoryOutsideTheDatagramIsUnchanged : Prop :=
  ∀ (s u : State) (i : Instr) (a : Nat), ¬ IsRst i → exec i s = .next u →
    (a < (storedRange i s).1 ∨ (storedRange i s).1 + (storedRange i s).2 ≤ a) →
    readByte u.wb a = readByte s.wb a

/-- 20_memory.md R57: bytes of WB at or above WB_LEN are never read: two states that differ only there are
answered alike by every operation but RST. -/
def Obligations.StaleBytesAreNeverRead : Prop :=
  ∀ (s s' : State) (i : Instr), ¬ IsRst i → SameUpToStaleBytes s s' → SameAnswer (exec i s) (exec i s')

/-! ### CRC -/

/-- 41_crc.md R132: the known values of the function and the check entries of the table. -/
def Obligations.CrcKnownValues : Prop :=
  crc32 [] = 0x00000000 ∧ crc32 [0x00] = 0xD202EF8D ∧ crc32 [0x41] = 0xD3D99E8B ∧
  crc32 [0x31, 0x32, 0x33, 0x34, 0x35, 0x36, 0x37, 0x38, 0x39] = 0xCBF43926 ∧
  crc32 [0, 0, 0, 0] = 0x2144DF1C ∧
  crcTable 0 = 0x00000000 ∧ crcTable 1 = 0x77073096 ∧ crcTable 2 = 0xEE0E612C ∧
  crcTable 128 = 0xEDB88320 ∧ crcTable 255 = 0x2D02EF8D

/-- 41_crc.md R132: the byte-at-a-time table form computes the same function. -/
def Obligations.CrcTableFormAgrees : Prop :=
  ∀ bs : List Byte, crc32 bs = bs.foldl crcTableByte 0xFFFFFFFF ^^^ 0xFFFFFFFF

/-- 41_crc.md R136: a region followed by its own CRC leaves the residue. -/
def Obligations.CrcResidue : Prop :=
  ∀ region : List Byte,
    crcAccumulate Config.crcInit (region ++ le32Bytes (crc32 region)) = 0xDEBB20E3 ∧
    crc32 (region ++ le32Bytes (crc32 region)) = 0x2144DF1C

/-- 41_crc.md R135: flipping one bit of the region, or of the trailing CRC, is rejected. -/
def Obligations.CrcDetectsSingleBitErrors : Prop :=
  ∀ (region : List Byte) (wire : Word), crcVerdictOf region wire = .accept →
    (∀ k < 8 * region.length, crcVerdictOf (flipBit region k) wire = .reject) ∧
    (∀ k < 32, crcVerdictOf region (wire ^^^ BitVec.twoPow 32 k) = .reject)

/-- 41_crc.md R133: CRCV compares all 32 bits and writes no state of the spec's; where its answer is kept is
the model's own field (log entry 8). -/
def Obligations.CrcvAnswersTheComparison : Prop :=
  ∀ (s : State) (region : List Byte) (wire : Word), s.started = true → s.mode ≠ .faulted →
    exec (.crcv region wire) s =
      .next { s with crcVerdict := some (if crc32 region = wire then .accept else .reject) }

/-! ### The assembler -/

/-- 43_assembler.md R150, 60_exceptions.md R191, R200: a Segment whose index is above 11 raises BAD_INDEX
before anything is forwarded or stored; everything but FAULT_CAUSE, MODE and the trace is kept. -/
def Obligations.SegpOutOfRangeRaisesBadIndex : Prop :=
  ∀ (s : State) (g : Segment), s.started = true → s.mode ≠ .faulted → 11 < g.index.toNat →
    exec (.segp g) s =
      .next { s with faultCause := 0x81, mode := .faulted, outputs := s.outputs ++ [.fault 0x81] }

/-- 43_assembler.md R150: a Segment without a point group touches no slot and no bit; a valid inertial sample
is still forwarded. -/
def Obligations.SegpWithoutGroupsStoresNothing : Prop :=
  ∀ (s : State) (g : Segment), s.started = true → s.mode ≠ .faulted → g.index.toNat ≤ 11 → g.groups = [] →
    exec (.segp g) s = .next (forwarded g s)

/-- 43_assembler.md R150, R152: a Segment with a point group goes to the front of its slot, the slot is cut
to MAX_DEPTH, its bit is set, and while the mask is not all ones nothing else happens. -/
def Obligations.SegpPushesOntoItsSlot : Prop :=
  ∀ (s : State) (g : Segment) (i : Fin 12), s.started = true → s.mode ≠ .faulted →
    g.index.toNat = i.val → g.groups ≠ [] → (s.mask ||| BitVec.twoPow 12 i.val) ≠ 0xFFF →
    exec (.segp g) s = .next (pushed i g (forwarded g s))

/-- 43_assembler.md R153, 44_frame_release.md R165 to R171, R176: the push that makes the mask all ones
releases the frame of the twelve fronts, after the inertial sample, and cuts: every slot empty, the mask
zero, everything else as before. -/
def Obligations.SegpOfTheLastBitReleasesTheFrame : Prop :=
  ∀ (s : State) (g : Segment) (i : Fin 12) (fs : List Segment), s.started = true → s.mode ≠ .faulted →
    g.index.toNat = i.val → g.groups ≠ [] → 1 ≤ s.cfg.maxDepth →
    (s.mask ||| BitVec.twoPow 12 i.val) = 0xFFF →
    fs.length = 12 → (∀ j : Fin 12, fs[j.val]? = if j = i then some g else (slot s j).head?) →
    ∃ f, IsFrameOf s.cfg.layout fs f ∧
      exec (.segp g) s =
        .next { s with
                slots := Vector.replicate 12 []
                mask := 0x000
                outputs := (forwarded g s).outputs ++ [.frame f] }

/-- 43_assembler.md R151: IMUF emits the ten patterns stamped with the capture time when the sample is valid,
and nothing otherwise; it changes nothing else. -/
def Obligations.ImufForwardsTheSample : Prop :=
  ∀ (s : State) (g : Segment), s.started = true → s.mode ≠ .faulted →
    (g.imu.valid = true →
      exec (.imuf g) s =
        .next { s with
                outputs := s.outputs ++
                  [.imu { ts := g.tSec ++ g.tNsec, angvel := g.imu.angvel, accel := g.imu.accel, quat := g.imu.quat }] }) ∧
    (g.imu.valid = false → exec (.imuf g) s = .next s)

/-- 43_assembler.md R156: after any pushes in any order that leave some index untouched, a slot that was
empty holds the newest MAX_DEPTH Segments pushed to it, newest first; its bit is set where there was one. -/
def Obligations.SlotKeepsTheNewestPushes : Prop :=
  ∀ (s : State) (gs : List Segment) (i j : Fin 12), (∀ g ∈ gs, Storable g) → present s j = false →
    (∀ g ∈ gs, g.index.toNat ≠ j.val) → slot s i = [] →
    let u := gs.foldl (fun u g => segmentPush g u) s
    let pushes := gs.filter fun g => g.index.toNat = i.val
    slot u i = pushes.reverse.take s.cfg.maxDepth ∧
    (slot u i).length = min pushes.length s.cfg.maxDepth ∧
    (pushes ≠ [] → present u i = true)

/-- 43_assembler.md R153 and the source's property L1-3: from an empty accumulator, pushes that do not touch
all twelve indices emit no FRAME and leave exactly the touched bits set, in whatever order they arrive; one
more push that touches the last missing index emits exactly one FRAME and empties the accumulator. -/
def Obligations.FrameFiresExactlyWhenAllTwelveAreTouched : Prop :=
  ∀ (s : State) (gs : List Segment), s.mask = 0 → (∀ i, slot s i = []) → 1 ≤ s.cfg.maxDepth →
    (∀ g ∈ gs, Storable g) → (∃ i : Fin 12, ∀ g ∈ gs, g.index.toNat ≠ i.val) →
    let u := gs.foldl (fun u g => segmentPush g u) s
    frameCount u.outputs = frameCount s.outputs ∧
    (∀ i : Fin 12, present u i = true ↔ ∃ g ∈ gs, g.index.toNat = i.val) ∧
    ∀ g, Storable g → (∀ i : Fin 12, g.index.toNat = i.val ∨ ∃ h ∈ gs, h.index.toNat = i.val) →
      frameCount (segmentPush g u).outputs = frameCount s.outputs + 1 ∧
      (segmentPush g u).mask = 0 ∧ ∀ i, slot (segmentPush g u) i = []

/-- Frame of SEGP, IMUF, FREL and CRCV: the working buffer, WB_LEN, WB_TIME, the configuration and the
presented events are unchanged; MODE and FAULT_CAUSE change only together, when the fault is taken; a slot
or a bit changes only by the push of its own index or with all twelve. -/
def Obligations.AssemblerFrame : Prop :=
  ∀ (s u : State) (i : Instr), IsAssemblerOp i → exec i s = .next u →
    u.wb = s.wb ∧ u.wbLen = s.wbLen ∧ u.wbTime = s.wbTime ∧ u.cfg = s.cfg ∧ u.started = s.started ∧
    u.input = s.input ∧ u.draws = s.draws ∧
    ((u.mode = s.mode ∧ u.faultCause = s.faultCause) ∨ u.mode = .faulted) ∧
    ((u.mask = 0 ∧ ∀ j, slot u j = []) ∨
      ∀ j : Fin 12, (∀ g, i = .segp g → g.index.toNat ≠ j.val) → slot u j = slot s j ∧ present u j = present s j)

/-! ### Frame release and the serializer -/

/-- 44_frame_release.md R165 to R171: FREL on twelve non-empty slots builds the frame of the fronts, empties
the slots, zeroes the mask and emits the frame, and nothing else changes; over an empty slot it raises
EMPTY_SLOT and emits no FRAME (60_exceptions.md R191, R200). -/
def Obligations.FrelReleasesTheFrontsOrRaisesEmptySlot : Prop :=
  ∀ s : State, s.started = true → s.mode ≠ .faulted →
    (∀ fs : List Segment, fs.length = 12 → (∀ j : Fin 12, (slot s j).head? = fs[j.val]?) →
      ∃ f, IsFrameOf s.cfg.layout fs f ∧
        exec .frel s =
          .next { s with
                  slots := Vector.replicate 12 []
                  mask := 0x000
                  outputs := s.outputs ++ [.frame f] }) ∧
    ((∃ j, slot s j = []) →
      exec .frel s =
        .next { s with faultCause := 0x82, mode := .faulted, outputs := s.outputs ++ [.fault 0x82] })

/-- 44_frame_release.md R167: the frame timestamp is the least capture time, in the unsigned order of the
64-bit value, and is one of them. -/
def Obligations.FrameTimeIsTheLeastCaptureTime : Prop :=
  ∀ fs : List Segment, fs ≠ [] →
    (∀ g ∈ fs, frameTime fs ≤ captureTime g) ∧ ∃ g ∈ fs, frameTime fs = captureTime g

/-- 44_frame_release.md R168, R171: the point count is the number of Points, and the data has that many
strides. -/
def Obligations.FrameCountsItsPoints : Prop :=
  ∀ (l : Layout) (fs : List Segment),
    (frameOf l fs).npoints = (fs.map fun g => (g.groups.map fun grp => (grp.map List.length).sum).sum).sum ∧
    (frameOf l fs).data.length = (frameOf l fs).npoints * (frameOf l fs).stride

/-- 44_frame_release.md R172, R173: a record is exactly the stride long, and where each of its fields stands, in
every layout that has the field, read back little-endian. -/
def Obligations.RecordFieldsStandAtTheirOffsets : Prop :=
  ∀ (l : Layout) (p : Point),
    let base := [12, 16, 20, 28, 40].getD l.level.val 0
    let word := fun off => le32 (((serialize l p).drop off).take 4)
    (serialize l p).length = base + (if l.ts then 8 else 0) + (if l.refl then 4 else 0) ∧
    word 0 = p.x ∧ word 4 = p.y ∧ word 8 = p.z ∧
    (1 ≤ l.level.val → word 12 = p.intensity) ∧
    (2 ≤ l.level.val → word 16 = p.range) ∧
    (3 ≤ l.level.val → word 20 = p.azimuth ∧ word 24 = p.elevation) ∧
    (4 ≤ l.level.val → word 28 = p.layer ∧ word 32 = p.echo ∧ word 36 = p.index) ∧
    (l.ts = true → leValue (((serialize l p).drop base).take 8) = p.lts.toNat) ∧
    (l.refl = true → word (base + if l.ts then 8 else 0) = p.reflectivity)

/-- 44_frame_release.md R174: the strides of the twenty layouts. -/
def Obligations.StridesOfAllLayouts : Prop :=
  ∀ level : Fin 5,
    strideOf ⟨level, false, false⟩ = [12, 16, 20, 28, 40].getD level.val 0 ∧
    strideOf ⟨level, true, false⟩ = [20, 24, 28, 36, 48].getD level.val 0 ∧
    strideOf ⟨level, false, true⟩ = [16, 20, 24, 32, 44].getD level.val 0 ∧
    strideOf ⟨level, true, true⟩ = [24, 28, 32, 40, 52].getD level.val 0

/-! ### Memory -/

/-- 20_memory.md R54, R55: a write inside the buffer keeps the canonical form, reads back whole, and leaves
every other byte as it was. -/
def Obligations.WrittenBytesReadBackAndNothingElseChanges : Prop :=
  ∀ (m : Memory) (a : Nat) (bs : List Byte), Memory.wf m → a + bs.length ≤ Config.wbCap →
    Memory.wf (writeBytes m a bs) ∧ readBytes (writeBytes m a bs) a bs.length = .next bs ∧
    ∀ x, (x < a ∨ a + bs.length ≤ x) → readByte (writeBytes m a bs) x = readByte m x

/-- Canonical memories that read alike are equal: the list is determined by what it reads as. -/
def Obligations.CanonicalMemoriesThatReadAlikeAreEqual : Prop :=
  ∀ m m' : Memory, Memory.wf m → Memory.wf m' → (∀ a, readByte m a = readByte m' a) → m = m'

/-- 00_scope.md R12, 20_memory.md R51, 44_frame_release.md R173: `le32` of four bytes is their little-endian
value, and it undoes the little-endian bytes of a word. -/
def Obligations.LittleEndianWords : Prop :=
  (∀ b0 b1 b2 b3 : Byte,
    (le32 [b0, b1, b2, b3]).toNat =
      b0.toNat + 2 ^ 8 * b1.toNat + 2 ^ 16 * b2.toNat + 2 ^ 24 * b3.toNat) ∧
  ∀ v : Word, le32Bytes v =
      [v.extractLsb' 0 8, v.extractLsb' 8 8, v.extractLsb' 16 8, v.extractLsb' 24 8] ∧
    le32 (le32Bytes v) = v

/-- 20_memory.md R55 (treatment U16 of 93_implementation_defined.md): a read that leaves [0, WB_LEN) is
refused. -/
def Obligations.ReadsOutsideTheMessageAreRefused : Prop :=
  ∀ (s : State) (addr n : Nat), s.wbLen < addr + n → memRead addr n s = .refused .readOutsideBuffer

/-! ### The whole machine -/

/-- The state after reset meets the invariant and is not faulted. -/
def Obligations.ResetMeetsTheInvariant : Prop := Inv State.reset ∧ NotFaulted State.reset

/-- Every step keeps the invariant: the depth bound (10_state.md R21), a mask that is never all ones and
whose bits stand exactly over non-empty slots (R35, R37, R38), WB_LEN in range over written bytes in
canonical form (R31), MODE against WB_LEN, ENC and marker (40_demux.md R117), FAULT_CAUSE (R41). -/
def Obligations.StepKeepsTheInvariant : Prop :=
  ∀ s u : State, Inv s → step s = .next u → Inv u

/-- 00_scope.md R13: in a state that meets the invariant, every event with a legal code, operands of the
format's shape and, for an RST, a legal configuration is answered by a next state: no fault, no refusal. -/
def Obligations.StepAnswersEveryEvent : Prop :=
  ∀ (s : State) (e : Event) (rest : List Event), Inv s → s.input = e :: rest →
    (e.ev = 0x1 ∧ e.cfg.legal = true) ∨
      (s.started = true ∧ (e.ev = 0x9 ∨ e.ev = 0xC ∨ (e.ev = 0x8 ∧ e.data.length = e.len.toNat))) →
    ∃ u, step s = .next u

/-- 10_state.md R38, 44_frame_release.md R166: EMPTY_SLOT is unreachable: from a state that meets the
invariant no step emits FAULT(0x82) or leaves it in FAULT_CAUSE. -/
def Obligations.EmptySlotIsUnreachable : Prop :=
  ∀ s u : State, Inv s → step s = .next u →
    u.faultCause ≠ 0x82 ∧
    (Output.fault 0x82 ∈ u.outputs → Output.fault 0x82 ∈ s.outputs)

/-- 60_exceptions.md R201: in FAULTED every event but RST is consumed without any change and without output: a
step loses nothing but the event. That the first clause speaks of every operation is the model's choice: the
internal ones run on their own (log entry 8), the wire messages and the RXD forms that MODE or ENC does not
select (log entry 12) are ignored there too. -/
def Obligations.FaultedIsSticky : Prop :=
  ∀ s : State, s.started = true → s.mode = .faulted →
    (∀ i, ¬ IsRst i → exec i s = .next s) ∧
    ∀ e rest i, s.input = e :: rest → decodeEvent s.mode s.cfg.enc e = .instr i → ¬ IsRst i →
      step s = .next { s with input := rest }

/-- 20_memory.md R60, 46_operation_laws.md R243: outputs are only appended, and one operation emits at most
one IMU and at most one FRAME. -/
def Obligations.OutputsAreOnlyAppended : Prop :=
  ∀ (s u : State) (i : Instr), exec i s = .next u →
    ∃ os, u.outputs = s.outputs ++ os ∧ imuCount os ≤ 1 ∧ frameCount os ≤ 1

/-- 10_state.md R36: no operation clears a single presence bit: after any operation either every bit that
was set still is, or the mask is zero. -/
def Obligations.PresenceBitsAreClearedOnlyTogether : Prop :=
  ∀ (s u : State) (i : Instr), exec i s = .next u →
    u.mask = 0 ∨ ∀ j : Fin 12, present s j = true → present u j = true

/-- 10_state.md R41, 60_exceptions.md R200, R201: FAULT_CAUSE is written only by the fatal fault, which also
sets MODE = FAULTED and emits FAULT with the same cause last, and by RST. -/
def Obligations.FaultCauseIsWrittenOnlyByTheFault : Prop :=
  ∀ (s u : State) (i : Instr), ¬ IsRst i → exec i s = .next u → s.mode ≠ .faulted →
    (u.mode ≠ .faulted → u.faultCause = s.faultCause) ∧
    (u.mode = .faulted →
      (u.faultCause = 0x81 ∨ u.faultCause = 0x82) ∧ u.outputs.getLast? = some (.fault u.faultCause))

/-- 00_scope.md R10 and the example of 44_frame_release.md R165: twelve front Segments of 900 Points each under
LEVEL 1 without timestamp and reflectivity. The push that completes the mask releases one FRAME of 10,800
points, 16 bytes each, in one row. -/
def Obligations.EndToEndExampleReleasesItsFrame : Prop :=
  ∀ (s : State) (g : Segment) (i : Fin 12) (fs : List Segment), s.started = true → s.mode ≠ .faulted →
    s.cfg.layout = ⟨1, false, false⟩ → 1 ≤ s.cfg.maxDepth →
    g.index.toNat = i.val → g.groups ≠ [] → (s.mask ||| BitVec.twoPow 12 i.val) = 0xFFF →
    fs.length = 12 → (∀ j : Fin 12, fs[j.val]? = if j = i then some g else (slot s j).head?) →
    (∀ h ∈ fs, (pointsOf h).length = Config.examplePointsPerSegment) →
    ∃ f, (∃ u, exec (.segp g) s = .next u ∧ u.outputs = (forwarded g s).outputs ++ [.frame f]) ∧
      f.npoints = Config.examplePoints ∧ f.stride = Config.exampleStride ∧ f.data.length = 172800 ∧ f.rows = 1
end

