-- ==== Sys2Proof/Laws/State.lean ====
section
/-! SUPPORT. What each update of the state does to each field, true by unfolding, so that no later proof
unfolds a record update. -/

namespace Sys2Proof.Machine

/-! ### setMode -/

@[simp] theorem setMode_slots (m : Mode) (s : State) : (setMode m s).slots = s.slots := rfl
@[simp] theorem setMode_mask (m : Mode) (s : State) : (setMode m s).mask = s.mask := rfl
@[simp] theorem setMode_mode (m : Mode) (s : State) : (setMode m s).mode = m := rfl
@[simp] theorem setMode_wb (m : Mode) (s : State) : (setMode m s).wb = s.wb := rfl
@[simp] theorem setMode_wbLen (m : Mode) (s : State) : (setMode m s).wbLen = s.wbLen := rfl
@[simp] theorem setMode_wbTime (m : Mode) (s : State) : (setMode m s).wbTime = s.wbTime := rfl
@[simp] theorem setMode_faultCause (m : Mode) (s : State) : (setMode m s).faultCause = s.faultCause := rfl
@[simp] theorem setMode_cfg (m : Mode) (s : State) : (setMode m s).cfg = s.cfg := rfl
@[simp] theorem setMode_started (m : Mode) (s : State) : (setMode m s).started = s.started := rfl
@[simp] theorem setMode_input (m : Mode) (s : State) : (setMode m s).input = s.input := rfl
@[simp] theorem setMode_outputs (m : Mode) (s : State) : (setMode m s).outputs = s.outputs := rfl
@[simp] theorem setMode_crcVerdict (m : Mode) (s : State) : (setMode m s).crcVerdict = s.crcVerdict := rfl
@[simp] theorem setMode_draws (m : Mode) (s : State) : (setMode m s).draws = s.draws := rfl

/-! ### releaseBuffer -/

@[simp] theorem releaseBuffer_slots (s : State) : (releaseBuffer s).slots = s.slots := rfl
@[simp] theorem releaseBuffer_mask (s : State) : (releaseBuffer s).mask = s.mask := rfl
@[simp] theorem releaseBuffer_mode (s : State) : (releaseBuffer s).mode = .idle := rfl
@[simp] theorem releaseBuffer_wb (s : State) : (releaseBuffer s).wb = s.wb := rfl
@[simp] theorem releaseBuffer_wbLen (s : State) : (releaseBuffer s).wbLen = 0 := rfl
@[simp] theorem releaseBuffer_wbTime (s : State) : (releaseBuffer s).wbTime = s.wbTime := rfl
@[simp] theorem releaseBuffer_faultCause (s : State) : (releaseBuffer s).faultCause = s.faultCause := rfl
@[simp] theorem releaseBuffer_cfg (s : State) : (releaseBuffer s).cfg = s.cfg := rfl
@[simp] theorem releaseBuffer_started (s : State) : (releaseBuffer s).started = s.started := rfl
@[simp] theorem releaseBuffer_input (s : State) : (releaseBuffer s).input = s.input := rfl
@[simp] theorem releaseBuffer_outputs (s : State) : (releaseBuffer s).outputs = s.outputs := rfl
@[simp] theorem releaseBuffer_crcVerdict (s : State) : (releaseBuffer s).crcVerdict = s.crcVerdict := rfl
@[simp] theorem releaseBuffer_draws (s : State) : (releaseBuffer s).draws = s.draws := rfl

/-! ### emit -/

@[simp] theorem emit_slots (o : Output) (s : State) : (emit o s).slots = s.slots := rfl
@[simp] theorem emit_mask (o : Output) (s : State) : (emit o s).mask = s.mask := rfl
@[simp] theorem emit_mode (o : Output) (s : State) : (emit o s).mode = s.mode := rfl
@[simp] theorem emit_wb (o : Output) (s : State) : (emit o s).wb = s.wb := rfl
@[simp] theorem emit_wbLen (o : Output) (s : State) : (emit o s).wbLen = s.wbLen := rfl
@[simp] theorem emit_wbTime (o : Output) (s : State) : (emit o s).wbTime = s.wbTime := rfl
@[simp] theorem emit_faultCause (o : Output) (s : State) : (emit o s).faultCause = s.faultCause := rfl
@[simp] theorem emit_cfg (o : Output) (s : State) : (emit o s).cfg = s.cfg := rfl
@[simp] theorem emit_started (o : Output) (s : State) : (emit o s).started = s.started := rfl
@[simp] theorem emit_input (o : Output) (s : State) : (emit o s).input = s.input := rfl
@[simp] theorem emit_outputs (o : Output) (s : State) : (emit o s).outputs = s.outputs ++ [o] := rfl
@[simp] theorem emit_crcVerdict (o : Output) (s : State) : (emit o s).crcVerdict = s.crcVerdict := rfl
@[simp] theorem emit_draws (o : Output) (s : State) : (emit o s).draws = s.draws := rfl

/-! ### emitDiag -/

@[simp] theorem emitDiag_slots (c : DiagCause) (s : State) : (emitDiag c s).slots = s.slots := rfl
@[simp] theorem emitDiag_mask (c : DiagCause) (s : State) : (emitDiag c s).mask = s.mask := rfl
@[simp] theorem emitDiag_mode (c : DiagCause) (s : State) : (emitDiag c s).mode = s.mode := rfl
@[simp] theorem emitDiag_wb (c : DiagCause) (s : State) : (emitDiag c s).wb = s.wb := rfl
@[simp] theorem emitDiag_wbLen (c : DiagCause) (s : State) : (emitDiag c s).wbLen = s.wbLen := rfl
@[simp] theorem emitDiag_wbTime (c : DiagCause) (s : State) : (emitDiag c s).wbTime = s.wbTime := rfl
@[simp] theorem emitDiag_faultCause (c : DiagCause) (s : State) : (emitDiag c s).faultCause = s.faultCause := rfl
@[simp] theorem emitDiag_cfg (c : DiagCause) (s : State) : (emitDiag c s).cfg = s.cfg := rfl
@[simp] theorem emitDiag_started (c : DiagCause) (s : State) : (emitDiag c s).started = s.started := rfl
@[simp] theorem emitDiag_input (c : DiagCause) (s : State) : (emitDiag c s).input = s.input := rfl
@[simp] theorem emitDiag_outputs (c : DiagCause) (s : State) : (emitDiag c s).outputs = s.outputs ++ [.diag (diagCode c)] := rfl
@[simp] theorem emitDiag_crcVerdict (c : DiagCause) (s : State) : (emitDiag c s).crcVerdict = s.crcVerdict := rfl
@[simp] theorem emitDiag_draws (c : DiagCause) (s : State) : (emitDiag c s).draws = s.draws := rfl

/-! ### drop -/

@[simp] theorem drop_slots (c : DiagCause) (s : State) : (drop c s).slots = s.slots := rfl
@[simp] theorem drop_mask (c : DiagCause) (s : State) : (drop c s).mask = s.mask := rfl
@[simp] theorem drop_mode (c : DiagCause) (s : State) : (drop c s).mode = .idle := rfl
@[simp] theorem drop_wb (c : DiagCause) (s : State) : (drop c s).wb = s.wb := rfl
@[simp] theorem drop_wbLen (c : DiagCause) (s : State) : (drop c s).wbLen = 0 := rfl
@[simp] theorem drop_wbTime (c : DiagCause) (s : State) : (drop c s).wbTime = s.wbTime := rfl
@[simp] theorem drop_faultCause (c : DiagCause) (s : State) : (drop c s).faultCause = s.faultCause := rfl
@[simp] theorem drop_cfg (c : DiagCause) (s : State) : (drop c s).cfg = s.cfg := rfl
@[simp] theorem drop_started (c : DiagCause) (s : State) : (drop c s).started = s.started := rfl
@[simp] theorem drop_input (c : DiagCause) (s : State) : (drop c s).input = s.input := rfl
@[simp] theorem drop_outputs (c : DiagCause) (s : State) : (drop c s).outputs = s.outputs ++ [.diag (diagCode c)] := rfl
@[simp] theorem drop_crcVerdict (c : DiagCause) (s : State) : (drop c s).crcVerdict = s.crcVerdict := rfl
@[simp] theorem drop_draws (c : DiagCause) (s : State) : (drop c s).draws = s.draws := rfl

/-! ### raiseFault -/

@[simp] theorem raiseFault_slots (c : FaultCause) (s : State) : (raiseFault c s).slots = s.slots := rfl
@[simp] theorem raiseFault_mask (c : FaultCause) (s : State) : (raiseFault c s).mask = s.mask := rfl
@[simp] theorem raiseFault_mode (c : FaultCause) (s : State) : (raiseFault c s).mode = .faulted := rfl
@[simp] theorem raiseFault_wb (c : FaultCause) (s : State) : (raiseFault c s).wb = s.wb := rfl
@[simp] theorem raiseFault_wbLen (c : FaultCause) (s : State) : (raiseFault c s).wbLen = s.wbLen := rfl
@[simp] theorem raiseFault_wbTime (c : FaultCause) (s : State) : (raiseFault c s).wbTime = s.wbTime := rfl
@[simp] theorem raiseFault_faultCause (c : FaultCause) (s : State) : (raiseFault c s).faultCause = faultCode c := rfl
@[simp] theorem raiseFault_cfg (c : FaultCause) (s : State) : (raiseFault c s).cfg = s.cfg := rfl
@[simp] theorem raiseFault_started (c : FaultCause) (s : State) : (raiseFault c s).started = s.started := rfl
@[simp] theorem raiseFault_input (c : FaultCause) (s : State) : (raiseFault c s).input = s.input := rfl
@[simp] theorem raiseFault_outputs (c : FaultCause) (s : State) : (raiseFault c s).outputs = s.outputs ++ [.fault (faultCode c)] := rfl
@[simp] theorem raiseFault_crcVerdict (c : FaultCause) (s : State) : (raiseFault c s).crcVerdict = s.crcVerdict := rfl
@[simp] theorem raiseFault_draws (c : FaultCause) (s : State) : (raiseFault c s).draws = s.draws := rfl

/-! ### setSlot -/

@[simp] theorem setSlot_slots (i : Fin 12) (q : List Segment) (s : State) : (setSlot i q s).slots = s.slots.set i.val q := rfl
@[simp] theorem setSlot_mask (i : Fin 12) (q : List Segment) (s : State) : (setSlot i q s).mask = s.mask := rfl
@[simp] theorem setSlot_mode (i : Fin 12) (q : List Segment) (s : State) : (setSlot i q s).mode = s.mode := rfl
@[simp] theorem setSlot_wb (i : Fin 12) (q : List Segment) (s : State) : (setSlot i q s).wb = s.wb := rfl
@[simp] theorem setSlot_wbLen (i : Fin 12) (q : List Segment) (s : State) : (setSlot i q s).wbLen = s.wbLen := rfl
@[simp] theorem setSlot_wbTime (i : Fin 12) (q : List Segment) (s : State) : (setSlot i q s).wbTime = s.wbTime := rfl
@[simp] theorem setSlot_faultCause (i : Fin 12) (q : List Segment) (s : State) : (setSlot i q s).faultCause = s.faultCause := rfl
@[simp] theorem setSlot_cfg (i : Fin 12) (q : List Segment) (s : State) : (setSlot i q s).cfg = s.cfg := rfl
@[simp] theorem setSlot_started (i : Fin 12) (q : List Segment) (s : State) : (setSlot i q s).started = s.started := rfl
@[simp] theorem setSlot_input (i : Fin 12) (q : List Segment) (s : State) : (setSlot i q s).input = s.input := rfl
@[simp] theorem setSlot_outputs (i : Fin 12) (q : List Segment) (s : State) : (setSlot i q s).outputs = s.outputs := rfl
@[simp] theorem setSlot_crcVerdict (i : Fin 12) (q : List Segment) (s : State) : (setSlot i q s).crcVerdict = s.crcVerdict := rfl
@[simp] theorem setSlot_draws (i : Fin 12) (q : List Segment) (s : State) : (setSlot i q s).draws = s.draws := rfl

/-! ### clearSlots -/

@[simp] theorem clearSlots_slots (s : State) : (clearSlots s).slots = Vector.replicate 12 [] := rfl
@[simp] theorem clearSlots_mask (s : State) : (clearSlots s).mask = s.mask := rfl
@[simp] theorem clearSlots_mode (s : State) : (clearSlots s).mode = s.mode := rfl
@[simp] theorem clearSlots_wb (s : State) : (clearSlots s).wb = s.wb := rfl
@[simp] theorem clearSlots_wbLen (s : State) : (clearSlots s).wbLen = s.wbLen := rfl
@[simp] theorem clearSlots_wbTime (s : State) : (clearSlots s).wbTime = s.wbTime := rfl
@[simp] theorem clearSlots_faultCause (s : State) : (clearSlots s).faultCause = s.faultCause := rfl
@[simp] theorem clearSlots_cfg (s : State) : (clearSlots s).cfg = s.cfg := rfl
@[simp] theorem clearSlots_started (s : State) : (clearSlots s).started = s.started := rfl
@[simp] theorem clearSlots_input (s : State) : (clearSlots s).input = s.input := rfl
@[simp] theorem clearSlots_outputs (s : State) : (clearSlots s).outputs = s.outputs := rfl
@[simp] theorem clearSlots_crcVerdict (s : State) : (clearSlots s).crcVerdict = s.crcVerdict := rfl
@[simp] theorem clearSlots_draws (s : State) : (clearSlots s).draws = s.draws := rfl

/-! ### setPresence -/

@[simp] theorem setPresence_slots (i : Fin 12) (s : State) : (setPresence i s).slots = s.slots := rfl
@[simp] theorem setPresence_mask (i : Fin 12) (s : State) : (setPresence i s).mask = s.mask ||| BitVec.twoPow 12 i.val := rfl
@[simp] theorem setPresence_mode (i : Fin 12) (s : State) : (setPresence i s).mode = s.mode := rfl
@[simp] theorem setPresence_wb (i : Fin 12) (s : State) : (setPresence i s).wb = s.wb := rfl
@[simp] theorem setPresence_wbLen (i : Fin 12) (s : State) : (setPresence i s).wbLen = s.wbLen := rfl
@[simp] theorem setPresence_wbTime (i : Fin 12) (s : State) : (setPresence i s).wbTime = s.wbTime := rfl
@[simp] theorem setPresence_faultCause (i : Fin 12) (s : State) : (setPresence i s).faultCause = s.faultCause := rfl
@[simp] theorem setPresence_cfg (i : Fin 12) (s : State) : (setPresence i s).cfg = s.cfg := rfl
@[simp] theorem setPresence_started (i : Fin 12) (s : State) : (setPresence i s).started = s.started := rfl
@[simp] theorem setPresence_input (i : Fin 12) (s : State) : (setPresence i s).input = s.input := rfl
@[simp] theorem setPresence_outputs (i : Fin 12) (s : State) : (setPresence i s).outputs = s.outputs := rfl
@[simp] theorem setPresence_crcVerdict (i : Fin 12) (s : State) : (setPresence i s).crcVerdict = s.crcVerdict := rfl
@[simp] theorem setPresence_draws (i : Fin 12) (s : State) : (setPresence i s).draws = s.draws := rfl

/-! ### clearMask -/

@[simp] theorem clearMask_slots (s : State) : (clearMask s).slots = s.slots := rfl
@[simp] theorem clearMask_mask (s : State) : (clearMask s).mask = 0 := rfl
@[simp] theorem clearMask_mode (s : State) : (clearMask s).mode = s.mode := rfl
@[simp] theorem clearMask_wb (s : State) : (clearMask s).wb = s.wb := rfl
@[simp] theorem clearMask_wbLen (s : State) : (clearMask s).wbLen = s.wbLen := rfl
@[simp] theorem clearMask_wbTime (s : State) : (clearMask s).wbTime = s.wbTime := rfl
@[simp] theorem clearMask_faultCause (s : State) : (clearMask s).faultCause = s.faultCause := rfl
@[simp] theorem clearMask_cfg (s : State) : (clearMask s).cfg = s.cfg := rfl
@[simp] theorem clearMask_started (s : State) : (clearMask s).started = s.started := rfl
@[simp] theorem clearMask_input (s : State) : (clearMask s).input = s.input := rfl
@[simp] theorem clearMask_outputs (s : State) : (clearMask s).outputs = s.outputs := rfl
@[simp] theorem clearMask_crcVerdict (s : State) : (clearMask s).crcVerdict = s.crcVerdict := rfl
@[simp] theorem clearMask_draws (s : State) : (clearMask s).draws = s.draws := rfl

/-! ### hardCut -/

@[simp] theorem hardCut_slots (s : State) : (hardCut s).slots = Vector.replicate 12 [] := rfl
@[simp] theorem hardCut_mask (s : State) : (hardCut s).mask = 0 := rfl
@[simp] theorem hardCut_mode (s : State) : (hardCut s).mode = s.mode := rfl
@[simp] theorem hardCut_wb (s : State) : (hardCut s).wb = s.wb := rfl
@[simp] theorem hardCut_wbLen (s : State) : (hardCut s).wbLen = s.wbLen := rfl
@[simp] theorem hardCut_wbTime (s : State) : (hardCut s).wbTime = s.wbTime := rfl
@[simp] theorem hardCut_faultCause (s : State) : (hardCut s).faultCause = s.faultCause := rfl
@[simp] theorem hardCut_cfg (s : State) : (hardCut s).cfg = s.cfg := rfl
@[simp] theorem hardCut_started (s : State) : (hardCut s).started = s.started := rfl
@[simp] theorem hardCut_input (s : State) : (hardCut s).input = s.input := rfl
@[simp] theorem hardCut_outputs (s : State) : (hardCut s).outputs = s.outputs := rfl
@[simp] theorem hardCut_crcVerdict (s : State) : (hardCut s).crcVerdict = s.crcVerdict := rfl
@[simp] theorem hardCut_draws (s : State) : (hardCut s).draws = s.draws := rfl

/-! ### push -/

@[simp] theorem push_slots (i : Fin 12) (g : Segment) (s : State) : (push i g s).slots = s.slots.set i.val (pushQueue s.cfg.maxDepth g (slot s i)) := rfl
@[simp] theorem push_mask (i : Fin 12) (g : Segment) (s : State) : (push i g s).mask = s.mask ||| BitVec.twoPow 12 i.val := rfl
@[simp] theorem push_mode (i : Fin 12) (g : Segment) (s : State) : (push i g s).mode = s.mode := rfl
@[simp] theorem push_wb (i : Fin 12) (g : Segment) (s : State) : (push i g s).wb = s.wb := rfl
@[simp] theorem push_wbLen (i : Fin 12) (g : Segment) (s : State) : (push i g s).wbLen = s.wbLen := rfl
@[simp] theorem push_wbTime (i : Fin 12) (g : Segment) (s : State) : (push i g s).wbTime = s.wbTime := rfl
@[simp] theorem push_faultCause (i : Fin 12) (g : Segment) (s : State) : (push i g s).faultCause = s.faultCause := rfl
@[simp] theorem push_cfg (i : Fin 12) (g : Segment) (s : State) : (push i g s).cfg = s.cfg := rfl
@[simp] theorem push_started (i : Fin 12) (g : Segment) (s : State) : (push i g s).started = s.started := rfl
@[simp] theorem push_input (i : Fin 12) (g : Segment) (s : State) : (push i g s).input = s.input := rfl
@[simp] theorem push_outputs (i : Fin 12) (g : Segment) (s : State) : (push i g s).outputs = s.outputs := rfl
@[simp] theorem push_crcVerdict (i : Fin 12) (g : Segment) (s : State) : (push i g s).crcVerdict = s.crcVerdict := rfl
@[simp] theorem push_draws (i : Fin 12) (g : Segment) (s : State) : (push i g s).draws = s.draws := rfl

/-! ### resetWith -/

@[simp] theorem resetWith_slots (k : Straps) (s : State) : (resetWith k s).slots = Vector.replicate 12 [] := rfl
@[simp] theorem resetWith_mask (k : Straps) (s : State) : (resetWith k s).mask = 0 := rfl
@[simp] theorem resetWith_mode (k : Straps) (s : State) : (resetWith k s).mode = .idle := rfl
@[simp] theorem resetWith_wb (k : Straps) (s : State) : (resetWith k s).wb = [] := rfl
@[simp] theorem resetWith_wbLen (k : Straps) (s : State) : (resetWith k s).wbLen = 0 := rfl
@[simp] theorem resetWith_wbTime (k : Straps) (s : State) : (resetWith k s).wbTime = Config.unspecifiedTime s.draws := rfl
@[simp] theorem resetWith_faultCause (k : Straps) (s : State) : (resetWith k s).faultCause = 0 := rfl
@[simp] theorem resetWith_cfg (k : Straps) (s : State) : (resetWith k s).cfg = k := rfl
@[simp] theorem resetWith_started (k : Straps) (s : State) : (resetWith k s).started = true := rfl
@[simp] theorem resetWith_input (k : Straps) (s : State) : (resetWith k s).input = s.input := rfl
@[simp] theorem resetWith_outputs (k : Straps) (s : State) : (resetWith k s).outputs = s.outputs := rfl
@[simp] theorem resetWith_crcVerdict (k : Straps) (s : State) : (resetWith k s).crcVerdict = none := rfl
@[simp] theorem resetWith_draws (k : Straps) (s : State) : (resetWith k s).draws = s.draws + 1 := rfl

/-! ### slots and presence bits -/

@[simp] theorem slot_setSlot (i j : Fin 12) (q : List Segment) (s : State) :
    slot (setSlot i q s) j = if j = i then q else slot s j := by
  simp only [slot, setSlot_slots, Vector.getElem_set, Fin.ext_iff, eq_comm]

@[simp] theorem slot_clearSlots (i : Fin 12) (s : State) : slot (clearSlots s) i = [] := by
  simp [slot]

@[simp] theorem slot_hardCut (i : Fin 12) (s : State) : slot (hardCut s) i = [] := by
  simp [slot]

@[simp] theorem slot_resetWith (i : Fin 12) (k : Straps) (s : State) : slot (resetWith k s) i = [] := by
  simp [slot]

theorem slot_congr {s s' : State} (h : s.slots = s'.slots) (i : Fin 12) : slot s i = slot s' i := by
  simp only [slot, h]

@[simp] theorem present_setPresence (i j : Fin 12) (s : State) :
    present (setPresence i s) j = (present s j || decide (j = i)) := by
  have hi : i.val < 12 := i.isLt
  simp only [present, setPresence_mask, BitVec.getLsbD_or, BitVec.getLsbD_twoPow, hi, decide_true,
    Bool.true_and, Fin.ext_iff, eq_comm]

theorem present_congr {s s' : State} (h : s.mask = s'.mask) (i : Fin 12) : present s i = present s' i := by
  simp only [present, h]

@[simp] theorem slot_push (i j : Fin 12) (g : Segment) (s : State) :
    slot (push i g s) j = if j = i then pushQueue s.cfg.maxDepth g (slot s i) else slot s j := by
  simp only [slot, push_slots, Vector.getElem_set, Fin.ext_iff, eq_comm]

@[simp] theorem present_push (i j : Fin 12) (g : Segment) (s : State) :
    present (push i g s) j = (present s j || decide (j = i)) := by
  rw [← present_setPresence]
  exact present_congr rfl j

/-- The mask of an empty accumulator is not the complete one. -/
@[simp] theorem emptyMask_ne_fullMask : 0#Config.maskW ≠ 0xFFF#Config.maskW := by decide

end Sys2Proof.Machine
end

