-- ==== Sys2Proof/Laws/Memory.lean ====
section
/-! SUPPORT. The laws of the working buffer: a byte read after a write, the canonical form, and what
`memRead`, `memWrite` and `acceptBytes` can do. -/

namespace Sys2Proof.Machine

/-! ### sequencing of results -/

@[simp] theorem andThen_next {α β : Type} (a : α) (f : α → Result β) : andThen (.next a) f = f a := rfl

theorem andThen_eq_next {α β : Type} {x : Result α} {f : α → Result β} {b : β} :
    andThen x f = .next b ↔ ∃ a, x = .next a ∧ f a = .next b := by
  cases x <;> simp [andThen]

/-! ### bytes -/

theorem readByte_nil (a : Nat) : readByte [] a = none := rfl

theorem readByte_cons (c : Host.Cell) (m : Memory) (a : Nat) :
    readByte (c :: m) a = if a = c.1 then some c.2 else readByte m a := by
  obtain ⟨k, b⟩ := c
  by_cases h : a = k
  · simp [readByte, h]
  · simp [readByte, List.lookup_cons, h, beq_eq_false_iff_ne.mpr h]

/-- A byte below every listed address has no value. -/
theorem readByte_below {m : Memory} {a : Nat} (h : ∀ c ∈ m, a < c.1) : readByte m a = none := by
  induction m with
  | nil => rfl
  | cons c m ih =>
    have h0 := h c List.mem_cons_self
    rw [readByte_cons, if_neg (by omega)]
    exact ih fun d hd => h d (List.mem_cons_of_mem _ hd)

theorem readByte_cellsAt (bs : List Byte) (a x : Nat) :
    readByte (cellsAt a bs) x = if a ≤ x then bs[x - a]? else none := by
  induction bs generalizing a with
  | nil => simp [cellsAt, readByte]
  | cons b bs ih =>
    simp only [cellsAt, readByte, List.lookup_cons] at *
    by_cases h : x = a
    · subst h; simp
    · have hb : (x == a) = false := by simpa using h
      rw [hb, ih]
      by_cases hx : a ≤ x
      · have : x - a = (x - (a + 1)) + 1 := by omega
        rw [if_pos (by omega), if_pos hx, this]
        simp
      · rw [if_neg (by omega), if_neg hx]

theorem readByte_append (m m' : Memory) (x : Nat) :
    readByte (m ++ m') x = (readByte m x).or (readByte m' x) := by
  simp [readByte, List.lookup_append]

theorem readByte_filter (p : Nat → Bool) (m : Memory) (x : Nat) :
    readByte (m.filter fun c => p c.1) x = if p x then readByte m x else none := by
  induction m with
  | nil => simp [readByte]
  | cons c m ih =>
    obtain ⟨a, b⟩ := c
    simp only [readByte, List.lookup_cons, List.filter_cons] at *
    by_cases hp : p a
    · simp only [hp, if_true, List.lookup_cons]
      by_cases hx : x = a
      · subst hx; simp [hp]
      · have hb : (x == a) = false := by simpa using hx
        simp [hb, ih]
    · simp only [hp]
      by_cases hx : x = a
      · subst hx; simp [ih, hp]
      · have hb : (x == a) = false := by simpa using hx
        simp [hb, ih]

/-- A byte read after a block is written: inside the block its byte, outside what was there. -/
theorem readByte_writeBytes (m : Memory) (a x : Nat) (bs : List Byte) :
    readByte (writeBytes m a bs) x =
      if a ≤ x ∧ x < a + bs.length then bs[x - a]? else readByte m x := by
  have h1 := readByte_filter (fun y => decide (y < a)) m x
  have h2 := readByte_filter (fun y => decide (a + bs.length ≤ y)) m x
  simp only [decide_eq_true_eq] at h1 h2
  rw [writeBytes, readByte_append, readByte_append, readByte_cellsAt, h1, h2]
  by_cases hx : x < a
  · simp [hx, Nat.not_le.mpr hx, show ¬ (a + bs.length ≤ x) by omega]
  · by_cases hy : x < a + bs.length
    · have : bs[x - a]? = some bs[x - a] := List.getElem?_eq_getElem (by omega)
      simp [hx, hy, Nat.not_lt.mp hx, this]
    · have : bs[x - a]? = none := List.getElem?_eq_none (by omega)
      simp [hx, hy, Nat.not_lt.mp hx, Nat.not_lt.mp hy, this]

theorem readByte_writeBytes_outside {m : Memory} {a x : Nat} {bs : List Byte}
    (h : x < a ∨ a + bs.length ≤ x) : readByte (writeBytes m a bs) x = readByte m x := by
  rw [readByte_writeBytes, if_neg (by omega)]

/-! ### the canonical form -/

theorem mem_cellsAt {bs : List Byte} {a : Nat} {c : Host.Cell} (h : c ∈ cellsAt a bs) :
    a ≤ c.1 ∧ c.1 < a + bs.length := by
  induction bs generalizing a with
  | nil => simp [cellsAt] at h
  | cons b bs ih =>
    simp only [cellsAt, List.mem_cons, List.length_cons] at *
    rcases h with rfl | h
    · simp
    · have := ih h; omega

theorem pairwise_cellsAt (bs : List Byte) (a : Nat) :
    (cellsAt a bs).Pairwise fun c d => c.1 < d.1 := by
  induction bs generalizing a with
  | nil => simp [cellsAt]
  | cons b bs ih =>
    rw [cellsAt, List.pairwise_cons]
    exact ⟨fun c hc => by have := mem_cellsAt hc; simp; omega, ih (a + 1)⟩

theorem Memory.wf_nil : Memory.wf [] := by simp [Memory.wf]

/-- Every write inside [0, WB_CAP) keeps the canonical form. -/
theorem Memory.wf_writeBytes {m : Memory} {a : Nat} {bs : List Byte} (hm : Memory.wf m)
    (h : a + bs.length ≤ Config.wbCap) : Memory.wf (writeBytes m a bs) := by
  obtain ⟨hs, hb⟩ := hm
  constructor
  · rw [writeBytes, List.pairwise_append, List.pairwise_append]
    refine ⟨⟨hs.filter _, pairwise_cellsAt bs a, ?_⟩, hs.filter _, ?_⟩
    · intro c hc d hd
      have := mem_cellsAt hd
      have : c.1 < a := by simpa using (List.mem_filter.mp hc).2
      omega
    · intro c hc d hd
      have hd' : a + bs.length ≤ d.1 := by simpa using (List.mem_filter.mp hd).2
      rcases List.mem_append.mp hc with hc | hc
      · have : c.1 < a := by simpa using (List.mem_filter.mp hc).2
        omega
      · have := mem_cellsAt hc
        omega
  · intro c hc
    rw [writeBytes, List.mem_append, List.mem_append] at hc
    rcases hc with (hc | hc) | hc
    · exact hb c (List.mem_filter.mp hc).1
    · have := mem_cellsAt hc; omega
    · exact hb c (List.mem_filter.mp hc).1

/-! ### byte sequences -/

/-- What a block read answers, byte by byte. -/
theorem readBytes_eq_next {m : Memory} {a n : Nat} {bs : List Byte} :
    readBytes m a n = .next bs ↔ bs.length = n ∧ ∀ k < n, readByte m (a + k) = bs[k]? := by
  induction n generalizing a bs with
  | zero => cases bs <;> simp [readBytes]
  | succ n ih =>
    simp only [readBytes]
    constructor
    · intro h
      split at h
      · cases h
      · rename_i b hb
        obtain ⟨r, hr, he⟩ := andThen_eq_next.mp h
        cases he
        obtain ⟨hl, hk⟩ := ih.mp hr
        refine ⟨by simp [hl], fun k hk' => ?_⟩
        cases k with
        | zero => simpa using hb
        | succ k =>
          have := hk k (by omega)
          rw [show a + (k + 1) = a + 1 + k by omega]
          simpa using this
    · rintro ⟨hl, hk⟩
      cases bs with
      | nil => simp at hl
      | cons b bs =>
        have h0 : readByte m a = some b := by simpa using hk 0 (by omega)
        rw [h0]
        have hr : readBytes m (a + 1) n = .next bs := by
          refine ih.mpr ⟨by simpa using hl, fun k hk' => ?_⟩
          have := hk (k + 1) (by omega)
          rw [show a + 1 + k = a + (k + 1) by omega]
          simpa using this
        simp [hr]

/-- A block reads back as the part of the written block it lies in. -/
theorem readBytes_writeBytes {m : Memory} {a x n : Nat} {bs : List Byte} (h1 : a ≤ x)
    (h2 : x + n ≤ a + bs.length) :
    readBytes (writeBytes m a bs) x n = .next ((bs.drop (x - a)).take n) := by
  rw [readBytes_eq_next]
  refine ⟨by simp; omega, fun k hk => ?_⟩
  rw [readByte_writeBytes, if_pos (by omega), List.getElem?_take, if_pos hk, List.getElem?_drop]
  congr 1
  omega

/-- A block read is unchanged where every byte of it is. -/
theorem readBytes_congr {m m' : Memory} {a n : Nat}
    (h : ∀ k < n, readByte m (a + k) = readByte m' (a + k)) : readBytes m a n = readBytes m' a n := by
  induction n generalizing a with
  | zero => rfl
  | succ n ih =>
    simp only [readBytes]
    have h0 : readByte m a = readByte m' a := h 0 (by omega)
    have hr : readBytes m (a + 1) n = readBytes m' (a + 1) n :=
      ih fun k hk => by
        have := h (k + 1) (by omega)
        rwa [show a + (k + 1) = a + 1 + k by omega] at this
    rw [h0, hr]

/-- A block of bytes that all have a value can be read. -/
theorem readBytes_exists {m : Memory} {a n : Nat} (h : ∀ k < n, (readByte m (a + k)).isSome) :
    ∃ bs, readBytes m a n = .next bs := by
  induction n generalizing a with
  | zero => exact ⟨[], rfl⟩
  | succ n ih =>
    obtain ⟨b, hb⟩ := Option.isSome_iff_exists.mp (h 0 (by omega))
    obtain ⟨bs, hbs⟩ := ih (a := a + 1) fun k hk => by
      have := h (k + 1) (by omega)
      rwa [show a + (k + 1) = a + 1 + k by omega] at this
    exact ⟨b :: bs, by simp only [readBytes]; simp only [Nat.add_zero] at hb; rw [hb]; simp [hbs]⟩

theorem readBytes_append {m : Memory} {a n k : Nat} {bs cs : List Byte}
    (h1 : readBytes m a n = .next bs) (h2 : readBytes m (a + n) k = .next cs) :
    readBytes m a (n + k) = .next (bs ++ cs) := by
  obtain ⟨l1, g1⟩ := readBytes_eq_next.mp h1
  obtain ⟨l2, g2⟩ := readBytes_eq_next.mp h2
  refine readBytes_eq_next.mpr ⟨by simp [l1, l2], fun j hj => ?_⟩
  rw [List.getElem?_append]
  by_cases hjn : j < n
  · rw [if_pos (by omega), g1 j hjn]
  · rw [if_neg (by omega), ← show a + n + (j - n) = a + j by omega, g2 _ (by omega), l1]

theorem readBytes_drop_take {m : Memory} {a n x k : Nat} {bs : List Byte}
    (h : readBytes m a n = .next bs) (hx : x + k ≤ n) :
    readBytes m (a + x) k = .next ((bs.drop x).take k) := by
  obtain ⟨l, g⟩ := readBytes_eq_next.mp h
  refine readBytes_eq_next.mpr ⟨by simp; omega, fun j hj => ?_⟩
  rw [show a + x + j = a + (x + j) by omega, g _ (by omega), List.getElem?_take, if_pos hj,
    List.getElem?_drop]

/-! ### MemRead, MemWrite and accepting a datagram -/

theorem memRead_eq_next {addr n : Nat} {s : State} {bs : List Byte} :
    memRead addr n s = .next bs ↔ addr + n ≤ s.wbLen ∧ readBytes s.wb addr n = .next bs := by
  unfold memRead
  split <;> simp_all

theorem memRead_of_le {addr n : Nat} {s : State} (h : addr + n ≤ s.wbLen) :
    memRead addr n s = readBytes s.wb addr n := by
  simp [memRead, h]

theorem memWrite_eq_next {addr : Nat} {v : List Byte} {s s' : State} :
    memWrite addr v s = .next s' ↔
      addr + v.length ≤ Config.wbCap ∧ s' = { s with wb := writeBytes s.wb addr v } := by
  unfold memWrite
  split <;> simp_all [eq_comm]

/-- What accepting a datagram can do. -/
theorem acceptBytes_eq_next {addr : Nat} {data : List Byte} {t : Time} {s s' : State} :
    acceptBytes addr data t s = .next s' ↔
      addr + data.length ≤ Config.wbCap ∧
        s' = { s with wb := writeBytes s.wb addr data, wbLen := addr + data.length, wbTime := t } := by
  simp only [acceptBytes, andThen_eq_next, memWrite_eq_next]
  constructor
  · rintro ⟨_, ⟨h, rfl⟩, he⟩
    cases he
    exact ⟨h, rfl⟩
  · rintro ⟨h, rfl⟩
    exact ⟨_, ⟨h, rfl⟩, rfl⟩

theorem acceptBytes_of_le {addr : Nat} {data : List Byte} {t : Time} {s : State}
    (h : addr + data.length ≤ Config.wbCap) :
    acceptBytes addr data t s =
      .next { s with wb := writeBytes s.wb addr data, wbLen := addr + data.length, wbTime := t } :=
  acceptBytes_eq_next.mpr ⟨h, rfl⟩

end Sys2Proof.Machine
end

