-- ==== Sys2Proof/Laws/Assembler.lean ====
section
/-! SUPPORT. What the guard of an operation, the queues, the frame release and SEGP can do, said once. -/

namespace Sys2Proof.Machine

/-! ### the guard of every operation but RST -/

theorem onRunning_of_running {s : State} {k : Result State} (h1 : s.started = true)
    (h2 : s.mode ≠ .faulted) : onRunning s k = k := by
  simp [onRunning, h1, h2]

theorem onRunning_of_faulted {s : State} {k : Result State} (h1 : s.started = true)
    (h2 : s.mode = .faulted) : onRunning s k = .next s := by
  simp [onRunning, h1, h2]

theorem onRunning_before_reset {s : State} {k : Result State} (h : s.started = false) :
    onRunning s k = .refused .beforeReset := by
  simp [onRunning, h]

theorem onRunning_eq_next {s u : State} {k : Result State} :
    onRunning s k = .next u ↔
      s.started = true ∧ ((s.mode = .faulted ∧ u = s) ∨ (s.mode ≠ .faulted ∧ k = .next u)) := by
  unfold onRunning
  cases hs : s.started
  · simp
  · by_cases hm : s.mode = .faulted <;> simp [hm, eq_comm]

/-! ### fronts -/

/-- `fronts` answers the heads of the queues, when every queue has one. -/
theorem fronts_eq_some {qs : List (List Segment)} {gs : List Segment} :
    fronts qs = some gs ↔ qs.map List.head? = gs.map some := by
  induction qs generalizing gs with
  | nil => cases gs <;> simp [fronts]
  | cons q qs ih =>
    cases q with
    | nil => cases gs <;> simp [fronts]
    | cons g q =>
      simp only [fronts, List.map_cons, List.head?_cons]
      cases hf : fronts qs with
      | none =>
        cases gs with
        | nil => simp
        | cons g' gs =>
          have : ¬ qs.map List.head? = gs.map some := fun h => by simp [ih.mpr h] at hf
          simp [this]
      | some fs =>
        have hfs := ih.mp hf
        cases gs with
        | nil => simp
        | cons g' gs =>
          simp only [Option.some.injEq, List.cons.injEq, List.map_cons, hfs]
          rw [List.map_inj_right (fun _ _ h => Option.some.inj h)]

/-- `fronts` fails exactly over an empty queue. -/
theorem fronts_eq_none {qs : List (List Segment)} : fronts qs = none ↔ [] ∈ qs := by
  induction qs with
  | nil => simp [fronts]
  | cons q qs ih =>
    cases q with
    | nil => simp [fronts]
    | cons g q =>
      simp only [fronts, List.mem_cons]
      cases hf : fronts qs with
      | none => simpa using ih.mp hf
      | some fs =>
        have : ¬ [] ∈ qs := fun h => by simp [ih.mpr h] at hf
        simp [this]

theorem mem_slots_iff {s : State} {q : List Segment} : q ∈ s.slots.toList ↔ ∃ i, slot s i = q := by
  rw [Vector.mem_toList_iff, Vector.mem_iff_getElem]
  constructor
  · rintro ⟨i, h, rfl⟩; exact ⟨⟨i, h⟩, rfl⟩
  · rintro ⟨i, rfl⟩; exact ⟨i.val, i.isLt, rfl⟩

/-- The frame release fails exactly over an empty slot. -/
theorem fronts_slots_eq_none {s : State} : fronts s.slots.toList = none ↔ ∃ i, slot s i = [] := by
  rw [fronts_eq_none, mem_slots_iff]

/-- The fronts of the twelve slots, slot by slot. -/
theorem fronts_slots_eq_some {s : State} {gs : List Segment} :
    fronts s.slots.toList = some gs ↔
      gs.length = 12 ∧ ∀ j : Fin 12, (slot s j).head? = gs[j.val]? := by
  rw [fronts_eq_some]
  constructor
  · intro h
    have hl : gs.length = 12 := by simpa using (congrArg List.length h).symm
    refine ⟨hl, fun j => ?_⟩
    have hj := congrArg (fun l => l[j.val]?) h
    have hj' : j.val < gs.length := by omega
    simpa [slot, hj'] using hj
  · rintro ⟨hl, h⟩
    apply List.ext_getElem
    · simp [hl]
    · intro n h1 h2
      have hn : n < 12 := by simpa using h1
      have := h ⟨n, hn⟩
      have hn' : n < gs.length := by omega
      simpa [slot, hn'] using this

/-! ### queues -/

/-- A push is: front insertion, then the first `depth` elements (43_assembler.md R152). -/
theorem pushQueue_eq_take (depth : Nat) (g : Segment) (q : List Segment) :
    pushQueue depth g q = (g :: q).take depth := by
  unfold pushQueue
  split
  · rfl
  · exact (List.take_of_length_le (by omega)).symm

theorem length_pushQueue_le (depth : Nat) (g : Segment) (q : List Segment) :
    (pushQueue depth g q).length ≤ depth := by
  rw [pushQueue_eq_take, List.length_take]
  exact Nat.min_le_left _ _

theorem head?_pushQueue {depth : Nat} (h : 1 ≤ depth) (g : Segment) (q : List Segment) :
    (pushQueue depth g q).head? = some g := by
  obtain ⟨d, rfl⟩ : ∃ d, depth = d + 1 := ⟨depth - 1, by omega⟩
  simp [pushQueue_eq_take]

theorem pushQueue_ne_nil {depth : Nat} (h : 1 ≤ depth) (g : Segment) (q : List Segment) :
    pushQueue depth g q ≠ [] := fun hn => by
  have := head?_pushQueue h g q
  simp [hn] at this

/-! ### inertial forward -/

theorem imuForward_cases (g : Segment) (s : State) :
    (g.imu.valid = true ∧ imuForward g s = emit (.imu (imuSampleOf g)) s) ∨
    (g.imu.valid = false ∧ imuForward g s = s) := by
  unfold imuForward
  cases g.imu.valid <;> simp

/-! ### frame release -/

/-- Everything a frame release can do. -/
theorem frameRelease_cases (s : State) :
    ((∃ i, slot s i = []) ∧ frameRelease s = raiseFault .emptySlot s) ∨
    (∃ fs, fs.length = 12 ∧ (∀ j : Fin 12, (slot s j).head? = fs[j.val]?) ∧
      frameRelease s = emit (.frame (frameOf s.cfg.layout fs)) (hardCut s)) := by
  unfold frameRelease
  cases h : fronts s.slots.toList with
  | none => exact .inl ⟨fronts_slots_eq_none.mp h, rfl⟩
  | some fs =>
    obtain ⟨hl, hj⟩ := fronts_slots_eq_some.mp h
    exact .inr ⟨fs, hl, hj, rfl⟩

theorem frameRelease_of_fronts {s : State} {fs : List Segment} (hl : fs.length = 12)
    (hj : ∀ j : Fin 12, (slot s j).head? = fs[j.val]?) :
    frameRelease s = emit (.frame (frameOf s.cfg.layout fs)) (hardCut s) := by
  unfold frameRelease
  rw [fronts_slots_eq_some.mpr ⟨hl, hj⟩]

theorem frameRelease_of_empty {s : State} (h : ∃ i, slot s i = []) :
    frameRelease s = raiseFault .emptySlot s := by
  unfold frameRelease
  rw [fronts_slots_eq_none.mpr h]

/-- BASE(LEVEL) in bytes (44_frame_release.md R172). -/
theorem baseOf_eq (level : Fin 5) : baseOf level = [12, 16, 20, 28, 40].getD level.val 0 := by
  revert level
  decide

/-! ### SEGP -/

theorem slotOf_eq_none {n : BitVec 4} : slotOf n = none ↔ 11 < n.toNat := by
  unfold slotOf Config.nslots
  split <;> simp <;> omega

theorem slotOf_eq_some {n : BitVec 4} {i : Fin 12} : slotOf n = some i ↔ n.toNat = i.val := by
  unfold slotOf Config.nslots
  split
  · simp [Fin.ext_iff]
  · have := i.isLt
    simp
    omega

/-- Everything SEGP can do (43_assembler.md R150): refuse the index, forward only, push, or push and
release. -/
theorem segmentPush_cases (g : Segment) (s : State) :
    (11 < g.index.toNat ∧ segmentPush g s = raiseFault .badIndex s) ∨
    (∃ i : Fin 12, g.index.toNat = i.val ∧
      ((g.groups = [] ∧ segmentPush g s = imuForward g s) ∨
       (g.groups ≠ [] ∧ (push i g (imuForward g s)).mask ≠ 0xFFF ∧
         segmentPush g s = push i g (imuForward g s)) ∨
       (g.groups ≠ [] ∧ (push i g (imuForward g s)).mask = 0xFFF ∧
         segmentPush g s = frameRelease (push i g (imuForward g s))))) := by
  unfold segmentPush
  cases h : slotOf g.index with
  | none => exact .inl ⟨slotOf_eq_none.mp h, rfl⟩
  | some i =>
    refine .inr ⟨i, slotOf_eq_some.mp h, ?_⟩
    show _ ∧ storeSegment i g (imuForward g s) = _ ∨ _ ∧ _ ∧ storeSegment i g (imuForward g s) = _ ∨
      _ ∧ _ ∧ storeSegment i g (imuForward g s) = _
    unfold storeSegment releaseIfComplete frameComplete
    by_cases hg : g.groups = []
    · exact .inl ⟨hg, by simp [hg]⟩
    · have hl : 1 ≤ g.groups.length := List.length_pos_iff.mpr hg
      by_cases hm : (push i g (imuForward g s)).mask = 0xFFF
      · exact .inr (.inr ⟨hg, hm, by rw [if_pos hl, if_pos (beq_iff_eq.mpr hm)]⟩)
      · exact .inr (.inl ⟨hg, hm, by rw [if_pos hl, if_neg (by simpa using hm)]⟩)

end Sys2Proof.Machine
end

