-- ==== Sys2Proof/Laws/Demux.lean ====
section
/-! SUPPORT. What the demultiplexer's shared operations answer, said once on the bytes of the message. -/

namespace Sys2Proof.Machine

/-! ### little-endian values -/

theorem leValue_lt (bs : List Byte) : leValue bs < 256 ^ bs.length := by
  induction bs with
  | nil => simp [leValue]
  | cons b bs ih =>
    have := b.isLt
    simp only [leValue, List.length_cons, pow_succ]
    omega

/-- Four bytes lose nothing in `le32`. -/
theorem toNat_le32 {bs : List Byte} (h : bs.length ≤ 4) : (le32 bs).toNat = leValue bs := by
  have h1 := leValue_lt bs
  have h2 : 256 ^ bs.length ≤ 256 ^ 4 := Nat.pow_le_pow_right (by omega) h
  rw [le32, BitVec.toNat_ofNat, Nat.mod_eq_of_lt (by omega)]

@[simp] theorem length_leBytes (n v : Nat) : (leBytes n v).length = n := by
  induction n generalizing v with
  | zero => rfl
  | succ n ih => simp [leBytes, ih]

@[simp] theorem length_le32Bytes (v : Word) : (le32Bytes v).length = 4 := length_leBytes 4 _

@[simp] theorem length_le64Bytes (v : BitVec 64) : (le64Bytes v).length = 8 := length_leBytes 8 _

/-- The little-endian bytes of a value give it back modulo 256^n. -/
theorem leValue_leBytes (n v : Nat) : leValue (leBytes n v) = v % 256 ^ n := by
  induction n generalizing v with
  | zero => simp [leBytes, leValue, Nat.mod_one]
  | succ n ih =>
    have h : v % 256 ^ (n + 1) = v % 256 + 256 * (v / 256 % 256 ^ n) := by
      rw [pow_succ', Nat.mod_mul]
    simp only [leBytes, leValue, ih, BitVec.toNat_ofNat, h]

@[simp] theorem le32_le32Bytes (v : Word) : le32 (le32Bytes v) = v := by
  apply BitVec.eq_of_toNat_eq
  rw [toNat_le32 (by simp), le32Bytes, leValue_leBytes]
  exact Nat.mod_eq_of_lt v.isLt

/-- The bytes of a value of at most `n` bytes determine it, and the other way round. -/
theorem leBytes_leValue (bs : List Byte) : leBytes bs.length (leValue bs) = bs := by
  induction bs with
  | nil => rfl
  | cons b bs ih =>
    have hb := b.isLt
    have h1 : (b.toNat + 256 * leValue bs) / 256 = leValue bs := by omega
    simp only [List.length_cons, leBytes, leValue, h1, ih]
    congr 1
    apply BitVec.eq_of_toNat_eq
    simp only [BitVec.toNat_ofNat]
    omega

theorem le32Bytes_le32 {bs : List Byte} (h : bs.length = 4) : le32Bytes (le32 bs) = bs := by
  rw [le32Bytes, toNat_le32 (by omega), ← h]
  exact leBytes_leValue bs

/-! ### finish and the exact-length test -/

/-- `finish` on readable bytes: the region, the trailing CRC, then the verdict. -/
theorem finish_of_readBytes {o : Oracles} {off len : Nat} {s : State} {bytes : List Byte}
    (hb : readBytes s.wb 0 s.wbLen = .next bytes) (h : off + len + 4 ≤ s.wbLen) :
    finish o off len (off + len) s =
      .next (finishMessage o ((bytes.drop off).take len) (le32 ((bytes.drop (off + len)).take 4)) s) := by
  have h1 := readBytes_drop_take (x := off) (k := len) hb (by omega)
  have h2 := readBytes_drop_take (x := off + len) (k := 4) hb (by omega)
  rw [Nat.zero_add] at h1 h2
  rw [finish, memRead_of_le (by omega), h1, andThen_next, memRead32, memRead_of_le (by omega), h2]
  simp

/-- The exact-length test and `finish` on readable bytes. -/
theorem completeExact_of_readBytes {o : Oracles} {total off len : Nat} {s : State} {bytes : List Byte}
    (hb : readBytes s.wb 0 s.wbLen = .next bytes) (ht : total = off + len + 4) :
    completeExact o total off len s =
      .next (if s.wbLen < total then drop .undersized s
             else if total < s.wbLen then drop .oversized s
             else finishMessage o ((bytes.drop off).take len) (le32 ((bytes.drop (off + len)).take 4)) s) := by
  unfold completeExact
  split
  · rfl
  · split
    · rfl
    · exact finish_of_readBytes hb (by omega)

/-- Encoding A after the head check, on readable bytes. -/
theorem completeA_of_readBytes {o : Oracles} {s : State} {bytes : List Byte}
    (hb : readBytes s.wb 0 s.wbLen = .next bytes) (h : 8 ≤ s.wbLen) :
    completeA o s =
      .next (let plen := leValue ((bytes.drop 4).take 4)
             if s.wbLen < 12 + plen then drop .undersized s
             else if 12 + plen < s.wbLen then drop .oversized s
             else finishMessage o ((bytes.drop 8).take plen) (le32 ((bytes.drop (8 + plen)).take 4)) s) := by
  have h1 := readBytes_drop_take (x := 4) (k := 4) hb (by omega)
  rw [Nat.zero_add] at h1
  have hn : (le32 ((bytes.drop 4).take 4)).toNat = leValue ((bytes.drop 4).take 4) :=
    toNat_le32 (by simp)
  simp only [completeA, memRead32, Config.lenOffset, Config.markerSize, Config.lenSize, Config.crcSize]
  rw [memRead_of_le (by omega), h1, andThen_next, andThen_next, hn]
  rw [show 4 + 4 + leValue ((bytes.drop 4).take 4) + 4 = 12 + leValue ((bytes.drop 4).take 4) by omega]
  exact completeExact_of_readBytes hb (by omega)

/-- The probe step, on readable bytes. -/
theorem tryCompleteB_of_readBytes {o : Oracles} {s : State} {bytes : List Byte}
    (hb : readBytes s.wb 0 s.wbLen = .next bytes) :
    tryCompleteB o s =
      .next (match o.probe bytes with
        | .ok n =>
          if s.wbLen < n.toNat + 4 then drop .undersized s
          else if n.toNat + 4 < s.wbLen then drop .oversized s
          else finishMessage o (bytes.take n.toNat) (le32 ((bytes.drop n.toNat).take 4)) s
        | .need r =>
          if r.toNat > 1048576 then drop .capExceeded (emitDiag .probeDiag s) else setMode .accum s) := by
  rw [tryCompleteB, memRead_of_le (by omega), hb, andThen_next]
  cases o.probe bytes with
  | ok n =>
    simp only [handleProbe]
    have := completeExact_of_readBytes (o := o) (total := n.toNat + 4) (off := 0) (len := n.toNat) hb (by omega)
    simpa [Config.crcSize] using this
  | need r =>
    simp only [handleProbe, Config.cap]
    by_cases hr : r.toNat > 1048576 <;> simp [hr]

/-- The bytes of a datagram that was just accepted behind the bytes gathered. -/
theorem readBytes_after_accept {m : Memory} {a : Nat} {old data : List Byte}
    (hb : readBytes m 0 a = .next old) :
    readBytes (writeBytes m a data) 0 (a + data.length) = .next (old ++ data) := by
  have hold : readBytes (writeBytes m a data) 0 a = .next old := by
    rw [← hb]
    exact readBytes_congr fun k hk => readByte_writeBytes_outside (.inl (by omega))
  have hnew : readBytes (writeBytes m a data) (0 + a) data.length = .next data := by
    have := readBytes_writeBytes (m := m) (a := a) (x := a) (n := data.length) (bs := data) (by omega) (by omega)
    simpa using this
  exact readBytes_append hold hnew

/-- The bytes of a head datagram that was just accepted. -/
theorem readBytes_after_head (m : Memory) (data : List Byte) :
    readBytes (writeBytes m 0 data) 0 data.length = .next data := by
  have := readBytes_after_accept (m := m) (a := 0) (old := []) (data := data) rfl
  simpa using this

/-- `finish` ends in a drop or hands the region to the decoder. -/
theorem finishMessage_cases (o : Oracles) (region : List Byte) (wire : Word) (s : State) :
    (crc32 region ≠ wire ∧ finishMessage o region wire s = drop .crcMismatch s) ∨
    (crc32 region = wire ∧
      finishMessage o region wire s = handleDecoded (o.decode region s.wbTime) (releaseBuffer s)) := by
  unfold finishMessage crcVerdictOf
  by_cases h : crc32 region = wire <;> simp [h]

/-! ### everything an RXD can end in -/

/-- The ways a datagram that reached the buffer (state `s`) can end: a drop, a wait for more bytes, or a
message handed to the decoder. -/
inductive MessageEnd (o : Oracles) (s : State) : State → Prop where
  | dropped (c : DiagCause) : MessageEnd o s (drop c s)
  | abandoned : MessageEnd o s (drop .capExceeded (emitDiag .probeDiag s))
  | waiting : MessageEnd o s (setMode .accum s)
  | decoded (region : List Byte) :
      MessageEnd o s (handleDecoded (o.decode region s.wbTime) (releaseBuffer s))

theorem finish_ends {o : Oracles} {a b c : Nat} {s u : State} (h : finish o a b c s = .next u) :
    MessageEnd o s u := by
  obtain ⟨region, _, h⟩ := andThen_eq_next.mp h
  obtain ⟨wire, _, h⟩ := andThen_eq_next.mp h
  cases h
  rcases finishMessage_cases o region wire s with ⟨_, h⟩ | ⟨_, h⟩ <;> rw [h]
  · exact .dropped _
  · exact .decoded _

theorem completeExact_ends {o : Oracles} {a b c : Nat} {s u : State}
    (h : completeExact o a b c s = .next u) : MessageEnd o s u := by
  unfold completeExact at h
  split at h
  · cases h; exact .dropped _
  · split at h
    · cases h; exact .dropped _
    · exact finish_ends h

theorem completeA_ends {o : Oracles} {s u : State} (h : completeA o s = .next u) : MessageEnd o s u := by
  obtain ⟨_, _, h⟩ := andThen_eq_next.mp h
  exact completeExact_ends h

theorem tryCompleteB_ends {o : Oracles} {s u : State} (h : tryCompleteB o s = .next u) :
    MessageEnd o s u := by
  obtain ⟨bytes, _, h⟩ := andThen_eq_next.mp h
  unfold handleProbe at h
  split at h
  · exact completeExact_ends h
  · split at h
    · cases h; exact .abandoned
    · cases h; exact .waiting

/-- The state after the datagram `data` was accepted at `addr`. -/
def acceptedAt (addr : Nat) (data : List Byte) (t : Time) (s : State) : State :=
  { s with wb := writeBytes s.wb addr data, wbLen := addr + data.length, wbTime := t }

/-- Every way an RXD ends: ignored in FAULTED, dropped before anything is stored, or a message end on the
accepted datagram. -/
inductive RxdEnd (o : Oracles) (addr : Nat) (data : List Byte) (t : Time) (s : State) : State → Prop where
  | ignored : s.mode = .faulted → RxdEnd o addr data t s s
  | dropped (c : DiagCause) : RxdEnd o addr data t s (drop c s)
  | accepted {u : State} : addr + data.length ≤ Config.wbCap → MessageEnd o (acceptedAt addr data t s) u →
      RxdEnd o addr data t s u

theorem headCheck_ends {o : Oracles} {data : List Byte} {t : Time} {k : State → Result State} {s u : State}
    (hk : ∀ s u, k s = .next u → MessageEnd o s u) (h : headCheck data t k s = .next u) :
    RxdEnd o 0 data t s u := by
  unfold headCheck at h
  split at h
  · cases h; exact .dropped _
  · split at h
    · cases h; exact .dropped _
    · obtain ⟨s', hs, h⟩ := andThen_eq_next.mp h
      obtain ⟨hc, rfl⟩ := acceptBytes_eq_next.mp hs
      exact .accepted hc (hk _ _ h)

theorem appendChunk_ends {o : Oracles} {data : List Byte} {t : Time} {s u : State}
    (h : appendChunk o data t s = .next u) : RxdEnd o s.wbLen data t s u := by
  unfold appendChunk at h
  split at h
  · cases h; exact .dropped _
  · obtain ⟨s', hs, h⟩ := andThen_eq_next.mp h
    obtain ⟨hc, rfl⟩ := acceptBytes_eq_next.mp hs
    exact .accepted hc (tryCompleteB_ends h)

theorem receiveHeadA_ends {o : Oracles} {data : List Byte} {t : Time} {s u : State}
    (h : receiveHeadA o data t s = .next u) :
    s.started = true ∧ RxdEnd o 0 data t s u ∧
      (s.mode ≠ .faulted → selectsHeadA data s = true) := by
  obtain ⟨hs, ⟨hm, rfl⟩ | ⟨hm, h⟩⟩ := onRunning_eq_next.mp h
  · exact ⟨hs, .ignored hm, fun hn => absurd hm hn⟩
  · split at h
    · rename_i hsel
      exact ⟨hs, headCheck_ends (fun _ _ => completeA_ends) h, fun _ => hsel⟩
    · cases h

theorem receiveHeadB_ends {o : Oracles} {data : List Byte} {t : Time} {s u : State}
    (h : receiveHeadB o data t s = .next u) :
    s.started = true ∧ RxdEnd o 0 data t s u ∧
      (s.mode ≠ .faulted → selectsHeadB data s = true) := by
  obtain ⟨hs, ⟨hm, rfl⟩ | ⟨hm, h⟩⟩ := onRunning_eq_next.mp h
  · exact ⟨hs, .ignored hm, fun hn => absurd hm hn⟩
  · split at h
    · rename_i hsel
      exact ⟨hs, headCheck_ends (fun _ _ => tryCompleteB_ends) h, fun _ => hsel⟩
    · cases h

theorem receiveChunk_ends {o : Oracles} {data : List Byte} {t : Time} {s u : State}
    (h : receiveChunk o data t s = .next u) :
    s.started = true ∧ RxdEnd o s.wbLen data t s u ∧
      (s.mode ≠ .faulted → selectsChunk data s = true) := by
  obtain ⟨hs, ⟨hm, rfl⟩ | ⟨hm, h⟩⟩ := onRunning_eq_next.mp h
  · exact ⟨hs, .ignored hm, fun hn => absurd hm hn⟩
  · split at h
    · rename_i hsel
      exact ⟨hs, appendChunk_ends h, fun _ => hsel⟩
    · cases h

theorem receiveMessageA_ends {o : Oracles} {plen : Word} {body : List Byte} {t : Time} {s u : State}
    (h : receiveMessageA o plen body t s = .next u) :
    s.started = true ∧ RxdEnd o 0 (messageABytes plen body) t s u := by
  obtain ⟨hs, ⟨hm, rfl⟩ | ⟨hm, h⟩⟩ := onRunning_eq_next.mp h
  · exact ⟨hs, .ignored hm⟩
  · split at h
    · obtain ⟨s', hs', h⟩ := andThen_eq_next.mp h
      obtain ⟨hc, rfl⟩ := acceptBytes_eq_next.mp hs'
      exact ⟨hs, .accepted hc (completeA_ends h)⟩
    · cases h

theorem receiveMessageB_ends {o : Oracles} {rest : List Byte} {t : Time} {s u : State}
    (h : receiveMessageB o rest t s = .next u) :
    s.started = true ∧
      RxdEnd o (if s.mode = .accum then s.wbLen else 0) (messageBBytes rest) t s u := by
  obtain ⟨hs, ⟨hm, rfl⟩ | ⟨hm, h⟩⟩ := onRunning_eq_next.mp h
  · exact ⟨hs, .ignored hm⟩
  · refine ⟨hs, ?_⟩
    split at h
    · rename_i hsel
      have hi : s.mode = .idle := by
        simp only [selectsHeadB, Bool.and_eq_true, decide_eq_true_eq] at hsel
        exact hsel.1.1.1
      obtain ⟨s', hs', h⟩ := andThen_eq_next.mp h
      obtain ⟨hc, rfl⟩ := acceptBytes_eq_next.mp hs'
      rw [if_neg (by simp [hi])]
      exact .accepted hc (tryCompleteB_ends h)
    · split at h
      · rename_i hsel
        have ha : s.mode = .accum := by
          simp only [selectsChunk, Bool.and_eq_true, decide_eq_true_eq] at hsel
          exact hsel.1
        rw [if_pos ha]
        exact appendChunk_ends h
      · cases h

end Sys2Proof.Machine
end

