-- ==== Sys2Proof/Laws/Crc.lean ====
section
/-! SUPPORT. The CRC loop of 41_crc.md R131 is linear over XOR and loses nothing, and what a 4-byte
little-endian word does to the accumulator. -/

namespace Sys2Proof.Machine

theorem crcBit_xor (a b : Word) : crcBit (a ^^^ b) = crcBit a ^^^ crcBit b := by
  have cancel : ∀ x y k : Word, x ^^^ y = x ^^^ k ^^^ (y ^^^ k) := fun x y k => by
    rw [BitVec.xor_comm y k, BitVec.xor_assoc, ← BitVec.xor_assoc k, BitVec.xor_self, BitVec.zero_xor]
  unfold crcBit
  rw [BitVec.getLsbD_xor, BitVec.ushiftRight_xor_distrib]
  cases a.getLsbD 0 <;> cases b.getLsbD 0 <;> simp
  · rw [BitVec.xor_assoc]
  · rw [BitVec.xor_assoc, BitVec.xor_assoc, BitVec.xor_comm (b >>> 1)]
  · exact cancel _ _ _

theorem crcBits_xor (n : Nat) (a b : Word) : crcBits n (a ^^^ b) = crcBits n a ^^^ crcBits n b := by
  induction n generalizing a b with
  | zero => rfl
  | succ n ih => simp only [crcBits, crcBit_xor, ih]

theorem crcBits_add (m n : Nat) (a : Word) : crcBits (m + n) a = crcBits n (crcBits m a) := by
  induction m generalizing a with
  | zero => rw [Nat.zero_add]; rfl
  | succ m ih => rw [Nat.add_right_comm]; exact ih _

/-- Only zero is taken to zero: the reversed polynomial has bit 31 set. -/
theorem crcBit_eq_zero {c : Word} (h : crcBit c = 0) : c = 0 := by
  unfold crcBit at h
  by_cases h0 : c.getLsbD 0 = true
  · rw [if_pos h0] at h
    have := congrArg (fun v : Word => v.getLsbD 31) h
    simp [Config.crcPolyReflected] at this
  · rw [if_neg h0] at h
    apply BitVec.eq_of_getLsbD_eq
    intro i _
    cases i with
    | zero => simpa using h0
    | succ i =>
      have := congrArg (fun v : Word => v.getLsbD i) h
      simp only [BitVec.getLsbD_ushiftRight] at this
      rw [Nat.add_comm]
      simpa using this

theorem crcBit_injective {a b : Word} (h : crcBit a = crcBit b) : a = b :=
  BitVec.xor_eq_zero_iff.mp (crcBit_eq_zero (by rw [crcBit_xor, h]; exact BitVec.xor_self))

theorem crcBits_injective {n : Nat} {a b : Word} (h : crcBits n a = crcBits n b) : a = b := by
  induction n generalizing a b with
  | zero => exact h
  | succ n ih => exact crcBit_injective (ih h)

/-- The bytes of a region take different accumulators to different accumulators. -/
theorem crcAccumulate_injective {bs : List Byte} {a b : Word}
    (h : crcAccumulate a bs = crcAccumulate b bs) : a = b := by
  induction bs generalizing a b with
  | nil => exact h
  | cons c cs ih => exact (BitVec.xor_left_inj _).mp (crcBits_injective (ih h))

/-- Where the low `n` bits are zero, `n` turns only shift. -/
theorem crcBits_of_low_zero (n : Nat) (a : Word) (h : ∀ i < n, a.getLsbD i = false) :
    crcBits n a = a >>> n := by
  induction n generalizing a with
  | zero => simp [crcBits]
  | succ n ih =>
    have h0 : crcBit a = a >>> 1 := by unfold crcBit; rw [if_neg (by rw [h 0 (by omega)]; decide)]
    rw [crcBits, h0, ih, ← BitVec.shiftRight_add, Nat.add_comm]
    intro i hi
    rw [BitVec.getLsbD_ushiftRight]
    exact h _ (by omega)

end Sys2Proof.Machine
end

