-- ==== Sys2Proof/Laws/Decode.lean ====
section
/-! SUPPORT. The decoders code by code, the operand conditions as propositions, and what a step does with the
next event. -/

namespace Sys2Proof

/-! ### operand conditions -/

theorem datagramOk_iff {data : List Byte} :
    datagramOk data = true ↔ 1 ≤ data.length ∧ data.length ≤ 65535 := by
  rw [datagramOk, Bool.and_eq_true, decide_eq_true_eq, decide_eq_true_eq]
  exact Iff.rfl

theorem headLengthOk_iff {n : Nat} : headLengthOk n = true ↔ 12 < n ∧ n ≤ 65535 := by
  rw [headLengthOk, Bool.and_eq_true, decide_eq_true_eq, decide_eq_true_eq]
  exact Iff.rfl

theorem marker_eq : Config.marker = [2, 2, 2, 2] := rfl

@[simp] theorem length_marker : Config.marker.length = 4 := rfl

@[simp] theorem length_messageABytes (plen : Word) (body : List Byte) :
    (messageABytes plen body).length = 8 + body.length := by
  simp only [messageABytes, List.length_append, length_marker, Machine.length_le32Bytes]

@[simp] theorem length_messageBBytes (rest : List Byte) :
    (messageBBytes rest).length = 4 + rest.length := by
  simp only [messageBBytes, List.length_append, length_marker]

theorem take_messageABytes (plen : Word) (body : List Byte) :
    (messageABytes plen body).take 4 = Config.marker := by
  rw [messageABytes, List.append_assoc, List.take_left' length_marker]

theorem lengthField_messageABytes (plen : Word) (body : List Byte) :
    ((messageABytes plen body).drop 4).take 4 = le32Bytes plen := by
  rw [messageABytes, List.append_assoc, List.drop_left' length_marker,
    List.take_left' (Machine.length_le32Bytes plen)]

theorem drop_messageABytes (plen : Word) (body : List Byte) :
    (messageABytes plen body).drop 8 = body := by
  rw [messageABytes, List.drop_left']
  rw [List.length_append, length_marker, Machine.length_le32Bytes]

theorem take_messageBBytes (rest : List Byte) : (messageBBytes rest).take 4 = Config.marker := by
  rw [messageBBytes, List.take_left' length_marker]

theorem drop_messageBBytes (rest : List Byte) : (messageBBytes rest).drop 4 = rest := by
  rw [messageBBytes, List.drop_left' length_marker]

/-! ### events -/

/-- The length field of a datagram that fits one transaction is exact, and is zero only for no bytes. -/
theorem toNat_datagramLength {data : List Byte} (h : data.length ≤ 65535) :
    (BitVec.ofNat 16 data.length).toNat = data.length := by
  rw [BitVec.toNat_ofNat]
  exact Nat.mod_eq_of_lt (by omega)

theorem datagramLength_ne_zero {data : List Byte} (h : datagramOk data = true) :
    BitVec.ofNat 16 data.length ≠ 0 := fun hn => by
  obtain ⟨h1, h2⟩ := datagramOk_iff.mp h
  have := congrArg BitVec.toNat hn
  rw [toNat_datagramLength h2] at this
  have h0 : (0 : BitVec 16).toNat = 0 := rfl
  omega

theorem decodeEvent_rst {mode : Mode} {enc : Enc} {e : Event} (h : e.ev = 0x1) :
    decodeEvent mode enc e = .instr (.rst e.cfg) := if_pos h

theorem decodeEvent_rxd {mode : Mode} {enc : Enc} {e : Event} (h : e.ev = 0x8)
    (hl : e.data.length = e.len.toNat) :
    decodeEvent mode enc e =
      if e.len = 0 then .instr (.rxdZ e.t) else .instr (selectRxd mode enc e.data e.t) := by
  unfold decodeEvent
  rw [if_neg (by rw [h]; decide), if_pos h, if_neg (not_not.mpr hl)]

theorem decodeEvent_rxd_mismatch {mode : Mode} {enc : Enc} {e : Event} (h : e.ev = 0x8)
    (hl : e.data.length ≠ e.len.toNat) : decodeEvent mode enc e = .rejected .lengthMismatch := by
  unfold decodeEvent
  rw [if_neg (by rw [h]; decide), if_pos h, if_pos hl]

theorem decodeEvent_ato {mode : Mode} {enc : Enc} {e : Event} (h : e.ev = 0x9) :
    decodeEvent mode enc e = .instr .ato := by
  unfold decodeEvent
  rw [if_neg (by rw [h]; decide), if_neg (by rw [h]; decide), if_pos h]

theorem decodeEvent_segp {mode : Mode} {enc : Enc} {e : Event} (h : e.ev = 0xC) :
    decodeEvent mode enc e = .instr (.segp e.seg) := by
  unfold decodeEvent
  rw [if_neg (by rw [h]; decide), if_neg (by rw [h]; decide), if_neg (by rw [h]; decide), if_pos h]

theorem decodeEvent_reserved {mode : Mode} {enc : Enc} {e : Event} (h1 : e.ev ≠ 0x1) (h2 : e.ev ≠ 0x8)
    (h3 : e.ev ≠ 0x9) (h4 : e.ev ≠ 0xC) :
    decodeEvent mode enc e = .rejected (.reservedEventCode e.ev) := by
  unfold decodeEvent
  rw [if_neg h1, if_neg h2, if_neg h3, if_neg h4]

/-- Every operation a transaction decodes to, with the code it came from. -/
theorem decodeEvent_cases {mode : Mode} {enc : Enc} {e : Event} {i : Instr}
    (h : decodeEvent mode enc e = .instr i) :
    (e.ev = 0x1 ∧ i = .rst e.cfg) ∨
    (e.ev = 0x8 ∧ e.data.length = e.len.toNat ∧
      ((e.len = 0 ∧ i = .rxdZ e.t) ∨
       (datagramOk e.data = true ∧ i = selectRxd mode enc e.data e.t))) ∨
    (e.ev = 0x9 ∧ i = .ato) ∨ (e.ev = 0xC ∧ i = .segp e.seg) := by
  by_cases h1 : e.ev = 0x1
  · rw [decodeEvent_rst h1] at h
    exact .inl ⟨h1, (Decoded.instr.inj h).symm⟩
  by_cases h2 : e.ev = 0x8
  · by_cases hl : e.data.length = e.len.toNat
    · rw [decodeEvent_rxd h2 hl] at h
      by_cases hz : e.len = 0
      · rw [if_pos hz] at h
        exact .inr (.inl ⟨h2, hl, .inl ⟨hz, (Decoded.instr.inj h).symm⟩⟩)
      · rw [if_neg hz] at h
        have hn : e.len.toNat ≠ 0 := fun hn => hz (BitVec.eq_of_toNat_eq hn)
        have := e.len.isLt
        exact .inr (.inl ⟨h2, hl, .inr ⟨datagramOk_iff.mpr ⟨by omega, by omega⟩, (Decoded.instr.inj h).symm⟩⟩)
    · rw [decodeEvent_rxd_mismatch h2 hl] at h
      cases h
  by_cases h3 : e.ev = 0x9
  · rw [decodeEvent_ato h3] at h
    exact .inr (.inr (.inl ⟨h3, (Decoded.instr.inj h).symm⟩))
  by_cases h4 : e.ev = 0xC
  · rw [decodeEvent_segp h4] at h
    exact .inr (.inr (.inr ⟨h4, (Decoded.instr.inj h).symm⟩))
  · rw [decodeEvent_reserved h1 h2 h3 h4] at h
    cases h

namespace Machine

/-! ### selection -/

theorem hasMarker_eq_true {data : List Byte} :
    hasMarker data = true ↔ 4 ≤ data.length ∧ data.take 4 = [2, 2, 2, 2] := by
  rw [hasMarker, Bool.and_eq_true, decide_eq_true_eq, beq_iff_eq]
  exact Iff.rfl

theorem hasMarker_eq_false {data : List Byte} :
    hasMarker data = false ↔ data.length < 4 ∨ data.take 4 ≠ [2, 2, 2, 2] := by
  rw [← Bool.not_eq_true, hasMarker_eq_true, not_and_or, not_le]

theorem selectsHeadA_iff {data : List Byte} {s : State} :
    selectsHeadA data s = true ↔ s.mode = .idle ∧ s.cfg.enc = .a ∧ datagramOk data = true := by
  simp only [selectsHeadA, Bool.and_eq_true, decide_eq_true_eq, and_assoc]

theorem selectsHeadB_iff {data : List Byte} {s : State} :
    selectsHeadB data s = true ↔ s.mode = .idle ∧ s.cfg.enc = .b ∧ datagramOk data = true := by
  simp only [selectsHeadB, Bool.and_eq_true, decide_eq_true_eq, and_assoc]

theorem selectsChunk_iff {data : List Byte} {s : State} :
    selectsChunk data s = true ↔ s.mode = .accum ∧ datagramOk data = true := by
  simp only [selectsChunk, Bool.and_eq_true, decide_eq_true_eq]

theorem receiveHeadA_of_selected {o : Oracles} {data : List Byte} {t : Time} {s : State}
    (h1 : s.started = true) (h : selectsHeadA data s = true) :
    receiveHeadA o data t s = headCheck data t (completeA o) s := by
  have hm := (selectsHeadA_iff.mp h).1
  rw [receiveHeadA, onRunning_of_running h1 (by rw [hm]; decide), if_pos h]

theorem receiveHeadB_of_selected {o : Oracles} {data : List Byte} {t : Time} {s : State}
    (h1 : s.started = true) (h : selectsHeadB data s = true) :
    receiveHeadB o data t s = headCheck data t (tryCompleteB o) s := by
  have hm := (selectsHeadB_iff.mp h).1
  rw [receiveHeadB, onRunning_of_running h1 (by rw [hm]; decide), if_pos h]

theorem receiveChunk_of_selected {o : Oracles} {data : List Byte} {t : Time} {s : State}
    (h1 : s.started = true) (h : selectsChunk data s = true) :
    receiveChunk o data t s = appendChunk o data t s := by
  have hm := (selectsChunk_iff.mp h).1
  rw [receiveChunk, onRunning_of_running h1 (by rw [hm]; decide), if_pos h]

/-! ### the head check, with its numbers -/

theorem wbCap_eq : Config.wbCap = 1114111 := rfl

theorem headCheck_bad_marker {data : List Byte} {t : Time} {k : State → Result State} {s : State}
    (h : data.length < 4 ∨ data.take 4 ≠ [2, 2, 2, 2]) :
    headCheck data t k s = .next (drop .badResync s) := if_pos (hasMarker_eq_false.mpr h)

theorem headCheck_short {data : List Byte} {t : Time} {k : State → Result State} {s : State}
    (h1 : 4 ≤ data.length) (h2 : data.take 4 = [2, 2, 2, 2]) (h3 : data.length ≤ 12) :
    headCheck data t k s = .next (drop .undersized s) := by
  unfold headCheck
  rw [if_neg (by rw [hasMarker_eq_true.mpr ⟨h1, h2⟩]; decide), if_pos]
  exact h3

theorem headCheck_accepts {data : List Byte} {t : Time} {k : State → Result State} {s : State}
    (h1 : 12 < data.length) (h2 : data.take 4 = [2, 2, 2, 2]) (h3 : data.length ≤ 65535) :
    headCheck data t k s = k (acceptedAt 0 data t s) := by
  have hc : 0 + data.length ≤ Config.wbCap := by rw [wbCap_eq]; omega
  unfold headCheck
  rw [if_neg (by rw [hasMarker_eq_true.mpr ⟨by omega, h2⟩]; decide), if_neg, acceptBytes_of_le hc]
  · rfl
  · exact Nat.not_le.mpr h1

/-- The bytes gathered after a head was accepted. -/
theorem readBytes_acceptedAt_head (data : List Byte) (t : Time) (s : State) :
    readBytes (acceptedAt 0 data t s).wb 0 (acceptedAt 0 data t s).wbLen = .next data := by
  have := readBytes_after_head s.wb data
  rwa [← Nat.zero_add data.length] at this

/-- The bytes gathered after a chunk was accepted behind `old`. -/
theorem readBytes_acceptedAt_chunk {old : List Byte} (data : List Byte) (t : Time) {s : State}
    (h : readBytes s.wb 0 s.wbLen = .next old) :
    readBytes (acceptedAt s.wbLen data t s).wb 0 (acceptedAt s.wbLen data t s).wbLen = .next (old ++ data) :=
  readBytes_after_accept h

/-! ### stepping -/

theorem step_no_event {s : State} (h : s.input = []) : step s = .next s := by
  simp only [step, fetch, h]

theorem step_of_decoded {s : State} {e : Event} {rest : List Event} {i : Instr}
    (h : s.input = e :: rest) (hd : decodeEvent s.mode s.cfg.enc e = .instr i) :
    step s = exec i { s with input := rest } := by
  simp only [step, fetch, h, hd]

theorem step_of_rejected {s : State} {e : Event} {rest : List Event} {r : DecodeError}
    (h : s.input = e :: rest) (hd : decodeEvent s.mode s.cfg.enc e = .rejected r) :
    step s = .refused (refusalOf r) := by
  simp only [step, fetch, h, hd]

/-- A step that answers a next state had no event, or ran the operation the first event decodes to. -/
theorem step_eq_next {s u : State} (h : step s = .next u) :
    (s.input = [] ∧ u = s) ∨
    ∃ e rest i, s.input = e :: rest ∧ decodeEvent s.mode s.cfg.enc e = .instr i ∧
      exec i { s with input := rest } = .next u := by
  cases hi : s.input with
  | nil =>
    rw [step_no_event hi] at h
    cases h
    exact .inl ⟨rfl, rfl⟩
  | cons e rest =>
    cases hd : decodeEvent s.mode s.cfg.enc e with
    | instr i =>
      rw [step_of_decoded hi hd] at h
      exact .inr ⟨e, rest, i, rfl, hd, h⟩
    | rejected r =>
      rw [step_of_rejected hi hd] at h
      cases h

end Machine

end Sys2Proof
end

