-- ==== Sys2Proof/Laws/Frames.lean ====
section
/-! SUPPORT. What each shared operation leaves alone, and every way an operation of the table can end. -/

namespace Sys2Proof.Machine

/-- An inertial forward writes the trace only. -/
theorem imuForward_writes (g : Segment) (s : State) :
    ∃ os, imuForward g s = { s with outputs := s.outputs ++ os } ∧
      (os = [] ∨ os = [.imu (imuSampleOf g)]) := by
  rcases imuForward_cases g s with ⟨_, he⟩ | ⟨_, he⟩
  · exact ⟨[.imu (imuSampleOf g)], he, .inr rfl⟩
  · exact ⟨[], by simp [he], .inl rfl⟩

/-- SEGP touches neither the demultiplexer nor the configuration; MODE and FAULT_CAUSE change together, with
the FAULT emitted last (43_assembler.md R150, 60_exceptions.md R200). -/
theorem segmentPush_keeps (g : Segment) (s : State) :
    (segmentPush g s).wb = s.wb ∧ (segmentPush g s).wbLen = s.wbLen ∧ (segmentPush g s).wbTime = s.wbTime ∧
    (segmentPush g s).cfg = s.cfg ∧ (segmentPush g s).started = s.started ∧
    (segmentPush g s).input = s.input ∧ (segmentPush g s).crcVerdict = s.crcVerdict ∧
    (segmentPush g s).draws = s.draws ∧
    (((segmentPush g s).mode = s.mode ∧ (segmentPush g s).faultCause = s.faultCause) ∨
      ((segmentPush g s).mode = .faulted ∧ ∃ c, (segmentPush g s).faultCause = faultCode c ∧
        (segmentPush g s).outputs.getLast? = some (.fault (faultCode c)))) := by
  obtain ⟨os, hf, _⟩ := imuForward_writes g s
  rcases segmentPush_cases g s with ⟨_, he⟩ | ⟨i, hi, ⟨_, he⟩ | ⟨_, hm, he⟩ | ⟨_, hm, he⟩⟩ <;> rw [he]
  · exact ⟨rfl, rfl, rfl, rfl, rfl, rfl, rfl, rfl, .inr ⟨rfl, .badIndex, rfl, by simp [raiseFault, emit]⟩⟩
  · rw [hf]; exact ⟨rfl, rfl, rfl, rfl, rfl, rfl, rfl, rfl, .inl ⟨rfl, rfl⟩⟩
  · rw [hf]; exact ⟨rfl, rfl, rfl, rfl, rfl, rfl, rfl, rfl, .inl ⟨rfl, rfl⟩⟩
  · rcases frameRelease_cases (push i g (imuForward g s)) with ⟨_, he⟩ | ⟨fs, _, _, he⟩ <;> rw [he, hf]
    · exact ⟨rfl, rfl, rfl, rfl, rfl, rfl, rfl, rfl, .inr ⟨rfl, .emptySlot, rfl, by simp [raiseFault, emit]⟩⟩
    · exact ⟨rfl, rfl, rfl, rfl, rfl, rfl, rfl, rfl, .inl ⟨rfl, rfl⟩⟩

/-- What a message that reached the buffer leaves alone however it ends. -/
theorem MessageEnd.keeps {o : Oracles} {s u : State} (h : MessageEnd o s u) :
    u.wb = s.wb ∧ u.wbTime = s.wbTime ∧ u.cfg = s.cfg ∧ u.started = s.started ∧ u.input = s.input ∧
    u.crcVerdict = s.crcVerdict ∧ u.draws = s.draws ∧
    ((u.mode ≠ .faulted ∧ u.faultCause = s.faultCause) ∨
      (u.mode = .faulted ∧ ∃ c, u.faultCause = faultCode c ∧
        u.outputs.getLast? = some (.fault (faultCode c)))) := by
  cases h with
  | dropped c => exact ⟨rfl, rfl, rfl, rfl, rfl, rfl, rfl, .inl ⟨by simp, rfl⟩⟩
  | abandoned => exact ⟨rfl, rfl, rfl, rfl, rfl, rfl, rfl, .inl ⟨by simp, rfl⟩⟩
  | waiting => exact ⟨rfl, rfl, rfl, rfl, rfl, rfl, rfl, .inl ⟨by simp, rfl⟩⟩
  | decoded region =>
    unfold handleDecoded
    split
    · exact ⟨rfl, rfl, rfl, rfl, rfl, rfl, rfl, .inl ⟨by simp, rfl⟩⟩
    · rename_i g _
      obtain ⟨h1, _, h3, h4, h5, h6, h7, h8, h9⟩ := segmentPush_keeps g (releaseBuffer s)
      refine ⟨h1, h3, h4, h5, h6, h7, h8, ?_⟩
      rcases h9 with ⟨a, b⟩ | h9
      · exact .inl ⟨by rw [a]; simp, b⟩
      · exact .inr h9

/-- What an RXD leaves alone however it ends: bytes outside the stored datagram, and all but the
demultiplexer's and the assembler's own state. -/
theorem RxdEnd.keeps {o : Oracles} {addr : Nat} {data : List Byte} {t : Time} {s u : State}
    (h : RxdEnd o addr data t s u) :
    (∀ x, (x < addr ∨ addr + data.length ≤ x) → readByte u.wb x = readByte s.wb x) ∧
    (u.wbTime = s.wbTime ∨ u.wbTime = t) ∧ u.cfg = s.cfg ∧ u.started = s.started ∧ u.input = s.input ∧
    u.crcVerdict = s.crcVerdict ∧ u.draws = s.draws ∧
    ((u.mode ≠ .faulted ∧ u.faultCause = s.faultCause) ∨ (s.mode = .faulted ∧ u = s) ∨
      (u.mode = .faulted ∧ ∃ c, u.faultCause = faultCode c ∧
        u.outputs.getLast? = some (.fault (faultCode c)))) := by
  cases h with
  | ignored hm => exact ⟨fun _ _ => rfl, .inl rfl, rfl, rfl, rfl, rfl, rfl, .inr (.inl ⟨hm, rfl⟩)⟩
  | dropped c => exact ⟨fun _ _ => rfl, .inl rfl, rfl, rfl, rfl, rfl, rfl, .inl ⟨by simp, rfl⟩⟩
  | accepted hc he =>
    obtain ⟨h1, h3, h4, h5, h6, h7, h8, h9⟩ := he.keeps
    refine ⟨fun x hx => ?_, .inr h3, h4, h5, h6, h7, h8, ?_⟩
    · rw [h1]; exact readByte_writeBytes_outside hx
    · rcases h9 with h | h
      · exact .inl h
      · exact .inr (.inr h)

/-- ATO and RXD.Z: nothing, or the timeout's drop. -/
theorem exec_ato_cases {s u : State} (h : exec .ato s = .next u) :
    s.started = true ∧ (u = s ∨ (s.mode = .accum ∧ u = drop .accTimeout (emitDiag .probeDiag s))) := by
  obtain ⟨hs, ⟨_, h⟩ | ⟨_, h⟩⟩ := onRunning_eq_next.mp h
  · exact ⟨hs, .inl h⟩
  · cases h
    unfold accumulationTimeout
    split
    · exact ⟨hs, .inr ⟨‹_›, rfl⟩⟩
    · exact ⟨hs, .inl rfl⟩

theorem exec_rxdZ_cases {s u : State} {t : Time} (h : exec (.rxdZ t) s = .next u) :
    s.started = true ∧ u = s := by
  obtain ⟨hs, ⟨_, h⟩ | ⟨_, h⟩⟩ := onRunning_eq_next.mp h
  · exact ⟨hs, h⟩
  · cases h; exact ⟨hs, rfl⟩

/-- RST answers the reset state of a legal configuration (45_control.md R185). -/
theorem exec_rst_cases {s u : State} {c : StrapInputs} (h : exec (.rst c) s = .next u) :
    ∃ k, sampleStraps c = .next k ∧ u = resetWith k s := by
  obtain ⟨k, hk, h⟩ := andThen_eq_next.mp h
  cases h
  exact ⟨k, hk, rfl⟩

end Sys2Proof.Machine
end

