-- ==== Sys2Proof/Laws/PerInstr.lean ====
section
/-! SUPPORT. A statement about every operation of the table as syntax: what its words are. -/

namespace Sys2Proof.Laws.EventCodes

/-- The event code of an operation's row in spec/opcode_table.json; `none` for the wire formats and the
internal operations (30_encoding.md R79). -/
def code : Instr → Option (BitVec 4)
  | .rst _ => some 0x1
  | .rxdZ _ => some 0x8
  | .rxdHA _ _ => some 0x8
  | .rxdHB _ _ => some 0x8
  | .rxdCH _ _ => some 0x8
  | .ato => some 0x9
  | .segp _ => some 0xC
  | .crcv _ _ => none
  | .imuf _ => none
  | .frel => none
  | .msgA _ _ _ => none
  | .msgB _ _ => none

/-- The operation's words match its row: a transaction carries the row's code, a datagram begins with the
marker (the row's match 0x02020202 over its first four bytes, 30_encoding.md R74), and an operation without
words has no code. -/
def Statement (i : Instr) : Prop :=
  (∀ e, encode i = some (.event e) → code i = some e.ev) ∧
  (∀ bytes, encode i = some (.datagram bytes) → code i = none ∧ bytes.take 4 = [2, 2, 2, 2]) ∧
  (encode i = none → code i = none)

theorem statement_of_event {i : Instr} {e : Event} (h : encode i = some (.event e))
    (hc : code i = some e.ev) : Statement i := by
  refine ⟨fun e' h' => ?_, fun bytes h' => ?_, fun h' => ?_⟩ <;> rw [h] at h' <;> cases h'
  exact hc

theorem statement_of_none {i : Instr} (h : encode i = none) (hc : code i = none) : Statement i := by
  refine ⟨fun e' h' => ?_, fun bytes h' => ?_, fun _ => hc⟩ <;> rw [h] at h' <;> cases h'

theorem statement_of_datagram {i : Instr} {bytes : List Byte} (h : encode i = some (.datagram bytes))
    (hc : code i = none) (hb : bytes.take 4 = [2, 2, 2, 2]) : Statement i := by
  refine ⟨fun e' h' => ?_, fun bytes' h' => ?_, fun _ => hc⟩ <;> rw [h] at h' <;> cases h'
  exact ⟨hc, hb⟩

theorem rst (cfg : StrapInputs) : Statement (.rst cfg) := statement_of_event rfl rfl
theorem rxdZ (t : Time) : Statement (.rxdZ t) := statement_of_event rfl rfl
theorem rxdHA (data : List Byte) (t : Time) : Statement (.rxdHA data t) := statement_of_event rfl rfl
theorem rxdHB (data : List Byte) (t : Time) : Statement (.rxdHB data t) := statement_of_event rfl rfl
theorem rxdCH (data : List Byte) (t : Time) : Statement (.rxdCH data t) := statement_of_event rfl rfl
theorem ato : Statement .ato := statement_of_event rfl rfl
theorem segp (seg : Segment) : Statement (.segp seg) := statement_of_event rfl rfl
theorem crcv (region : List Byte) (crcWire : Word) : Statement (.crcv region crcWire) := statement_of_none rfl rfl
theorem imuf (seg : Segment) : Statement (.imuf seg) := statement_of_none rfl rfl
theorem frel : Statement .frel := statement_of_none rfl rfl
theorem msgA (plen : Word) (body : List Byte) (t : Time) : Statement (.msgA plen body t) :=
  statement_of_datagram rfl rfl (take_messageABytes plen body)
theorem msgB (rest : List Byte) (t : Time) : Statement (.msgB rest t) :=
  statement_of_datagram rfl rfl (take_messageBBytes rest)

end Sys2Proof.Laws.EventCodes
end

