-- ==== Sys2Proof/Tests/Slice0.lean ====
section
/-! SUPPORT. The model's own tests (expected values from spec/95_test_vectors.md and from the tables of the
rules), and for every statement with hypotheses a witness that meets them. -/

namespace Sys2Proof.Tests

open Sys2Proof.Machine Sys2Proof.Claims

/-! ### fixtures -/

/-- The answer is a next state with property `p`. -/
def nextIs (r : Result State) (p : State → Bool) : Bool :=
  match r with
  | .next u => p u
  | .fault _ => false
  | .refused _ => false

/-- The answer is this refusal. -/
def refusedIs (r : Result State) (why : Refusal) : Bool :=
  match r with
  | .next _ => false
  | .fault _ => false
  | .refused w => w = why

/-- The status tuple of 95_test_vectors.md: MODE, WB_LEN, MASK, depths, FAULT_CAUSE. -/
def status (s : State) : Mode × Nat × BitVec 12 × List Nat × BitVec 8 :=
  (s.mode, s.wbLen, s.mask, s.slots.toList.map List.length, s.faultCause)

/-- The depths of empty slots. -/
def noDepths : List Nat := List.replicate 12 0

/-- The status of the reset state. -/
def resetStatus : Mode × Nat × BitVec 12 × List Nat × BitVec 8 := (.idle, 0, 0x000, noDepths, 0x00)

/-- Oracle TA of 95_test_vectors.md section 1. -/
def decodeTA (b : List Byte) : DecodeAnswer :=
  if b.length < 11 then .fail
  else
    .seg
      { index := (b.getD 0 0).setWidth 4
        tSec := le32 ((b.drop 3).take 4)
        tNsec := le32 ((b.drop 7).take 4)
        counter := 0
        groups := (List.range (b.getD 1 0).toNat).map fun k =>
          [[{ scriptPoint 0 k 0 with x := (b.getD 0 0).setWidth 32 }]]
        imu := { Segment.zero.imu with valid := (b.getD 2 0).getLsbD 0 } }

/-- Oracle TB of 95_test_vectors.md section 1; with ENC = A it is TA. -/
def probeTB (b : List Byte) : ProbeAnswer :=
  if b.length < 8 then .need 8
  else
    let n := le32 ((b.drop 4).take 4)
    if b.length < n.toNat + 4 then .need (n + 4) else .ok n

def oracleTA : Oracles where
  probe := probeTB
  decode := fun b _ => decodeTA b

def oracleTB : Oracles where
  probe := probeTB
  decode := fun b _ => decodeTA (b.drop 8)

/-- The perverse oracle `probe ≡ answer`. -/
def perverse (answer : ProbeAnswer) : Oracles where
  probe := fun _ => answer
  decode := fun _ _ => .fail

def stateB : State := { State.reset with cfg := { Straps.atReset with enc := .b } }

/-- The head H13 of 95_test_vectors.md 3.5. -/
def head13 : List Byte := [2, 2, 2, 2, 0, 0, 0, 0, 0, 0, 0, 0, 0]

/-- A message in progress: H13 in the buffer. -/
def accumState : State :=
  { stateB with mode := .accum, wb := writeBytes [] 0 head13, wbLen := 13, wbTime := 6 }

def faultedState : State := { State.reset with mode := .faulted, faultCause := 0x81, mask := 0x004 }

/-- A script Segment with one group of one Point. -/
def seg1 (idx : BitVec 4) (sec nsec : BitVec 32) : Segment := scriptSegment idx sec nsec 1 1 false 0

/-- The slots of V-TS-1: slot `i` holds one Segment. -/
def tsSlots : Vector (List Segment) 12 :=
  #v[[seg1 0 5 999999999], [seg1 1 6 0], [seg1 2 5 1000000000], [seg1 3 5 999999999], [seg1 4 6 0],
     [seg1 5 5 1000000000], [seg1 6 5 999999999], [seg1 7 6 0], [seg1 8 5 1000000000],
     [seg1 9 5 999999999], [seg1 10 6 0], [seg1 11 5 1000000000]]

/-- The twelve fronts of `tsSlots`. -/
def tsFronts : List Segment := tsSlots.toList.flatten

/-- Eleven slots of V-TS-1 filled, slot 11 still empty. -/
def elevenState : State :=
  { State.reset with mask := 0x7FF, slots := tsSlots.set 11 [] }

/-- Present one script line to a state. -/
def present1 (line : ScriptLine) (s : State) : State := presentScript [line] s

/-- The Point of 95_test_vectors.md 3.9. -/
def pointSER : Point where
  x := 0x3F800000
  y := 0x40000000
  z := 0x40400000
  intensity := 0x42C80000
  range := 0x41200000
  azimuth := 0x3DCCCCCD
  elevation := 0xBDCCCCCD
  layer := 5
  echo := 1
  index := 0x1234
  reflectivity := 0x3F000000
  lts := 0x0102030405060708

/-- The `segp` line of L1-7 for index `i`: one group of 900 Points (95_test_vectors.md). -/
def exampleSegment (i : Fin 12) : Segment :=
  scriptSegment (BitVec.ofNat 4 i.val) 100 (BitVec.ofNat 32 i.val) 1 900 false 0

/-- Eleven Segments of L1-7 in their slots, layout LEVEL 1. -/
def exampleState : State :=
  { State.reset with
    cfg := { Straps.atReset with layout := ⟨1, false, false⟩ }
    mask := 0x7FF
    slots := Vector.ofFn fun i => if i = 11 then [] else [exampleSegment i] }

/-! ### the numbers of 00_scope.md R9 and R10 -/

theorem test_sizes_are_widths_in_bytes :
    8 * Config.scalarSize = Config.scalarW ∧ 8 * Config.localTimestampSize = Config.localTimestampW ∧
    Config.secW + Config.nsecW = Config.timeW ∧ Config.markerSize = Config.marker.length := by decide

/-- R10: 900 points × 12 = 10,800 points, and LEVEL 1 has the 16-byte stride. -/
theorem test_example_numbers :
    Config.nslots * Config.examplePointsPerSegment = Config.examplePoints ∧
    strideOf ⟨1, false, false⟩ = Config.exampleStride := by decide

/-! ### well-formedness: an ill-formed term for each check -/

theorem test_wf_depth_zero : (Instr.rst { StrapInputs.zero with maxDepth := some 0 }).wellFormed = false := by decide
theorem test_wf_level_five : (Instr.rst { StrapInputs.zero with level := some 5 }).wellFormed = false := by decide
theorem test_wf_level_undriven : (Instr.rst { StrapInputs.zero with level := none }).wellFormed = false := by decide
theorem test_wf_enc_undriven : (Instr.rst { StrapInputs.zero with enc := none }).wellFormed = false := by decide
theorem test_wf_ts_undriven : (Instr.rst { StrapInputs.zero with ts := none }).wellFormed = false := by decide
theorem test_wf_refl_undriven : (Instr.rst { StrapInputs.zero with refl := none }).wellFormed = false := by decide
theorem test_wf_head_a_empty : (Instr.rxdHA [] 0).wellFormed = false := by decide
theorem test_wf_head_b_empty : (Instr.rxdHB [] 0).wellFormed = false := by decide
theorem test_wf_chunk_empty : (Instr.rxdCH [] 0).wellFormed = false := by decide
theorem test_wf_too_long (data : List Byte) (h : data.length = 65536) : (Instr.rxdHA data 0).wellFormed = false := by
  show (decide _ && decide (data.length ≤ _)) = false
  rw [h]
  decide
theorem test_wf_crcv_too_long (region : List Byte) (h : region.length = 1114108) :
    (Instr.crcv region 0).wellFormed = false := by
  show decide (region.length + _ ≤ _) = false
  rw [h]
  decide
theorem test_wf_imuf_without_sample : (Instr.imuf Segment.zero).wellFormed = false := by decide
theorem test_wf_msgA_short : (Instr.msgA 0 [0, 0, 0, 0] 0).wellFormed = false := by decide
theorem test_wf_msgB_short : (Instr.msgB [0, 0, 0, 0, 0, 0, 0, 0] 0).wellFormed = false := by decide
theorem test_wf_smallest :
    (Instr.msgA 1 [0x41, 0x8B, 0x9E, 0xD9, 0xD3] 0).wellFormed = true ∧
    (Instr.rst StrapInputs.zero).wellFormed = true ∧ (Instr.rxdCH [0] 0).wellFormed = true := by decide

/-! ### decoding: words written out from 30_encoding.md R70, R73 and R79 -/

theorem test_decode_rst : decodeTableWord 8 0b0001 = some (.rst StrapInputs.zero) := by decide
theorem test_decode_rxdZ : decodeTableWord 8 0b1000 = some (.rxdZ 0) := by decide
theorem test_decode_ato : decodeTableWord 8 0b1001 = some .ato := by decide
theorem test_decode_segp : decodeTableWord 8 0b1100 = some (.segp Segment.zero) := by decide
theorem test_decode_reserved :
    decodeTableWord 8 0b0000 = none ∧ decodeTableWord 8 0b0010 = none ∧ decodeTableWord 8 0b1010 = none ∧
    decodeTableWord 8 0b1111 = none ∧ decodeTableWord 8 0b10001 = none := by decide

/-- An RXD transaction of two bytes received at 5.7. -/
def rxd2 : Event :=
  { Event.ofCode 0b1000 with len := 0x0002, data := [0x41, 0x42], t := 0x0000000500000007 }

theorem test_decode_rxdHA : decodeEvent .idle .a rxd2 = .instr (.rxdHA [0x41, 0x42] 0x0000000500000007) := by decide
theorem test_decode_rxdHB : decodeEvent .idle .b rxd2 = .instr (.rxdHB [0x41, 0x42] 0x0000000500000007) := by decide
theorem test_decode_rxdCH : decodeEvent .accum .b rxd2 = .instr (.rxdCH [0x41, 0x42] 0x0000000500000007) := by decide
theorem test_decode_rxd_length : decodeEvent .idle .a { rxd2 with len := 3 } = .rejected .lengthMismatch := by decide

/-- R74: the head of a message is the 32-bit value {data[0], .., data[3]} = 0x02020202. -/
theorem test_decode_msgA :
    decodeMessage .a [0x02, 0x02, 0x02, 0x02, 0x0B, 0x01, 0x00, 0x80, 0x41, 0x8B, 0x9E, 0xD9, 0xD3] 9 =
      .instr (.msgA 0x8000010B [0x41, 0x8B, 0x9E, 0xD9, 0xD3] 9) ∧
    decodeTableWord 32 0x02020202 = some (.msgA 0 [0, 0, 0, 0, 0] 0) := by decide
theorem test_decode_msgB :
    decodeMessage .b [0x02, 0x02, 0x02, 0x02, 0x10, 0, 0, 0, 0, 0, 0, 0, 0x77] 9 =
      .instr (.msgB [0x10, 0, 0, 0, 0, 0, 0, 0, 0x77] 9) := by decide
theorem test_decode_not_a_head :
    decodeMessage .a [2, 2, 2, 3, 0, 0, 0, 0, 0, 0, 0, 0, 0] 0 = .rejected .badResync ∧
    decodeMessage .b [2, 2, 2] 0 = .rejected .badResync ∧
    decodeMessage .a [2, 2, 2, 2, 0, 0, 0, 0, 0, 0, 0, 0] 0 = .rejected .undersizedHead := by decide
theorem test_encode_msgA :
    encode (.msgA 1 [0x41, 0x8B, 0x9E, 0xD9, 0xD3] 0) =
      some (.datagram [2, 2, 2, 2, 1, 0, 0, 0, 0x41, 0x8B, 0x9E, 0xD9, 0xD3]) ∧
    encode (.rxdHA [0x41, 0x42] 0x0000000500000007) = some (.event rxd2) ∧ encode .frel = none := by decide

/-! ### the table's words as the first operation after reset -/

theorem test_first_step_rst :
    refusedIs (step (State.reset.withFetchWord 8 0b0001)) .undrivenStrap = false ∧
    nextIs (step (State.reset.withFetchWord 8 0b0001)) (fun u => status u = resetStatus && u.cfg = Straps.atReset) =
      true := by decide
theorem test_first_step_segp :
    step (State.reset.withFetchWord 8 0b1100) = exec (.segp Segment.zero) State.reset ∧
    step (State.reset.withFetchWord 8 0b1001) = exec .ato State.reset ∧
    step (State.reset.withFetchWord 8 0b1000) = exec (.rxdZ 0) State.reset := ⟨rfl, rfl, rfl⟩
/-- The event that carries the message makes the same step as the message (30_encoding.md R73). -/
theorem test_first_step_msgA :
    nextIs (step (State.reset.withFetchWord 32 0x02020202)) (fun u => status u = resetStatus && u.outputs = [.diag 0x03]) =
      true ∧
    nextIs (exec (.msgA 0 [0, 0, 0, 0, 0] 0) State.reset)
      (fun u => status u = resetStatus && u.outputs = [.diag 0x03]) = true := by decide +kernel
theorem test_no_event : step State.reset = .next State.reset := rfl
theorem test_reserved_code : refusedIs (step (State.reset.withFetchWord 8 0b1111)) (.reservedEventCode 0xF) = true := by decide

/-! ### RST (V-R-1, V-R-2) -/

theorem test_rst_abandons_silently :
    nextIs (step (present1 (.rst .b 3 0 false false) accumState))
      (fun u => status u = resetStatus && u.outputs = [] && u.cfg.enc = .b) = true := by decide
theorem test_rst_leaves_faulted :
    nextIs (step (present1 (.rst .a 1 4 true true) faultedState))
      (fun u => status u = resetStatus && u.cfg = { enc := .a, maxDepth := 1, layout := { level := 4, ts := true, refl := true } }) =
      true := by decide

/-! ### RXD.Z (V-Z-1, V-Z-2) -/

theorem test_rxdZ_idle : step (present1 .rxdNone { State.reset with mask := 0x005 }) = .next { State.reset with mask := 0x005 } := rfl
theorem test_rxdZ_accum : step (present1 .rxdNone accumState) = .next accumState := rfl

/-! ### RXD.HA (V-H-4, V-A-3) -/

theorem test_rxdHA_twelve_bytes :
    nextIs (step (present1 (.rxd [2, 2, 2, 2, 0, 0, 0, 0, 0, 0, 0, 0] 1 0) State.reset))
      (fun u => status u = resetStatus && u.outputs = [.diag 0x02]) = true := by decide
theorem test_rxdHA_accepts :
    nextIs (receiveHeadA oracleTA
        [0x02, 0x02, 0x02, 0x02, 0x0B, 0, 0, 0, 0x04, 0x01, 0x01, 0x4D, 0, 0, 0, 0x05, 0, 0, 0, 0x1D, 0x9A, 0xA1, 0xA6] 7
        State.reset)
      (fun u => status u = (.idle, 0, 0x010, [0, 0, 0, 0, 1, 0, 0, 0, 0, 0, 0, 0], 0x00) &&
        u.outputs.map outputText = ["IMU(77.5)"] && u.wbTime = 7) = true := by decide +kernel

/-! ### RXD.HB (V-B-1, V-B-6) -/

theorem test_rxdHB_whole_message :
    nextIs (receiveHeadB oracleTB
        [0x02, 0x02, 0x02, 0x02, 0x13, 0, 0, 0, 0x02, 0x01, 0x00, 0x03, 0, 0, 0, 0x04, 0, 0, 0, 0xC4, 0xA6, 0xA8, 0x1B] 5
        stateB)
      (fun u => status u = (.idle, 0, 0x004, [0, 0, 1, 0, 0, 0, 0, 0, 0, 0, 0, 0], 0x00) && u.outputs = []) =
      true := by decide +kernel
theorem test_rxdHB_cap :
    nextIs (receiveHeadB oracleTB [2, 2, 2, 2, 0xFD, 0xFF, 0x0F, 0, 0, 0, 0, 0, 0] 5 stateB)
      (fun u => status u = resetStatus && u.outputs = [.diag 0x10, .diag 0x06]) = true ∧
    nextIs (receiveHeadB oracleTB [2, 2, 2, 2, 0xFC, 0xFF, 0x0F, 0, 0, 0, 0, 0, 0] 5 stateB)
      (fun u => status u = (.accum, 13, 0x000, noDepths, 0x00) && u.outputs = []) = true := by decide +kernel

/-! ### RXD.CH (a chunk that stays short, V-B-6 on a chunk) -/

theorem test_rxdCH_waits :
    nextIs (receiveChunk (perverse (.need 5)) [2, 2, 2, 2] 9 accumState)
      (fun u => status u = (.accum, 17, 0x000, noDepths, 0x00) && u.wbTime = 9 &&
        readByte u.wb 16 = some 2 && u.outputs = []) = true := by decide +kernel
theorem test_rxdCH_undersized :
    nextIs (receiveChunk (perverse (.ok 100)) [7] 9 accumState)
      (fun u => status u = resetStatus && u.outputs = [.diag 0x02]) = true := by decide +kernel

/-! ### ATO (V-T-1, V-T-3) -/

theorem test_ato_accum :
    nextIs (step (present1 .ato accumState)) (fun u => status u = resetStatus && u.outputs = [.diag 0x10, .diag 0x07]) =
      true := by decide
theorem test_ato_faulted : step (present1 .ato faultedState) = .next faultedState := rfl

/-! ### SEGP (V-S-5, V-F-2's order of outputs) -/

theorem test_segp_bad_index :
    nextIs (step (present1 (.segp 12 1 2 1 1 true 0) State.reset))
      (fun u => status u = (.faulted, 0, 0x000, noDepths, 0x81) && u.outputs = [.fault 0x81]) = true := by decide
theorem test_segp_releases :
    nextIs (step (present1 (.segp 11 5 7 1 1 true 0) elevenState))
      (fun u => status u = resetStatus &&
        u.outputs.map outputText = ["IMU(5.7)", "FRAME(ts=5.7, npoints=12, stride=12)"]) = true := by decide +kernel

/-! ### CRCV (V-CRCV-1, V-CRCV-2) and the function (V-CRC-6, V-CRC-7) -/

theorem test_crcv_accept :
    nextIs (exec (.crcv [0x41] 0xD3D99E8B) State.reset) (fun u => u.crcVerdict = some .accept) = true := by decide
theorem test_crcv_reject :
    nextIs (exec (.crcv [0x41] 0x8B9ED9D3) State.reset) (fun u => u.crcVerdict = some .reject) = true := by decide
theorem test_crc32_ones : crc32 [0xFF, 0xFF, 0xFF, 0xFF] = 0xFFFFFFFF := by decide +kernel
theorem test_crc32_payload : crc32 [3, 1, 0, 0x64, 0, 0, 0, 5, 0, 0, 0] = 0x7ED8E2A0 := by decide +kernel

/-! ### IMUF (V-S-2, and R151's absent sample) -/

theorem test_imuf :
    nextIs (exec (.imuf (scriptSegment 0 7 5 0 1 true 0)) State.reset)
      (fun u => status u = resetStatus && u.outputs.map outputText = ["IMU(7.5)"]) = true := by decide +kernel
theorem test_imuf_absent : exec (.imuf (seg1 3 7 5)) State.reset = .next State.reset := rfl

/-! ### FREL (V-TS-1, and R166's empty slot) -/

theorem test_frel_least_time :
    nextIs (exec .frel { State.reset with slots := tsSlots, mask := 0xFFF })
      (fun u => status u = resetStatus &&
        u.outputs.all fun o => match o with
          | .frame f => f.ts = 0x000000053B9AC9FF && f.npoints = 12 && f.stride = 12 && f.rows = 1 &&
              f.data = (List.range 12).flatMap fun i => BitVec.ofNat 8 i :: List.replicate 11 0
          | _ => false) = true := by
  decide +kernel
theorem test_frel_empty_slot :
    nextIs (exec .frel elevenState)
      (fun u => u.mode = .faulted && u.faultCause = 0x82 && u.outputs = [.fault 0x82] && u.mask = 0x7FF) = true := by decide

/-! ### MSG.A and MSG.B (V-A-2, V-B-7) -/

theorem test_msgA_no_wrap :
    nextIs (exec (.msgA 0xFFFFFFFF [0, 0, 0, 0, 0] 3) State.reset)
      (fun u => status u = resetStatus && u.outputs = [.diag 0x02] && u.wbTime = 3) = true := by decide +kernel
theorem test_msgB_oversized :
    nextIs (receiveMessageB (perverse (.ok 0)) [0, 0, 0, 0, 0, 0, 0, 0, 0] 3 stateB)
      (fun u => status u = resetStatus && u.outputs = [.diag 0x03]) = true := by decide +kernel

/-! ### the serializer (V-SER-4, V-SER-5, V-SER-6) -/

theorem test_serialize_level2_ts :
    serialize ⟨2, true, false⟩ pointSER =
      [0x00, 0x00, 0x80, 0x3F, 0x00, 0x00, 0x00, 0x40, 0x00, 0x00, 0x40, 0x40, 0x00, 0x00, 0xC8, 0x42,
       0x00, 0x00, 0x20, 0x41, 0x08, 0x07, 0x06, 0x05, 0x04, 0x03, 0x02, 0x01] := by decide +kernel
theorem test_serialize_level1_ts_refl :
    serialize ⟨1, true, true⟩ pointSER =
      [0x00, 0x00, 0x80, 0x3F, 0x00, 0x00, 0x00, 0x40, 0x00, 0x00, 0x40, 0x40, 0x00, 0x00, 0xC8, 0x42,
       0x08, 0x07, 0x06, 0x05, 0x04, 0x03, 0x02, 0x01, 0x00, 0x00, 0x00, 0x3F] := by decide +kernel
theorem test_serialize_level4_ts_refl :
    serialize ⟨4, true, true⟩ pointSER =
      [0x00, 0x00, 0x80, 0x3F, 0x00, 0x00, 0x00, 0x40, 0x00, 0x00, 0x40, 0x40, 0x00, 0x00, 0xC8, 0x42,
       0x00, 0x00, 0x20, 0x41, 0xCD, 0xCC, 0xCC, 0x3D, 0xCD, 0xCC, 0xCC, 0xBD, 0x05, 0x00, 0x00, 0x00,
       0x01, 0x00, 0x00, 0x00, 0x34, 0x12, 0x00, 0x00, 0x08, 0x07, 0x06, 0x05, 0x04, 0x03, 0x02, 0x01,
       0x00, 0x00, 0x00, 0x3F] := by decide +kernel

/-! ### the script (30_encoding.md R85) -/

theorem test_script_rst :
    readLine "rst  enc=B depth=2 layout=4+ts+refl".toList = some (.rst .b 2 4 true true) := by decide +kernel
theorem test_script_rxd :
    readLine "rxd 02 4A @ 5.7".toList = some (.rxd [0x02, 0x4A] 5 7) ∧
    readLine "rxd  -      ; the zero-length datagram".toList = some .rxdNone ∧ readLine "ato".toList = some .ato := by
  decide +kernel
theorem test_script_segp :
    readLine "segp idx=11 t=50.100 groups=2 imu=1".toList = some (.segp 11 50 100 2 1 true 0) ∧
    readLine "segp idx=16 t=50.100 groups=2".toList = none := by decide +kernel
theorem test_script_points :
    (scriptSegment 5 1 2 2 2 false 9).groups =
      [[[scriptPoint 5 0 0, scriptPoint 5 0 1]], [[scriptPoint 5 1 0, scriptPoint 5 1 1]]] ∧
    (scriptPoint 5 1 0).x = 5 ∧ (scriptPoint 5 1 0).y = 1 ∧ (scriptPoint 5 1 0).z = 0 := by decide

/-! ### witnesses: states and operands that meet the hypotheses of each statement together -/

/-- The reset state with events presented. -/
def withInput (es : List Event) (s : State) : State := { s with input := es }

/-- The transaction that carries the datagram H13. -/
def rxd13 : Event := rxdEvent head13 7

theorem inv_withInput {s : State} (h : Inv s) (es : List Event) : Inv (withInput es s) :=
  ⟨h.depth, h.mask, h.buffer, h.mode, h.cause⟩

theorem reset_inv : Inv State.reset :=
  ⟨by decide, by decide, ⟨Memory.wf_nil, by decide, by decide⟩, by decide, by decide⟩

theorem stateB_inv : Inv stateB :=
  ⟨by decide, by decide, ⟨Memory.wf_nil, by decide, by decide⟩, by decide, by decide⟩

theorem accumState_inv : Inv accumState :=
  ⟨by decide, by decide, ⟨by decide, by decide, by decide⟩, by decide, by decide⟩

theorem faultedState_inv : Inv { faultedState with mask := 0 } :=
  ⟨by decide, by decide, ⟨Memory.wf_nil, by decide, by decide⟩, by decide, by decide⟩

theorem wit_StepRunsTheSelectedOperation :
    State.reset.input = [] ∧
    (withInput [rxd13] State.reset).input = rxd13 :: [] ∧
    decodeEvent (withInput [rxd13] State.reset).mode (withInput [rxd13] State.reset).cfg.enc rxd13 =
      .instr (.rxdHA head13 7) ∧
    decodeEvent .idle .a (Event.ofCode 0xF) = .rejected (.reservedEventCode 0xF) := ⟨rfl, rfl, by decide, by decide⟩

theorem wit_ReservedEventCodesAreRefused :
    ∀ ev ∈ ([0x0, 0x2, 0x7, 0xA, 0xB, 0xD, 0xF] : List (BitVec 4)),
      (withInput [Event.ofCode ev] State.reset).input = Event.ofCode ev :: [] ∧
      ev ≠ 0x1 ∧ ev ≠ 0x8 ∧ ev ≠ 0x9 ∧ ev ≠ 0xC := by decide

theorem wit_CodeModeEncAndLengthSelectTheOperation :
    (Event.ofCode 0x1).ev = 0x1 ∧ (Event.ofCode 0x9).ev = 0x9 ∧ (Event.ofCode 0xC).ev = 0xC ∧
    (rxdEvent [] 0).ev = 0x8 ∧ (rxdEvent [] 0).data.length = (rxdEvent [] 0).len.toNat ∧ (rxdEvent [] 0).len = 0 ∧
    rxd2.ev = 0x8 ∧ rxd2.data.length = rxd2.len.toNat ∧ rxd2.len ≠ 0 ∧
    (rxdEvent [0] 0).data.length = (rxdEvent [0] 0).len.toNat ∧ (rxdEvent [0] 0).len ≠ 0 := by decide

/-- The greatest length an RXD can carry. -/
theorem wit_longest_datagram :
    (rxdEvent (List.replicate 65535 0) 0).data.length = (rxdEvent (List.replicate 65535 0) 0).len.toNat ∧
    datagramOk (List.replicate 65535 0) = true := by
  have h : (List.replicate 65535 (0 : Byte)).length = 65535 := List.length_replicate
  constructor
  · show (List.replicate 65535 (0 : Byte)).length = (BitVec.ofNat 16 (List.replicate 65535 (0 : Byte)).length).toNat
    rw [h]
    decide
  · rw [datagramOk_iff, h]
    decide

theorem wit_DecodeOfEncodeIsTheOperation :
    (Instr.msgA 1 [0x41, 0x8B, 0x9E, 0xD9, 0xD3] 5).wellFormed = true ∧
    encode (.msgA 1 [0x41, 0x8B, 0x9E, 0xD9, 0xD3] 5) =
      some (.datagram [2, 2, 2, 2, 1, 0, 0, 0, 0x41, 0x8B, 0x9E, 0xD9, 0xD3]) ∧
    (Instr.rxdHA [0x41, 0x42] 0x0000000500000007).wellFormed = true ∧
    encode (.rxdHA [0x41, 0x42] 0x0000000500000007) = some (.event rxd2) ∧
    (Instr.msgA 1 [0x41, 0x8B, 0x9E, 0xD9, 0xD3] 5).selectedBy .idle .a = true ∧
    (Instr.rxdHA [0x41, 0x42] 0x0000000500000007).selectedBy .idle .a = true ∧
    (Instr.rst StrapInputs.zero).selectedBy .faulted .b = true ∧ Instr.ato.selectedBy .accum .b = true ∧
    (Instr.segp Segment.zero).selectedBy .accum .b = true := by decide

theorem wit_EncodeOfDecodedDatagramIsTheDatagram :
    decodeMessage .a head13 5 = .instr (.msgA 0 [0, 0, 0, 0, 0] 5) ∧
    decodeMessage .b head13 5 = .instr (.msgB [0, 0, 0, 0, 0, 0, 0, 0, 0] 5) := by decide

theorem wit_RstGivesTheResetState :
    { StrapInputs.zero with refl := none }.legal = false ∧
    (0 : BitVec 3).toNat < 5 ∧ (4 : BitVec 3).toNat < 5 ∧ (none : Option Nat) ≠ some 0 ∧ some 1 ≠ some 0 := by decide

theorem wit_IllegalStrapsAreRefused :
    { StrapInputs.zero with ts := none }.ts = none ∧
    (StrapInputs.zero.enc.isSome ∧ StrapInputs.zero.level.isSome ∧ StrapInputs.zero.ts.isSome ∧
      StrapInputs.zero.refl.isSome) ∧
    { StrapInputs.zero with maxDepth := some 0 }.maxDepth = some 0 ∧
    StrapInputs.zero.maxDepth ≠ some 0 ∧
    (∃ l, { StrapInputs.zero with level := some 5 }.level = some l ∧ 5 ≤ l.toNat) ∧
    (∃ l, { StrapInputs.zero with level := some 7 }.level = some l ∧ 5 ≤ l.toNat) :=
  ⟨rfl, by decide, rfl, by decide, ⟨5, rfl, by decide⟩, ⟨7, rfl, by decide⟩⟩

theorem wit_NoBehaviourBeforeTheFirstRst :
    { State.reset with started := false }.started = false ∧ ¬ IsRst .ato := ⟨rfl, (fun ⟨_, h⟩ => by cases h)⟩

/-- An operation that is no RST and answers a next state: for every statement about such a step. -/
theorem wit_next_state : ¬ IsRst .ato ∧ exec .ato State.reset = .next State.reset ∧ State.reset.mode ≠ .faulted ∧
    IsDemuxOp .ato := ⟨(fun ⟨_, h⟩ => by cases h), rfl, by decide, .inr (.inr (.inr (.inr (.inl rfl))))⟩

theorem wit_OnlyRstChangesTheConfiguration : ¬ IsRst .ato ∧ exec .ato State.reset = .next State.reset :=
  ⟨wit_next_state.1, wit_next_state.2.1⟩

theorem wit_ZeroLengthDatagramChangesNothing : State.reset.started = true ∧ accumState.started = true := ⟨rfl, rfl⟩

theorem wit_BadHeadsAreDroppedByCause :
    State.reset.started = true ∧ State.reset.mode = .idle ∧
    (1 ≤ [(0x02 : Byte)].length ∧ [(0x02 : Byte)].length ≤ 65535 ∧ [(0x02 : Byte)].length < 4) ∧
    ([2, 2, 2, 3] : List Byte).take 4 ≠ [2, 2, 2, 2] ∧
    (4 ≤ ([2, 2, 2, 2] : List Byte).length ∧ ([2, 2, 2, 2] : List Byte).take 4 = [2, 2, 2, 2] ∧
      ([2, 2, 2, 2] : List Byte).length ≤ 12) ∧
    (4 ≤ (head13.take 12).length ∧ (head13.take 12).take 4 = [2, 2, 2, 2] ∧ (head13.take 12).length ≤ 12) := by decide

theorem wit_HeadOfEncodingACompletes :
    State.reset.started = true ∧ State.reset.mode = .idle ∧ State.reset.cfg.enc = .a ∧
    1 ≤ [(0 : Byte)].length ∧ head13.length = 13 ∧ head13.length ≤ 65535 := by decide

theorem wit_HeadOfEncodingBCompletes :
    stateB.started = true ∧ stateB.mode = .idle ∧ stateB.cfg.enc = .b ∧
    1 ≤ [(0 : Byte)].length ∧ head13.length = 13 ∧ head13.length ≤ 65535 := by decide

theorem wit_ChunkCompletes :
    accumState.started = true ∧ accumState.mode = .accum ∧ 1 ≤ [(0 : Byte)].length ∧ [(0 : Byte)].length ≤ 65535 ∧
    readBytes accumState.wb 0 accumState.wbLen = .next head13 :=
  ⟨rfl, rfl, by decide, by decide, readBytes_after_head [] head13⟩

theorem wit_TimeoutDropsOnlyAMessageInProgress :
    accumState.started = true ∧ accumState.mode = .accum ∧ State.reset.started = true ∧ State.reset.mode = .idle :=
  ⟨rfl, rfl, rfl, rfl⟩

theorem wit_MessageAIsItsHeadDatagram :
    State.reset.started = true ∧ State.reset.mode = .idle ∧ State.reset.cfg.enc = .a ∧
    12 < 8 + ([0, 0, 0, 0, 0] : List Byte).length ∧ 8 + ([0, 0, 0, 0, 0] : List Byte).length ≤ 65535 := by decide

theorem wit_MessageBIsItsDatagram :
    stateB.started = true ∧ stateB.mode = .idle ∧ stateB.cfg.enc = .b ∧
    12 < 4 + (head13.drop 4).length ∧ 4 + (head13.drop 4).length ≤ 65535 ∧
    accumState.mode = .accum ∧ readBytes accumState.wb 0 accumState.wbLen = .next head13 :=
  ⟨rfl, rfl, rfl, by decide, by decide, rfl, readBytes_after_head [] head13⟩

theorem wit_UnselectedFormsAreRefusedAndNeverStepped :
    accumState.started = true ∧ accumState.mode ≠ .faulted ∧ accumState.mode = .accum ∧
    stateB.started = true ∧ stateB.mode ≠ .faulted ∧ stateB.cfg.enc = .b ∧
    State.reset.mode ≠ .faulted ∧ State.reset.cfg.enc = .a ∧ State.reset.mode = .idle := by decide

theorem wit_RejectedCrcNeverReachesTheDecoder : crc32 [] ≠ 1 := by decide

theorem wit_ValidMessageReachesTheDecoder :
    State.reset.started = true ∧ State.reset.mode = .idle ∧ State.reset.cfg.enc = .a ∧
    1 ≤ [(0x41 : Byte)].length ∧ 12 + [(0x41 : Byte)].length ≤ 65535 := by decide

/-- Bits at the ends of the marker, of the length field, and of payload and CRC of a 13-byte message. -/
theorem wit_SingleBitCorruptionNeverReachesTheDecoder :
    State.reset.started = true ∧ State.reset.mode = .idle ∧ State.reset.cfg.enc = .a ∧
    1 ≤ [(0x41 : Byte)].length ∧ 12 + [(0x41 : Byte)].length ≤ 65535 ∧
    ∀ k ∈ [0, 31, 32, 63, 64, 71, 72, 103], k < 8 * (12 + [(0x41 : Byte)].length) := by decide

/-- The message of P4 line 8: TA answers a Segment of index 12. -/
def message12 : List Byte :=
  [0x02, 0x02, 0x02, 0x02, 0x0B, 0, 0, 0, 0x0C, 0x01, 0x00, 0x01, 0, 0, 0, 0x01, 0, 0, 0, 0xEE, 0x2F, 0x49, 0xFA]

theorem nextIs_exists {r : Result State} {p : State → Bool} (h : nextIs r p = true) : ∃ u, r = .next u ∧ p u = true := by
  cases r with
  | next u => exact ⟨u, rfl, h⟩
  | fault _ => cases h
  | refused _ => cases h

/-- A decoder that breaks its contract: a message of `n` bytes before its CRC, a Segment of index 12. -/
def badIndexOracle (n : Word) : Oracles where
  probe := fun _ => .ok n
  decode := fun _ _ => .seg (seg1 12 1 2)

/-- All three clauses: a head of encoding A, a head of encoding B of 9 + 4 bytes, and the trailing CRC as a
chunk behind 13 bytes. -/
theorem wit_RxdFaultsOnlyOnABrokenContract :
    (Inv State.reset ∧ State.reset.mode ≠ .faulted ∧
      ∃ u, receiveHeadA oracleTA message12 1 State.reset = .next u ∧ u.mode = .faulted) ∧
    (Inv stateB ∧ stateB.mode ≠ .faulted ∧
      ∃ u, receiveHeadB (badIndexOracle 9) (head13.take 9 ++ le32Bytes (crc32 (head13.take 9))) 1 stateB = .next u ∧
        u.mode = .faulted) ∧
    (Inv accumState ∧ accumState.mode ≠ .faulted ∧
      ∃ u, receiveChunk (badIndexOracle 13) (le32Bytes (crc32 head13)) 1 accumState = .next u ∧
        u.mode = .faulted) := by
  obtain ⟨u, h, hp⟩ := nextIs_exists (r := receiveHeadA oracleTA message12 1 State.reset)
    (p := fun u => u.mode = .faulted) (by decide +kernel)
  obtain ⟨v, h', hp'⟩ := nextIs_exists
    (r := receiveHeadB (badIndexOracle 9) (head13.take 9 ++ le32Bytes (crc32 (head13.take 9))) 1 stateB)
    (p := fun u => u.mode = .faulted) (by decide +kernel)
  obtain ⟨w, h'', hp''⟩ := nextIs_exists (r := receiveChunk (badIndexOracle 13) (le32Bytes (crc32 head13)) 1 accumState)
    (p := fun u => u.mode = .faulted) (by decide +kernel)
  exact ⟨⟨reset_inv, by decide, u, h, by simpa using hp⟩, ⟨stateB_inv, by decide, v, h', by simpa using hp'⟩,
    ⟨accumState_inv, by decide, w, h'', by simpa using hp''⟩⟩

theorem wit_RxdEndsIdleWaitingOrFaulted :
    State.reset.started = true ∧ State.reset.mode = .idle ∧ accumState.started = true ∧ accumState.mode = .accum ∧
    (∃ u, receiveHeadA oracleTA message12 1 State.reset = .next u) ∧
    (∃ u, receiveHeadB (perverse (.need 5)) head13 1 stateB = .next u) ∧
    ∃ u, receiveChunk (perverse (.need 5)) head13 1 accumState = .next u := by
  obtain ⟨u, h, _⟩ := nextIs_exists (r := receiveHeadA oracleTA message12 1 State.reset) (p := fun _ => true)
    (by decide +kernel)
  obtain ⟨v, h', _⟩ := nextIs_exists (r := receiveHeadB (perverse (.need 5)) head13 1 stateB) (p := fun _ => true)
    (by decide +kernel)
  obtain ⟨w, h'', _⟩ := nextIs_exists (r := receiveChunk (perverse (.need 5)) head13 1 accumState)
    (p := fun _ => true) (by decide +kernel)
  exact ⟨rfl, rfl, rfl, rfl, ⟨u, h⟩, ⟨v, h'⟩, ⟨w, h''⟩⟩

theorem wit_DemuxFrame : IsDemuxOp .ato ∧ exec .ato State.reset = .next State.reset :=
  ⟨wit_next_state.2.2.2, wit_next_state.2.1⟩

/-- A head that stores 13 bytes, and the first address behind them; a chunk behind 13 bytes, and the address
just below it. -/
theorem wit_MemoryOutsideTheDatagramIsUnchanged :
    ¬ IsRst (.rxdHA head13 7) ∧ (∃ u, exec (.rxdHA head13 7) State.reset = .next u) ∧
    (storedRange (.rxdHA head13 7) State.reset).1 + (storedRange (.rxdHA head13 7) State.reset).2 ≤ 13 ∧
    12 < (storedRange (.rxdCH [1] 7) accumState).1 := by
  obtain ⟨u, h, _⟩ := nextIs_exists (r := exec (.rxdHA head13 7) State.reset) (p := fun _ => true) (by decide +kernel)
  exact ⟨(fun ⟨_, h⟩ => by cases h), ⟨u, h⟩, by decide, by decide⟩

theorem wit_StaleBytesAreNeverRead :
    ¬ IsRst (.rxdHA head13 7) ∧ SameUpToStaleBytes State.reset { State.reset with wb := [(0, 1)] } :=
  ⟨(fun ⟨_, h⟩ => by cases h), rfl, fun a h => absurd h (Nat.not_lt_zero a)⟩

theorem wit_CrcDetectsSingleBitErrors :
    crcVerdictOf [0x41] 0xD3D99E8B = .accept ∧ (∀ k ∈ [0, 7], k < 8 * [(0x41 : Byte)].length) ∧
    ∀ k ∈ [0, 31], k < 32 := by decide

theorem wit_CrcvAnswersTheComparison : State.reset.started = true ∧ State.reset.mode ≠ .faulted := by decide

theorem wit_SegpOutOfRangeRaisesBadIndex :
    State.reset.started = true ∧ State.reset.mode ≠ .faulted ∧ 11 < (seg1 12 1 2).index.toNat ∧
    11 < (seg1 15 1 2).index.toNat := by decide

theorem wit_SegpWithoutGroupsStoresNothing :
    State.reset.started = true ∧ State.reset.mode ≠ .faulted ∧
    (scriptSegment 11 1 2 0 1 true 0).index.toNat ≤ 11 ∧ (scriptSegment 11 1 2 0 1 true 0).groups = [] := by decide

theorem wit_SegpPushesOntoItsSlot :
    State.reset.started = true ∧ State.reset.mode ≠ .faulted ∧
    (seg1 0 1 2).index.toNat = (0 : Fin 12).val ∧ (seg1 11 1 2).index.toNat = (11 : Fin 12).val ∧
    (seg1 0 1 2).groups ≠ [] ∧ (seg1 11 1 2).groups ≠ [] ∧
    (State.reset.mask ||| BitVec.twoPow 12 0) ≠ 0xFFF ∧ (State.reset.mask ||| BitVec.twoPow 12 11) ≠ 0xFFF := by decide

theorem wit_SegpOfTheLastBitReleasesTheFrame :
    elevenState.started = true ∧ elevenState.mode ≠ .faulted ∧
    (seg1 11 5 1000000000).index.toNat = (11 : Fin 12).val ∧ (seg1 11 5 1000000000).groups ≠ [] ∧
    1 ≤ elevenState.cfg.maxDepth ∧ (elevenState.mask ||| BitVec.twoPow 12 11) = 0xFFF ∧ tsFronts.length = 12 ∧
    ∀ j : Fin 12, tsFronts[j.val]? = if j = 11 then some (seg1 11 5 1000000000) else (slot elevenState j).head? := by
  decide +kernel

theorem wit_ImufForwardsTheSample :
    State.reset.started = true ∧ State.reset.mode ≠ .faulted ∧ (scriptSegment 0 1 2 0 1 true 0).imu.valid = true ∧
    (seg1 0 1 2).imu.valid = false := by decide

theorem wit_SlotKeepsTheNewestPushes :
    (∀ g ∈ [seg1 0 1 0, seg1 0 2 0, seg1 5 3 0], Storable g) ∧ present State.reset 11 = false ∧
    (∀ g ∈ [seg1 0 1 0, seg1 0 2 0, seg1 5 3 0], g.index.toNat ≠ (11 : Fin 12).val) ∧ slot State.reset 0 = [] := by
  refine ⟨fun g hg => ?_, by decide, by decide, by decide⟩
  simp only [List.mem_cons, List.not_mem_nil, or_false] at hg
  rcases hg with rfl | rfl | rfl <;> exact ⟨by decide, by decide⟩

/-- Eleven of the fronts of V-TS-1, and the twelfth. -/
theorem wit_FrameFiresExactlyWhenAllTwelveAreTouched :
    State.reset.mask = 0 ∧ (∀ i, slot State.reset i = []) ∧ 1 ≤ State.reset.cfg.maxDepth ∧
    (∀ g ∈ tsFronts.take 11, Storable g) ∧ (∃ i : Fin 12, ∀ g ∈ tsFronts.take 11, g.index.toNat ≠ i.val) ∧
    Storable (seg1 11 1 2) ∧
    ∀ i : Fin 12, (seg1 11 1 2).index.toNat = i.val ∨ ∃ h ∈ tsFronts.take 11, h.index.toNat = i.val := by
  have hst : ∀ g ∈ tsFronts.take 11, g.index.toNat < 12 ∧ g.groups ≠ [] := by decide +kernel
  exact ⟨rfl, by decide, by decide, hst, ⟨11, by decide +kernel⟩, ⟨by decide, by decide⟩, by decide +kernel⟩

theorem wit_AssemblerFrame :
    IsAssemblerOp (.segp Segment.zero) ∧ exec (.segp Segment.zero) State.reset = .next State.reset :=
  ⟨.inl ⟨_, rfl⟩, rfl⟩

theorem wit_FrelReleasesTheFrontsOrRaisesEmptySlot :
    { State.reset with slots := tsSlots }.started = true ∧ { State.reset with slots := tsSlots }.mode ≠ .faulted ∧
    tsFronts.length = 12 ∧ (∀ j : Fin 12, (slot { State.reset with slots := tsSlots } j).head? = tsFronts[j.val]?) ∧
    ∃ j, slot elevenState j = [] := by decide +kernel

theorem wit_FrameTimeIsTheLeastCaptureTime : tsFronts ≠ [] := by decide

theorem wit_RecordFieldsStandAtTheirOffsets :
    1 ≤ (1 : Fin 5).val ∧ 2 ≤ (2 : Fin 5).val ∧ 3 ≤ (3 : Fin 5).val ∧ 4 ≤ (4 : Fin 5).val ∧
    (Layout.mk 4 true true).ts = true ∧ (Layout.mk 4 true true).refl = true := by decide

/-- The last address of the buffer. -/
theorem wit_WrittenBytesReadBackAndNothingElseChanges :
    Memory.wf [] ∧ 1114110 + [(0x41 : Byte)].length ≤ Config.wbCap := ⟨Memory.wf_nil, by decide⟩

theorem wit_CanonicalMemoriesThatReadAlikeAreEqual :
    Memory.wf (writeBytes [] 0 head13) ∧ Memory.wf (cellsAt 0 head13) ∧
    ∀ a, readByte (writeBytes [] 0 head13) a = readByte (cellsAt 0 head13) a :=
  ⟨by decide, by decide, fun _ => rfl⟩

theorem wit_ReadsOutsideTheMessageAreRefused :
    State.reset.wbLen < 0 + 1 ∧ accumState.wbLen < 13 + 1 ∧ accumState.wbLen < 10 + 4 := by decide

theorem wit_StepKeepsTheInvariant :
    Inv (withInput [rxd13] State.reset) ∧ ∃ u, step (withInput [rxd13] State.reset) = .next u := by
  obtain ⟨u, h, _⟩ := nextIs_exists (r := step (withInput [rxd13] State.reset)) (p := fun _ => true) (by decide +kernel)
  exact ⟨inv_withInput reset_inv _, u, h⟩

theorem wit_StepAnswersEveryEvent :
    Inv (withInput [Event.ofCode 0x1] { faultedState with mask := 0 }) ∧
    (Event.ofCode 0x1).ev = 0x1 ∧ (Event.ofCode 0x1).cfg.legal = true ∧
    Inv (withInput [rxd13] accumState) ∧ accumState.started = true ∧
    (Event.ofCode 0x9).ev = 0x9 ∧ (Event.ofCode 0xC).ev = 0xC ∧ rxd13.ev = 0x8 ∧ rxd13.data.length = rxd13.len.toNat :=
  ⟨inv_withInput faultedState_inv _, rfl, by decide, inv_withInput accumState_inv _, rfl, rfl, rfl, rfl, by decide⟩

theorem wit_EmptySlotIsUnreachable :
    Inv (withInput [rxd13] State.reset) ∧ ∃ u, step (withInput [rxd13] State.reset) = .next u :=
  wit_StepKeepsTheInvariant

theorem wit_FaultedIsSticky :
    faultedState.started = true ∧ faultedState.mode = .faulted ∧ ¬ IsRst .ato ∧
    (withInput [rxd13] faultedState).input = rxd13 :: [] ∧
    decodeEvent .faulted .a rxd13 = .instr (.rxdHA head13 7) ∧ ¬ IsRst (.rxdHA head13 7) :=
  ⟨rfl, rfl, wit_next_state.1, rfl, by decide, (fun ⟨_, h⟩ => by cases h)⟩

theorem wit_OutputsAreOnlyAppended : exec .ato State.reset = .next State.reset := rfl

theorem wit_PresenceBitsAreClearedOnlyTogether : exec .ato State.reset = .next State.reset := rfl

/-- Both clauses: a step that leaves FAULTED alone, and the fault itself. -/
theorem wit_FaultCauseIsWrittenOnlyByTheFault :
    ¬ IsRst .ato ∧ exec .ato State.reset = .next State.reset ∧ State.reset.mode ≠ .faulted ∧
    ∃ u, exec (.segp (seg1 12 1 2)) State.reset = .next u ∧ u.mode = .faulted :=
  ⟨wit_next_state.1, rfl, by decide, _, rfl, rfl⟩

theorem wit_EndToEndExampleReleasesItsFrame :
    exampleState.started = true ∧ exampleState.mode ≠ .faulted ∧ exampleState.cfg.layout = ⟨1, false, false⟩ ∧
    1 ≤ exampleState.cfg.maxDepth ∧ (exampleSegment 11).index.toNat = (11 : Fin 12).val ∧
    (exampleSegment 11).groups ≠ [] ∧ (exampleState.mask ||| BitVec.twoPow 12 11) = 0xFFF ∧
    (List.ofFn exampleSegment).length = 12 ∧
    (∀ j : Fin 12, (List.ofFn exampleSegment)[j.val]? =
      if j = 11 then some (exampleSegment 11) else (slot exampleState j).head?) ∧
    ∀ h ∈ List.ofFn exampleSegment, (pointsOf h).length = Config.examplePointsPerSegment := by
  refine ⟨rfl, by decide, rfl, by decide, by decide, by decide, by decide, by simp, fun j => ?_, fun h hh => ?_⟩
  · fin_cases j <;> rfl
  · obtain ⟨i, rfl⟩ := (List.mem_ofFn' _ _).mp hh
    simp [exampleSegment, scriptSegment, pointsOf, Config.examplePointsPerSegment]

end Sys2Proof.Tests
end

section
/-! PROOFS. The statements of 00_scope.md: the little-endian words (R12), the step (R13) and the end-to-end
example (R10), with the lemmas they share. -/

namespace Sys2Proof.Machine

open Sys2Proof.Claims

/-! ### Little-endian bytes -/

/-- A field of `len` bits is the value divided down to its first bit. -/
theorem extractLsb'_eq_ofNat_div {w : Nat} (v : BitVec w) (start len : Nat) :
    v.extractLsb' start len = BitVec.ofNat len (v.toNat / 2 ^ start) := by
  rw [← Nat.shiftRight_eq_div_pow]
  rfl

theorem toNat_le32_four (b0 b1 b2 b3 : Byte) :
    (le32 [b0, b1, b2, b3]).toNat =
      b0.toNat + 2 ^ 8 * b1.toNat + 2 ^ 16 * b2.toNat + 2 ^ 24 * b3.toNat := by
  rw [toNat_le32 (by simp)]
  simp only [leValue]
  omega

theorem le32Bytes_eq_extractLsb' (v : Word) :
    le32Bytes v = [v.extractLsb' 0 8, v.extractLsb' 8 8, v.extractLsb' 16 8, v.extractLsb' 24 8] := by
  simp [le32Bytes, leBytes, extractLsb'_eq_ofNat_div, Nat.div_div_eq_div_mul]

/-! ### Where an operation answers a next state -/

theorem onRunning_answers {s : State} {k : Result State} (hs : s.started = true)
    (hk : s.mode ≠ .faulted → ∃ u, k = .next u) : ∃ u, onRunning s k = .next u := by
  by_cases hm : s.mode = .faulted
  · exact ⟨s, onRunning_of_faulted hs hm⟩
  · rw [onRunning_of_running hs hm]
    exact hk hm

/-- The straps of a legal configuration can be sampled (10_state.md R40). -/
theorem sampleStraps_of_legal {c : StrapInputs} (h : c.legal = true) : ∃ k, sampleStraps c = .next k := by
  obtain ⟨enc, depth, level, ts, refl⟩ := c
  simp only [StrapInputs.legal, Bool.and_eq_true, Option.isSome_iff_exists] at h
  obtain ⟨⟨⟨⟨⟨enc, rfl⟩, ⟨ts, rfl⟩⟩, ⟨refl, rfl⟩⟩, hlevel⟩, hdepth⟩ := h
  obtain ⟨level, rfl, hl⟩ : ∃ l, level = some l ∧ l.toNat < 5 := by
    cases level with
    | none => cases hlevel
    | some l => exact ⟨l, rfl, of_decide_eq_true hlevel⟩
  have hd : depth.getD Config.defaultDepth ≠ 0 := by
    cases depth with
    | none => decide
    | some d => exact Nat.pos_iff_ne_zero.mp (of_decide_eq_true hdepth)
  simp only [sampleStraps, if_neg hd, dif_pos hl]
  exact ⟨_, rfl⟩

theorem exec_rst_answers {c : StrapInputs} {s : State} (h : c.legal = true) :
    ∃ u, exec (.rst c) s = .next u := by
  obtain ⟨k, hk⟩ := sampleStraps_of_legal h
  exact ⟨resetWith k s, andThen_eq_next.mpr ⟨k, hk, rfl⟩⟩

theorem exec_rxdZ_answers {t : Time} {s : State} (hs : s.started = true) :
    ∃ u, exec (.rxdZ t) s = .next u := onRunning_answers hs fun _ => ⟨_, rfl⟩

theorem exec_ato_answers {s : State} (hs : s.started = true) : ∃ u, exec .ato s = .next u :=
  onRunning_answers hs fun _ => ⟨_, rfl⟩

theorem exec_segp_answers {g : Segment} {s : State} (hs : s.started = true) :
    ∃ u, exec (.segp g) s = .next u := onRunning_answers hs fun _ => ⟨_, rfl⟩

/-- The bytes of the message gathered so far can be read (20_memory.md R55). -/
theorem readBytes_of_bufferInv {s : State} (h : BufferInv s) :
    ∃ bytes, readBytes s.wb 0 s.wbLen = .next bytes := by
  obtain ⟨_, _, hread⟩ := h
  exact readBytes_exists fun k hk => by rw [Nat.zero_add]; exact hread k hk

/-- A head is dropped by the head check, or its bytes are accepted and `k` runs on them. -/
theorem headCheck_answers {data : List Byte} {t : Time} {k : State → Result State} {s : State}
    (hd : datagramOk data = true) (hk : 12 < data.length → ∃ u, k (acceptedAt 0 data t s) = .next u) :
    ∃ u, headCheck data t k s = .next u := by
  obtain ⟨_, hmax⟩ := datagramOk_iff.mp hd
  by_cases hm : 4 ≤ data.length ∧ data.take 4 = [2, 2, 2, 2]
  · obtain ⟨h4, hmarker⟩ := hm
    by_cases hshort : data.length ≤ 12
    · exact ⟨_, headCheck_short h4 hmarker hshort⟩
    · have hlong : 12 < data.length := Nat.lt_of_not_le hshort
      rw [headCheck_accepts hlong hmarker hmax]
      exact hk hlong
  · rw [not_and_or, not_le] at hm
    exact ⟨_, headCheck_bad_marker hm⟩

theorem completeA_head_answers (o : Oracles) {data : List Byte} (t : Time) (s : State)
    (h : 12 < data.length) : ∃ u, completeA o (acceptedAt 0 data t s) = .next u := by
  have hlen : 8 ≤ (acceptedAt 0 data t s).wbLen := by simp only [acceptedAt]; omega
  exact ⟨_, completeA_of_readBytes (readBytes_acceptedAt_head data t s) hlen⟩

theorem tryCompleteB_head_answers (o : Oracles) (data : List Byte) (t : Time) (s : State) :
    ∃ u, tryCompleteB o (acceptedAt 0 data t s) = .next u :=
  ⟨_, tryCompleteB_of_readBytes (readBytes_acceptedAt_head data t s)⟩

/-- A chunk is dropped by the buffer bound, or probed behind the readable bytes gathered (40_demux.md R111). -/
theorem appendChunk_answers {o : Oracles} {data : List Byte} {t : Time} {s : State} (hb : BufferInv s) :
    ∃ u, appendChunk o data t s = .next u := by
  obtain ⟨old, hold⟩ := readBytes_of_bufferInv hb
  unfold appendChunk
  split
  · exact ⟨_, rfl⟩
  · next hcap =>
    rw [acceptBytes_of_le (Nat.le_of_not_lt hcap), andThen_next]
    exact ⟨_, tryCompleteB_of_readBytes (readBytes_acceptedAt_chunk data t hold)⟩

theorem exec_rxdHA_answers {data : List Byte} {t : Time} {s : State} (hs : s.started = true)
    (hsel : selectsHeadA data s = true) : ∃ u, exec (.rxdHA data t) s = .next u := by
  obtain ⟨_, _, hd⟩ := selectsHeadA_iff.mp hsel
  have hexec : exec (.rxdHA data t) s = headCheck data t (completeA Config.oracles) s :=
    receiveHeadA_of_selected hs hsel
  rw [hexec]
  exact headCheck_answers hd (completeA_head_answers _ t s)

theorem exec_rxdHB_answers {data : List Byte} {t : Time} {s : State} (hs : s.started = true)
    (hsel : selectsHeadB data s = true) : ∃ u, exec (.rxdHB data t) s = .next u := by
  obtain ⟨_, _, hd⟩ := selectsHeadB_iff.mp hsel
  have hexec : exec (.rxdHB data t) s = headCheck data t (tryCompleteB Config.oracles) s :=
    receiveHeadB_of_selected hs hsel
  rw [hexec]
  exact headCheck_answers hd fun _ => tryCompleteB_head_answers _ data t s

theorem exec_rxdCH_answers {data : List Byte} {t : Time} {s : State} (hs : s.started = true)
    (hb : BufferInv s) (hsel : selectsChunk data s = true) : ∃ u, exec (.rxdCH data t) s = .next u := by
  have hexec : exec (.rxdCH data t) s = appendChunk Config.oracles data t s :=
    receiveChunk_of_selected hs hsel
  rw [hexec]
  exact appendChunk_answers hb

/-- Whichever form MODE and ENC select, an RXD of at least one byte is answered (40_demux.md R119). -/
theorem exec_selectRxd_answers {data : List Byte} {t : Time} {s : State} (hs : s.started = true)
    (hb : BufferInv s) (hd : datagramOk data = true) :
    ∃ u, exec (selectRxd s.mode s.cfg.enc data t) s = .next u := by
  cases hm : s.mode with
  | idle =>
    cases he : s.cfg.enc with
    | a => exact exec_rxdHA_answers hs (selectsHeadA_iff.mpr ⟨hm, he, hd⟩)
    | b => exact exec_rxdHB_answers hs (selectsHeadB_iff.mpr ⟨hm, he, hd⟩)
  | accum => exact exec_rxdCH_answers hs hb (selectsChunk_iff.mpr ⟨hm, hd⟩)
  | faulted =>
    cases s.cfg.enc with
    | a => exact ⟨s, onRunning_of_faulted hs hm⟩
    | b => exact ⟨s, onRunning_of_faulted hs hm⟩

/-! ### The frame's size -/

@[simp] theorem length_blockFields (level : Fin 5) (p : Point) :
    (blockFields level p).length = scalarCount level := by
  fin_cases level <;> rfl

/-- Every record is STRIDE bytes long (44_frame_release.md R172). -/
@[simp] theorem length_serialize (l : Layout) (p : Point) : (serialize l p).length = strideOf l := by
  have hblock : ((blockFields l.level p).flatMap le32Bytes).length = baseOf l.level := by
    simp [List.length_flatMap, baseOf, Nat.mul_comm]
  rw [serialize, strideOf, List.length_append, List.length_append, hblock, apply_ite List.length,
    apply_ite List.length, length_le64Bytes, length_le32Bytes]
  rfl

theorem strideOf_pos (l : Layout) : 0 < strideOf l := by
  have hbase : 0 < baseOf l.level := by
    generalize l.level = level
    revert level
    decide
  unfold strideOf
  omega

theorem length_frameData (l : Layout) (fs : List Segment) :
    (frameData l fs).length = (fs.flatMap pointsOf).length * strideOf l := by
  simp [frameData, List.length_flatMap]

/-- A frame has as many points as its front Segments (44_frame_release.md R171). -/
theorem frameOf_npoints (l : Layout) (fs : List Segment) :
    (frameOf l fs).npoints = (fs.flatMap pointsOf).length := by
  show (frameData l fs).length / strideOf l = _
  rw [length_frameData, Nat.mul_div_cancel _ (strideOf_pos l)]

theorem length_flatMap_pointsOf_of_forall {fs : List Segment} {n : Nat}
    (h : ∀ g ∈ fs, (pointsOf g).length = n) : (fs.flatMap pointsOf).length = fs.length * n := by
  rw [List.length_flatMap, List.map_congr_left h, List.map_const', List.sum_replicate, smul_eq_mul]

/-! ### The push that completes the mask -/

theorem imuForward_eq_forwarded (g : Segment) (s : State) : imuForward g s = forwarded g s := rfl

/-- An inertial forward changes the trace only. -/
theorem imuForward_frame (g : Segment) (s : State) :
    (imuForward g s).slots = s.slots ∧ (imuForward g s).mask = s.mask ∧ (imuForward g s).cfg = s.cfg := by
  obtain ⟨os, he, _⟩ := imuForward_writes g s
  rw [he]
  exact ⟨rfl, rfl, rfl⟩

/-- SEGP with the bit that completes the mask releases the FRAME of the fronts, the pushed Segment among them,
and cuts (43_assembler.md R153, 44_frame_release.md R165). -/
theorem segmentPush_of_complete {s : State} {g : Segment} {i : Fin 12} {fs : List Segment}
    (hd : 1 ≤ s.cfg.maxDepth) (hi : g.index.toNat = i.val) (hg : g.groups ≠ [])
    (hm : s.mask ||| BitVec.twoPow 12 i.val = 0xFFF) (hl : fs.length = 12)
    (hfs : ∀ j : Fin 12, fs[j.val]? = if j = i then some g else (slot s j).head?) :
    segmentPush g s =
      emit (.frame (frameOf s.cfg.layout fs)) (hardCut (push i g (imuForward g s))) := by
  obtain ⟨hslots, hmask, hcfg⟩ := imuForward_frame g s
  have hfull : (push i g (imuForward g s)).mask = 0xFFF := by rw [push_mask, hmask, hm]
  have hfronts : ∀ j : Fin 12, (slot (push i g (imuForward g s)) j).head? = fs[j.val]? := by
    intro j
    rw [slot_push, hfs, slot_congr hslots j]
    split
    · exact head?_pushQueue (by rwa [hcfg]) _ _
    · rfl
  have hrelease := frameRelease_of_fronts hl hfronts
  rw [push_cfg, hcfg] at hrelease
  rcases segmentPush_cases g s with ⟨hbad, _⟩ | ⟨i', hi', ⟨hnil, _⟩ | ⟨_, hpart, _⟩ | ⟨_, _, he⟩⟩
  · have := i.isLt
    omega
  · exact absurd hnil hg
  · obtain rfl : i' = i := Fin.ext (hi'.symm.trans hi)
    exact absurd hfull hpart
  · obtain rfl : i' = i := Fin.ext (hi'.symm.trans hi)
    rw [he, hrelease]

end Sys2Proof.Machine

namespace Sys2Proof.Proofs

open Sys2Proof.Machine Sys2Proof.Claims

/-- Settles O49: `le32` by its formula, and the bytes of a word by division. -/
theorem littleEndianWords : Obligations.LittleEndianWords :=
  ⟨toNat_le32_four, fun v => ⟨le32Bytes_eq_extractLsb' v, le32_le32Bytes v⟩⟩

/-- Settles O53, by the event's code: each legal event decodes to an operation that answers. -/
theorem stepAnswersEveryEvent : Obligations.StepAnswersEveryEvent := by
  intro s e rest hinv hin hev
  have hbuf : BufferInv { s with input := rest } := hinv.buffer
  rcases hev with ⟨hrst, hlegal⟩ | ⟨hs, hato | hsegp | ⟨hrxd, hlen⟩⟩
  · rw [step_of_decoded hin (decodeEvent_rst hrst)]
    exact exec_rst_answers hlegal
  · rw [step_of_decoded hin (decodeEvent_ato hato)]
    exact exec_ato_answers hs
  · rw [step_of_decoded hin (decodeEvent_segp hsegp)]
    exact exec_segp_answers hs
  · have hdec := decodeEvent_rxd (mode := s.mode) (enc := s.cfg.enc) hrxd hlen
    by_cases hz : e.len = 0
    · rw [if_pos hz] at hdec
      rw [step_of_decoded hin hdec]
      exact exec_rxdZ_answers hs
    · rw [if_neg hz] at hdec
      have hpos : e.len.toNat ≠ 0 := fun hn => hz (BitVec.eq_of_toNat_eq hn)
      have hmax := e.len.isLt
      have hd : datagramOk e.data = true := datagramOk_iff.mpr ⟨by omega, by omega⟩
      rw [step_of_decoded hin hdec]
      exact exec_selectRxd_answers (s := { s with input := rest }) hs hbuf hd

/-- Settles O59: the completing SEGP releases the frame of twelve fronts of 900 Points, 16 bytes each. -/
theorem endToEndExampleReleasesItsFrame : Obligations.EndToEndExampleReleasesItsFrame := by
  intro s g i fs hs hmode hlayout hdepth hi hg hmask hlen hfs hpoints
  have hpush := segmentPush_of_complete hdepth hi hg hmask hlen hfs
  have hexec : exec (.segp g) s = .next (segmentPush g s) := onRunning_of_running hs hmode
  have hcount : (fs.flatMap pointsOf).length = 10800 := by
    rw [length_flatMap_pointsOf_of_forall hpoints, hlen, Config.examplePointsPerSegment]
  have hstride : strideOf s.cfg.layout = 16 := by rw [hlayout]; rfl
  refine ⟨frameOf s.cfg.layout fs, ⟨segmentPush g s, hexec, ?_⟩, ?_, hstride, ?_, rfl⟩
  · rw [hpush, ← imuForward_eq_forwarded, emit_outputs, hardCut_outputs, push_outputs]
  · rw [frameOf_npoints, hcount, Config.examplePoints]
  · show (frameData s.cfg.layout fs).length = 172800
    rw [length_frameData, hcount, hstride]

/-- Settles O1, by what a step does with no event, with one that decodes and with one that does not. -/
theorem stepRunsTheSelectedOperation : Obligations.StepRunsTheSelectedOperation := fun _ =>
  ⟨step_no_event, fun _ _ hin => ⟨fun _ => step_of_decoded hin, fun _ => step_of_rejected hin⟩⟩

end Sys2Proof.Proofs
end
section
/-! PROOFS. The statements of 10_state.md: the state after reset (R48), illegal straps (R40), the canonical
working buffer (R44), what an operation does to the mask and to FAULT_CAUSE (R36, R38, R41), and the invariant
kept by every step, with the lemmas they share. -/

namespace Sys2Proof.Machine

open Sys2Proof.Claims

/-! ### The canonical form -/

/-- Over rising addresses the list holds exactly the cells that read back. -/
theorem mem_iff_readByte {m : Memory} (h : m.Pairwise fun c d => c.1 < d.1) (c : Host.Cell) :
    c ∈ m ↔ readByte m c.1 = some c.2 := by
  induction m with
  | nil => simp [readByte_nil]
  | cons d m ih =>
    obtain ⟨hd, hm⟩ := List.pairwise_cons.mp h
    rw [List.mem_cons, readByte_cons, ih hm]
    by_cases hc : c.1 = d.1
    · have hnone : readByte m c.1 = none := readByte_below fun e he => hc ▸ hd e he
      rw [if_pos hc, hnone]
      simp [Prod.ext_iff, hc, eq_comm]
    · have hne : c ≠ d := fun he => hc (congrArg Prod.fst he)
      rw [if_neg hc, or_iff_right hne]

/-! ### Straps -/

theorem sampleStraps_of_undriven {c : StrapInputs}
    (h : c.enc = none ∨ c.level = none ∨ c.ts = none ∨ c.refl = none) :
    sampleStraps c = .refused .undrivenStrap := by
  unfold sampleStraps
  split
  · next henc hlevel hts hrefl => simp [henc, hlevel, hts, hrefl] at h
  · rfl

/-- With ENC and LAYOUT driven, MAX_DEPTH is tested, then LEVEL (10_state.md R40). -/
theorem sampleStraps_of_driven {c : StrapInputs} {level : BitVec 3} (henc : c.enc.isSome)
    (hlevel : c.level = some level) (hts : c.ts.isSome) (hrefl : c.refl.isSome) :
    (c.maxDepth = some 0 → sampleStraps c = .refused .illegalDepth) ∧
    (c.maxDepth ≠ some 0 → 5 ≤ level.toNat → sampleStraps c = .refused .illegalLevel) := by
  obtain ⟨enc, henc⟩ := Option.isSome_iff_exists.mp henc
  obtain ⟨ts, hts⟩ := Option.isSome_iff_exists.mp hts
  obtain ⟨refl, hrefl⟩ := Option.isSome_iff_exists.mp hrefl
  simp only [sampleStraps, henc, hlevel, hts, hrefl]
  refine ⟨fun hd => by simp [hd], fun hd hl => ?_⟩
  have hdepth : c.maxDepth.getD Config.defaultDepth ≠ 0 := by
    cases hc : c.maxDepth with
    | none => decide
    | some d => exact fun h0 => hd (hc.trans (congrArg some h0))
  rw [if_neg hdepth, dif_neg (Nat.not_lt.mpr hl)]

theorem exec_rst_of_refused {c : StrapInputs} {r : Refusal} (h : sampleStraps c = .refused r) (s : State) :
    exec (.rst c) s = .refused r := by
  show andThen (sampleStraps c) _ = _
  rw [h]
  rfl

theorem one_le_maxDepth_of_sampleStraps {c : StrapInputs} {k : Straps} (h : sampleStraps c = .next k) :
    1 ≤ k.maxDepth := by
  unfold sampleStraps at h
  split at h
  · dsimp only at h
    split at h
    · cases h
    · next hdepth =>
      split at h
      · cases h
        exact Nat.pos_of_ne_zero hdepth
      · cases h
  · cases h

/-! ### What an operation does to the mask, FAULT_CAUSE and the faults of the trace -/

/-- `u` has every presence bit of `s`, and no fatal fault was taken between them. -/
structure Quiet (s u : State) : Prop where
  mask : ∀ j, present s j = true → present u j = true
  mode : s.mode ≠ .faulted → u.mode ≠ .faulted
  cause : u.faultCause = s.faultCause
  trace : ∀ c, Output.fault c ∈ u.outputs → Output.fault c ∈ s.outputs

theorem Quiet.refl (s : State) : Quiet s s := ⟨fun _ => id, id, rfl, fun _ => id⟩

theorem Quiet.releaseBuffer {s u : State} (h : Quiet s u) : Quiet s (releaseBuffer u) :=
  ⟨h.mask, fun _ => by simp, h.cause, h.trace⟩

theorem Quiet.emit {s u : State} (h : Quiet s u) {o : Output} (ho : ∀ c, o ≠ .fault c) :
    Quiet s (emit o u) := by
  refine ⟨h.mask, h.mode, h.cause, fun c hc => ?_⟩
  rcases List.mem_append.mp hc with hc | hc
  · exact h.trace c hc
  · exact absurd (List.mem_singleton.mp hc).symm (ho c)

theorem Quiet.emitDiag {s u : State} (h : Quiet s u) (c : DiagCause) : Quiet s (emitDiag c u) :=
  h.emit fun _ => by simp

theorem Quiet.drop {s u : State} (h : Quiet s u) (c : DiagCause) : Quiet s (drop c u) :=
  (h.emitDiag c).releaseBuffer

theorem Quiet.imuForward {s u : State} (h : Quiet s u) (g : Segment) : Quiet s (imuForward g u) := by
  rcases imuForward_cases g u with ⟨_, he⟩ | ⟨_, he⟩ <;> rw [he]
  · exact h.emit fun _ => by simp
  · exact h

theorem Quiet.push {s u : State} (h : Quiet s u) (i : Fin 12) (g : Segment) : Quiet s (push i g u) :=
  ⟨fun j hj => by rw [present_push, h.mask j hj, Bool.true_or], h.mode, h.cause, h.trace⟩

/-- Everything an operation other than RST can do to the mask, FAULT_CAUSE and the faults of the trace: nothing
but set presence bits, take the fatal fault last, or release a frame and cut (10_state.md R36, R41). -/
inductive OpEnd (s : State) : State → Prop where
  | quiet {u : State} : Quiet s u → OpEnd s u
  | faulted {u : State} (c : FaultCause) : Quiet s u → OpEnd s (raiseFault c u)
  | cut {u : State} (f : Frame) : Quiet s u → OpEnd s (emit (.frame f) (hardCut u))

theorem Quiet.frameRelease_ends {s u : State} (h : Quiet s u) : OpEnd s (frameRelease u) := by
  rcases frameRelease_cases u with ⟨_, he⟩ | ⟨fs, _, _, he⟩ <;> rw [he]
  · exact .faulted _ h
  · exact .cut _ h

theorem Quiet.segmentPush_ends {s u : State} (h : Quiet s u) (g : Segment) : OpEnd s (segmentPush g u) := by
  rcases segmentPush_cases g u with ⟨_, he⟩ | ⟨i, _, ⟨_, he⟩ | ⟨_, _, he⟩ | ⟨_, _, he⟩⟩ <;> rw [he]
  · exact .faulted _ h
  · exact .quiet (h.imuForward g)
  · exact .quiet ((h.imuForward g).push i g)
  · exact ((h.imuForward g).push i g).frameRelease_ends

theorem MessageEnd.opEnd {o : Oracles} {s v u : State} (h : MessageEnd o v u) (hq : Quiet s v) :
    OpEnd s u := by
  cases h with
  | dropped c => exact .quiet (hq.drop c)
  | abandoned => exact .quiet ((hq.emitDiag _).drop _)
  | waiting => exact .quiet ⟨hq.mask, fun _ => by simp, hq.cause, hq.trace⟩
  | decoded region =>
    unfold handleDecoded
    split
    · exact .quiet (hq.releaseBuffer.emitDiag _)
    · exact hq.releaseBuffer.segmentPush_ends _

theorem RxdEnd.opEnd {o : Oracles} {addr : Nat} {data : List Byte} {t : Time} {s u : State}
    (h : RxdEnd o addr data t s u) : OpEnd s u := by
  have hq := Quiet.refl s
  cases h with
  | ignored _ => exact .quiet hq
  | dropped c => exact .quiet (hq.drop c)
  | accepted _ he => exact he.opEnd ⟨hq.mask, hq.mode, hq.cause, hq.trace⟩

theorem onRunning_opEnd {s u v : State} (h : onRunning s (.next v) = .next u) (hv : OpEnd s v) :
    OpEnd s u := by
  obtain ⟨_, ⟨_, rfl⟩ | ⟨_, he⟩⟩ := onRunning_eq_next.mp h
  · exact .quiet (.refl _)
  · cases he
    exact hv

/-- Every operation but RST ends in one of the ways of `OpEnd`. -/
theorem exec_opEnd {i : Instr} {s u : State} (hi : ¬ IsRst i) (h : exec i s = .next u) : OpEnd s u := by
  have hq := Quiet.refl s
  cases i with
  | rst cfg => exact absurd ⟨cfg, rfl⟩ hi
  | rxdZ t => exact onRunning_opEnd h (.quiet hq)
  | rxdHA data t =>
    obtain ⟨_, hend, _⟩ := receiveHeadA_ends h
    exact hend.opEnd
  | rxdHB data t =>
    obtain ⟨_, hend, _⟩ := receiveHeadB_ends h
    exact hend.opEnd
  | rxdCH data t =>
    obtain ⟨_, hend, _⟩ := receiveChunk_ends h
    exact hend.opEnd
  | ato =>
    obtain ⟨_, rfl | ⟨_, rfl⟩⟩ := exec_ato_cases h
    · exact .quiet hq
    · exact .quiet ((hq.emitDiag _).drop _)
  | segp seg => exact onRunning_opEnd h (hq.segmentPush_ends seg)
  | crcv region crcWire => exact onRunning_opEnd h (.quiet ⟨hq.mask, hq.mode, hq.cause, hq.trace⟩)
  | imuf seg => exact onRunning_opEnd h (.quiet (hq.imuForward seg))
  | frel => exact onRunning_opEnd h hq.frameRelease_ends
  | msgA plen body t =>
    obtain ⟨_, hend⟩ := receiveMessageA_ends h
    exact hend.opEnd
  | msgB rest t =>
    obtain ⟨_, hend⟩ := receiveMessageB_ends h
    exact hend.opEnd

/-- A mask is zero afterwards, or has every bit it had. -/
theorem OpEnd.mask {s u : State} (h : OpEnd s u) :
    u.mask = 0 ∨ ∀ j, present s j = true → present u j = true := by
  cases h with
  | quiet hq => exact .inr hq.mask
  | faulted c hq => exact .inr hq.mask
  | cut f hq => exact .inl rfl

/-- From outside FAULTED: FAULT_CAUSE is kept, or the fault is taken last. -/
theorem OpEnd.cause {s u : State} (h : OpEnd s u) (hm : s.mode ≠ .faulted) :
    (u.mode ≠ .faulted ∧ u.faultCause = s.faultCause) ∨
    (u.mode = .faulted ∧ ∃ c, u.faultCause = faultCode c ∧
      u.outputs.getLast? = some (.fault (faultCode c))) := by
  cases h with
  | quiet hq => exact .inl ⟨hq.mode hm, hq.cause⟩
  | faulted c hq => exact .inr ⟨rfl, c, rfl, by simp⟩
  | cut f hq => exact .inl ⟨hq.mode hm, hq.cause⟩

/-- A FAULT that is new in the trace stands in FAULT_CAUSE. -/
theorem OpEnd.trace {s u : State} (h : OpEnd s u) {c : BitVec 8} (hc : Output.fault c ∈ u.outputs) :
    Output.fault c ∈ s.outputs ∨ u.faultCause = c := by
  cases h with
  | quiet hq => exact .inl (hq.trace c hc)
  | faulted c' hq =>
    rcases List.mem_append.mp hc with hc | hc
    · exact .inl (hq.trace c hc)
    · exact .inr (Output.fault.inj (List.mem_singleton.mp hc)).symm
  | cut f hq => exact .inl ((hq.emit (o := .frame f) fun _ => by simp).trace c hc)

/-! ### The invariant: what does not touch it -/

theorem faultCode_eq (c : FaultCause) : faultCode c = 0x81 ∨ faultCode c = 0x82 := by
  cases c
  · exact .inl rfl
  · exact .inr rfl

/-- A state with an empty accumulator and an empty buffer, as a reset leaves it. -/
theorem inv_of_empty {s : State} (hd : 1 ≤ s.cfg.maxDepth) (hslots : ∀ i, slot s i = []) (hmask : s.mask = 0)
    (hmode : s.mode = .idle) (hwb : s.wb = []) (hlen : s.wbLen = 0) (hcause : s.faultCause = 0) : Inv s where
  depth := ⟨hd, fun i => by simp [hslots]⟩
  mask := ⟨by rw [hmask]; decide, fun i => by simp [present, hmask, hslots]⟩
  buffer := ⟨hwb ▸ Memory.wf_nil, by omega, fun a ha => by omega⟩
  mode := ⟨fun _ => hlen, fun ha => by rw [hmode] at ha; cases ha⟩
  cause := by rw [CauseInv, hcause, hmode]; rfl

theorem inv_resetWith {k : Straps} (hk : 1 ≤ k.maxDepth) (s : State) : Inv (resetWith k s) :=
  inv_of_empty hk (slot_resetWith · k s) rfl rfl rfl rfl rfl

/-- The presented events are no part of the invariant. -/
theorem Inv.with_input {s : State} (h : Inv s) (es : List Event) : Inv { s with input := es } :=
  ⟨h.depth, h.mask, h.buffer, h.mode, h.cause⟩

theorem Inv.emit {s : State} (h : Inv s) (o : Output) : Inv (emit o s) :=
  ⟨h.depth, h.mask, h.buffer, h.mode, h.cause⟩

theorem Inv.imuForward {s : State} (h : Inv s) (g : Segment) : Inv (imuForward g s) := by
  rcases imuForward_cases g s with ⟨_, he⟩ | ⟨_, he⟩ <;> rw [he]
  · exact h.emit _
  · exact h

/-! ### The invariant: SEGP -/

theorem Inv.raise_badIndex {s : State} (h : Inv s) : Inv (raiseFault .badIndex s) :=
  ⟨h.depth, h.mask, h.buffer, ⟨fun hm => by simp at hm, fun hm => by simp at hm⟩, rfl⟩

theorem Inv.hardCut {s : State} (h : Inv s) : Inv (hardCut s) where
  depth := ⟨h.depth.1, fun i => by simp⟩
  mask := ⟨by simp, fun i => by simp [present]⟩
  buffer := h.buffer
  mode := h.mode
  cause := h.cause

/-- The cut forgets a push before it. -/
theorem hardCut_push (i : Fin 12) (g : Segment) (s : State) : hardCut (push i g s) = hardCut s := rfl

/-- After a push a slot is filled exactly under a set bit (10_state.md R35, 43_assembler.md R152). -/
theorem Inv.present_push_iff {s : State} (h : Inv s) (i : Fin 12) (g : Segment) (j : Fin 12) :
    present (push i g s) j = true ↔ slot (push i g s) j ≠ [] := by
  obtain ⟨hdepth, _⟩ := h.depth
  obtain ⟨_, hbits⟩ := h.mask
  rw [present_push, slot_push]
  by_cases hj : j = i
  · simp [hj, pushQueue_ne_nil hdepth]
  · simpa [hj] using hbits j

theorem Inv.depth_push {s : State} (h : Inv s) (i : Fin 12) (g : Segment) : DepthInv (push i g s) := by
  obtain ⟨hdepth, hlen⟩ := h.depth
  refine ⟨hdepth, fun j => ?_⟩
  rw [slot_push]
  split
  · exact length_pushQueue_le _ _ _
  · exact hlen j

theorem present_of_full {s : State} (h : s.mask = 0xFFF) (i : Fin 12) : present s i = true := by
  rw [present, h]
  exact (BitVec.getLsbD_allOnes (v := 12)).trans (decide_eq_true i.isLt)

/-- The push that completes the mask leaves no slot empty, so the release cuts and raises no EMPTY_SLOT
(10_state.md R38, 44_frame_release.md R166). -/
theorem Inv.frameRelease_push {s : State} (h : Inv s) (i : Fin 12) (g : Segment)
    (hm : (push i g s).mask = 0xFFF) : Inv (frameRelease (push i g s)) := by
  rcases frameRelease_cases (push i g s) with ⟨⟨j, hj⟩, _⟩ | ⟨fs, _, _, he⟩
  · exact absurd hj ((h.present_push_iff i g j).mp (present_of_full hm j))
  · rw [he, hardCut_push]
    exact h.hardCut.emit _

theorem Inv.push {s : State} (h : Inv s) (i : Fin 12) (g : Segment) (hm : (push i g s).mask ≠ 0xFFF) :
    Inv (push i g s) :=
  ⟨h.depth_push i g, ⟨hm, h.present_push_iff i g⟩, h.buffer, h.mode, h.cause⟩

theorem Inv.segmentPush {s : State} (h : Inv s) (g : Segment) : Inv (segmentPush g s) := by
  rcases segmentPush_cases g s with ⟨_, he⟩ | ⟨i, _, ⟨_, he⟩ | ⟨_, hm, he⟩ | ⟨_, hm, he⟩⟩ <;> rw [he]
  · exact h.raise_badIndex
  · exact h.imuForward g
  · exact (h.imuForward g).push i g hm
  · exact (h.imuForward g).frameRelease_push i g hm

/-! ### The invariant: the demultiplexer -/

/-- What holds while a datagram is processed: the invariant but for MODE, outside FAULTED. Every end of a
message restores MODE. -/
structure Loaded (s : State) : Prop where
  depth : DepthInv s
  mask : MaskInv s
  buffer : BufferInv s
  cause : s.faultCause = 0

/-- The buffer holds the beginning of a message of encoding B (40_demux.md R117). -/
def HoldsHeadB (s : State) : Prop :=
  s.cfg.enc = .b ∧ 13 ≤ s.wbLen ∧ ∀ k < Config.markerSize, readByte s.wb k = Config.marker[k]?

theorem Inv.loaded {s : State} (h : Inv s) (hm : s.mode ≠ .faulted) : Loaded s :=
  ⟨h.depth, h.mask, h.buffer, h.cause.trans (if_neg hm)⟩

theorem Loaded.emitDiag {s : State} (h : Loaded s) (c : DiagCause) : Loaded (emitDiag c s) :=
  ⟨h.depth, h.mask, h.buffer, h.cause⟩

theorem Loaded.inv_releaseBuffer {s : State} (h : Loaded s) : Inv (releaseBuffer s) where
  depth := h.depth
  mask := h.mask
  buffer := ⟨h.buffer.1, Nat.zero_le _, fun a ha => absurd ha (Nat.not_lt_zero a)⟩
  mode := ⟨fun _ => rfl, fun hm => by simp at hm⟩
  cause := h.cause

theorem Loaded.inv_drop {s : State} (h : Loaded s) (c : DiagCause) : Inv (drop c s) :=
  (h.emitDiag c).inv_releaseBuffer

theorem Loaded.inv_wait {s : State} (h : Loaded s) (hb : HoldsHeadB s) : Inv (setMode .accum s) :=
  ⟨h.depth, h.mask, h.buffer, ⟨fun hm => by simp at hm, fun _ => hb⟩, h.cause⟩

theorem Loaded.inv_finishMessage {s : State} (h : Loaded s) (o : Oracles) (region : List Byte) (wire : Word) :
    Inv (finishMessage o region wire s) := by
  rcases finishMessage_cases o region wire s with ⟨_, he⟩ | ⟨_, he⟩ <;> rw [he]
  · exact h.inv_drop _
  · unfold handleDecoded
    split
    · exact h.inv_releaseBuffer.emit _
    · exact h.inv_releaseBuffer.segmentPush _

theorem Loaded.inv_completeExact {o : Oracles} {total off len : Nat} {s u : State} (h : Loaded s)
    (hu : completeExact o total off len s = .next u) : Inv u := by
  unfold completeExact at hu
  split at hu
  · cases hu
    exact h.inv_drop _
  · split at hu
    · cases hu
      exact h.inv_drop _
    · obtain ⟨region, _, hu⟩ := andThen_eq_next.mp hu
      obtain ⟨wire, _, hu⟩ := andThen_eq_next.mp hu
      cases hu
      exact h.inv_finishMessage o region wire

theorem Loaded.inv_completeA {o : Oracles} {s u : State} (h : Loaded s) (hu : completeA o s = .next u) :
    Inv u := by
  obtain ⟨_, _, hu⟩ := andThen_eq_next.mp hu
  exact h.inv_completeExact hu

theorem Loaded.inv_tryCompleteB {o : Oracles} {s u : State} (h : Loaded s) (hb : HoldsHeadB s)
    (hu : tryCompleteB o s = .next u) : Inv u := by
  obtain ⟨bytes, _, hu⟩ := andThen_eq_next.mp hu
  unfold handleProbe at hu
  split at hu
  · exact h.inv_completeExact hu
  · split at hu
    · cases hu
      exact (h.emitDiag _).inv_drop _
    · cases hu
      exact h.inv_wait hb

/-- A datagram accepted at or below WB_LEN leaves every byte up to its end readable (20_memory.md R54, R55). -/
theorem Inv.loaded_acceptedAt {s : State} (h : Inv s) (hm : s.mode ≠ .faulted) {addr : Nat} {data : List Byte}
    (t : Time) (ha : addr ≤ s.wbLen) (hc : addr + data.length ≤ Config.wbCap) :
    Loaded (acceptedAt addr data t s) where
  depth := h.depth
  mask := h.mask
  buffer := by
    obtain ⟨hwf, _, hread⟩ := h.buffer
    refine ⟨Memory.wf_writeBytes hwf hc, hc, fun x hx => ?_⟩
    have hx : x < addr + data.length := hx
    show (readByte (writeBytes s.wb addr data) x).isSome = true
    rw [readByte_writeBytes]
    split
    · rw [List.getElem?_eq_getElem (by omega)]
      rfl
    · exact hread x (by omega)
  cause := h.cause.trans (if_neg hm)

theorem holdsHeadB_of_head {s : State} {data : List Byte} {t : Time} (he : s.cfg.enc = .b)
    (hlen : 12 < data.length) (hmarker : data.take 4 = [2, 2, 2, 2]) :
    HoldsHeadB (acceptedAt 0 data t s) := by
  refine ⟨he, by simp only [acceptedAt]; omega, fun k hk => ?_⟩
  have hk : k < 4 := hk
  show readByte (writeBytes s.wb 0 data) k = Config.marker[k]?
  rw [readByte_writeBytes, if_pos (by omega), Nat.sub_zero, marker_eq, ← hmarker, List.getElem?_take_of_lt hk]

theorem HoldsHeadB.of_chunk {s : State} (h : HoldsHeadB s) (data : List Byte) (t : Time) :
    HoldsHeadB (acceptedAt s.wbLen data t s) := by
  obtain ⟨he, hlen, hmarker⟩ := h
  refine ⟨he, Nat.le_add_right_of_le hlen, fun k hk => ?_⟩
  have hk4 : k < 4 := hk
  exact (readByte_writeBytes_outside (.inl (by omega))).trans (hmarker k hk)

/-- A head is dropped, or it is longer than 12 bytes, begins with the marker and `k` runs on it
(40_demux.md R101). -/
theorem headCheck_eq_next {data : List Byte} {t : Time} {k : State → Result State} {s u : State}
    (h : headCheck data t k s = .next u) :
    (∃ c, u = drop c s) ∨
    (12 < data.length ∧ data.take 4 = [2, 2, 2, 2] ∧ 0 + data.length ≤ Config.wbCap ∧
      k (acceptedAt 0 data t s) = .next u) := by
  unfold headCheck at h
  split at h
  · cases h
    exact .inl ⟨_, rfl⟩
  · next hmarker =>
    split at h
    · cases h
      exact .inl ⟨_, rfl⟩
    · next hlen =>
      obtain ⟨_, hs, h⟩ := andThen_eq_next.mp h
      obtain ⟨hc, rfl⟩ := acceptBytes_eq_next.mp hs
      obtain ⟨_, htake⟩ := hasMarker_eq_true.mp (Bool.eq_true_of_not_eq_false hmarker)
      exact .inr ⟨Nat.lt_of_not_le hlen, htake, hc, h⟩

theorem Inv.of_headCheck {data : List Byte} {t : Time} {k : State → Result State} {s u : State} (h : Inv s)
    (hm : s.mode ≠ .faulted)
    (hk : 12 < data.length → data.take 4 = [2, 2, 2, 2] → Loaded (acceptedAt 0 data t s) →
      k (acceptedAt 0 data t s) = .next u → Inv u)
    (hu : headCheck data t k s = .next u) : Inv u := by
  rcases headCheck_eq_next hu with ⟨c, rfl⟩ | ⟨hlen, hmarker, hc, hu⟩
  · exact (h.loaded hm).inv_drop c
  · exact hk hlen hmarker (h.loaded_acceptedAt hm t (Nat.zero_le _) hc) hu

theorem Inv.of_appendChunk {o : Oracles} {data : List Byte} {t : Time} {s u : State} (h : Inv s)
    (hm : s.mode = .accum) (hu : appendChunk o data t s = .next u) : Inv u := by
  have hrun : s.mode ≠ .faulted := by rw [hm]; decide
  obtain ⟨_, hacc⟩ := h.mode
  have hhead : HoldsHeadB s := hacc hm
  unfold appendChunk at hu
  split at hu
  · cases hu
    exact (h.loaded hrun).inv_drop _
  · obtain ⟨_, hs, hu⟩ := andThen_eq_next.mp hu
    obtain ⟨hc, rfl⟩ := acceptBytes_eq_next.mp hs
    exact (h.loaded_acceptedAt hrun t (Nat.le_refl _) hc).inv_tryCompleteB (hhead.of_chunk data t) hu

/-! ### The invariant: every operation a step runs -/

/-- The guard of every operation but RST keeps the invariant when what it guards does. -/
theorem Inv.onRunning {s u : State} {k : Result State} (h : Inv s)
    (hk : s.mode ≠ .faulted → k = .next u → Inv u) (hu : onRunning s k = .next u) : Inv u := by
  obtain ⟨_, ⟨_, rfl⟩ | ⟨hm, hu⟩⟩ := onRunning_eq_next.mp hu
  · exact h
  · exact hk hm hu

theorem inv_of_exec_rst {c : StrapInputs} {s u : State} (hu : exec (.rst c) s = .next u) : Inv u := by
  obtain ⟨k, hk, rfl⟩ := exec_rst_cases hu
  exact inv_resetWith (one_le_maxDepth_of_sampleStraps hk) s

theorem Inv.of_exec_ato {s u : State} (h : Inv s) (hu : exec .ato s = .next u) : Inv u := by
  obtain ⟨_, rfl | ⟨hm, rfl⟩⟩ := exec_ato_cases hu
  · exact h
  · exact ((h.loaded (by rw [hm]; decide)).emitDiag _).inv_drop _

theorem Inv.of_exec_segp {g : Segment} {s u : State} (h : Inv s) (hu : exec (.segp g) s = .next u) : Inv u := by
  refine h.onRunning (fun _ he => ?_) hu
  cases he
  exact h.segmentPush g

theorem Inv.of_receiveHeadA {o : Oracles} {data : List Byte} {t : Time} {s u : State} (h : Inv s)
    (hu : receiveHeadA o data t s = .next u) : Inv u := by
  refine h.onRunning (fun hm he => ?_) hu
  split at he
  · exact h.of_headCheck hm (fun _ _ hl => hl.inv_completeA) he
  · cases he

theorem Inv.of_receiveHeadB {o : Oracles} {data : List Byte} {t : Time} {s u : State} (h : Inv s)
    (hu : receiveHeadB o data t s = .next u) : Inv u := by
  refine h.onRunning (fun hm he => ?_) hu
  split at he
  · next hsel =>
    obtain ⟨_, henc, _⟩ := selectsHeadB_iff.mp hsel
    exact h.of_headCheck hm (fun hlen hmarker hl => hl.inv_tryCompleteB (holdsHeadB_of_head henc hlen hmarker)) he
  · cases he

theorem Inv.of_receiveChunk {o : Oracles} {data : List Byte} {t : Time} {s u : State} (h : Inv s)
    (hu : receiveChunk o data t s = .next u) : Inv u := by
  refine h.onRunning (fun _ he => ?_) hu
  split at he
  · next hsel =>
    obtain ⟨hm, _⟩ := selectsChunk_iff.mp hsel
    exact h.of_appendChunk hm he
  · cases he

theorem Inv.of_exec_selectRxd {mode : Mode} {enc : Enc} {data : List Byte} {t : Time} {s u : State} (h : Inv s)
    (hu : exec (selectRxd mode enc data t) s = .next u) : Inv u := by
  unfold selectRxd at hu
  split at hu
  · exact h.of_receiveChunk hu
  · exact h.of_receiveHeadA hu
  · exact h.of_receiveHeadB hu

/-- Every operation that an event decodes to keeps the invariant. -/
theorem Inv.exec_of_decoded {mode : Mode} {enc : Enc} {e : Event} {i : Instr} {s u : State} (h : Inv s)
    (hd : decodeEvent mode enc e = .instr i) (hu : exec i s = .next u) : Inv u := by
  rcases decodeEvent_cases hd with ⟨_, rfl⟩ | ⟨_, _, ⟨_, rfl⟩ | ⟨_, rfl⟩⟩ | ⟨_, rfl⟩ | ⟨_, rfl⟩
  · exact inv_of_exec_rst hu
  · obtain ⟨_, rfl⟩ := exec_rxdZ_cases hu
    exact h
  · exact h.of_exec_selectRxd hu
  · exact h.of_exec_ato hu
  · exact h.of_exec_segp hu

theorem Inv.step {s u : State} (h : Inv s) (hu : step s = .next u) : Inv u := by
  rcases step_eq_next hu with ⟨_, rfl⟩ | ⟨_, rest, _, _, hd, hu⟩
  · exact h
  · exact (h.with_input rest).exec_of_decoded hd hu

/-- EMPTY_SLOT stands in FAULT_CAUSE in no state of the invariant. -/
theorem Inv.faultCause_ne_emptySlot {s : State} (h : Inv s) : s.faultCause ≠ 0x82 := by
  rw [h.cause]
  split <;> decide

/-- Whatever an operation does, a FAULT that is new in the trace stands in FAULT_CAUSE (60_exceptions.md
R200). -/
theorem step_new_fault {s u : State} (hu : step s = .next u) {c : BitVec 8}
    (hc : Output.fault c ∈ u.outputs) : Output.fault c ∈ s.outputs ∨ u.faultCause = c := by
  rcases step_eq_next hu with ⟨_, rfl⟩ | ⟨_, rest, i, _, _, hu⟩
  · exact .inl hc
  · by_cases hi : IsRst i
    · obtain ⟨_, rfl⟩ := hi
      obtain ⟨_, _, rfl⟩ := exec_rst_cases hu
      exact .inl hc
    · exact (exec_opEnd hi hu).trace hc

end Sys2Proof.Machine

namespace Sys2Proof.Proofs

open Sys2Proof.Machine Sys2Proof.Claims

/-- Settles O52, by the operation the step's event decodes to. -/
theorem stepKeepsTheInvariant : Obligations.StepKeepsTheInvariant := fun _ _ h hu => h.step hu

/-- Settles O48: both lists hold exactly the cells that read back. -/
theorem canonicalMemoriesThatReadAlikeAreEqual : Obligations.CanonicalMemoriesThatReadAlikeAreEqual := by
  intro m m' hwf hwf' hread
  obtain ⟨hm, _⟩ := hwf
  obtain ⟨hm', _⟩ := hwf'
  have hmem : ∀ c, c ∈ m ↔ c ∈ m' := fun c => by
    rw [mem_iff_readByte hm, mem_iff_readByte hm', hread]
  have hperm : m.Perm m' := (List.perm_ext_iff_of_nodup hm.nodup hm'.nodup).mpr hmem
  exact hperm.eq_of_pairwise (fun c d _ _ hcd hdc => absurd hcd (Nat.lt_asymm hdc)) hm hm'

/-- Settles O54: a new FAULT stands in FAULT_CAUSE, where the invariant allows no EMPTY_SLOT. -/
theorem emptySlotIsUnreachable : Obligations.EmptySlotIsUnreachable := by
  intro s u h hu
  have hcause : u.faultCause ≠ 0x82 := (h.step hu).faultCause_ne_emptySlot
  exact ⟨hcause, fun hc => (step_new_fault hu hc).resolve_right hcause⟩

/-- Settles O57: RST clears the mask, every other operation ends in a way of `OpEnd`. -/
theorem presenceBitsAreClearedOnlyTogether : Obligations.PresenceBitsAreClearedOnlyTogether := by
  intro s u i hu
  by_cases hi : IsRst i
  · obtain ⟨_, rfl⟩ := hi
    obtain ⟨_, _, rfl⟩ := exec_rst_cases hu
    exact .inl rfl
  · exact (exec_opEnd hi hu).mask

/-- Settles O58, by the ways an operation can end. -/
theorem faultCauseIsWrittenOnlyByTheFault : Obligations.FaultCauseIsWrittenOnlyByTheFault := by
  intro s u i hi hu hm
  rcases (exec_opEnd hi hu).cause hm with ⟨hmode, hcause⟩ | ⟨hmode, c, hcause, hlast⟩
  · exact ⟨fun _ => hcause, fun hf => absurd hf hmode⟩
  · rw [hcause]
    exact ⟨fun hn => absurd hmode hn, fun _ => ⟨faultCode_eq c, hlast⟩⟩

/-- Settles O8: the refusal of the sampled straps is the refusal of RST. -/
theorem illegalStrapsAreRefused : Obligations.IllegalStrapsAreRefused := by
  intro s c
  refine ⟨fun h => exec_rst_of_refused (sampleStraps_of_undriven h) s, fun henc hlevel hts hrefl => ?_⟩
  obtain ⟨level, hl⟩ := Option.isSome_iff_exists.mp hlevel
  obtain ⟨hdepth, hbad⟩ := sampleStraps_of_driven henc hl hts hrefl
  refine ⟨fun hd => exec_rst_of_refused (hdepth hd) s, fun hd ⟨l, hl', h5⟩ => exec_rst_of_refused (hbad hd ?_) s⟩
  cases hl.symm.trans hl'
  exact h5

/-- Settles O9: each value stands in `State.reset`. -/
theorem resetStateHasTheSpecValues : Obligations.ResetStateHasTheSpecValues :=
  ⟨fun _ => Vector.getElem_replicate _, rfl, rfl, rfl, rfl, rfl⟩

/-- Settles O51: the state after reset has an empty accumulator and an empty buffer. -/
theorem resetMeetsTheInvariant : Obligations.ResetMeetsTheInvariant := by
  obtain ⟨hslots, hmask, hmode, hlen, hcause, hdepth⟩ := resetStateHasTheSpecValues
  have hidle : State.reset.mode ≠ .faulted := by rw [hmode]; decide
  exact ⟨inv_of_empty (by omega) hslots hmask hmode rfl hlen hcause, hidle, hcause⟩

end Sys2Proof.Proofs
end
section
/-! PROOFS. The statements of 20_memory.md: reads and writes of the working buffer (R54, R55), the bytes an
operation leaves alone and the bytes it never reads (R57), and the output trace (R60), with the lemmas they
share. -/

namespace Sys2Proof.Machine

open Sys2Proof.Claims

/-! ### Everything an operation can do -/

/-- Everything an operation other than RST can end in: one end for each of its meanings, an RXD or a wire
message on the bytes it stores. -/
inductive ExecEnd (i : Instr) (s : State) : State → Prop where
  | unchanged : ExecEnd i s s
  | received {u : State} (data : List Byte) (t : Time) : data.length = (storedRange i s).2 →
      RxdEnd Config.oracles (storedRange i s).1 data t s u → ExecEnd i s u
  | timedOut : ExecEnd i s (drop .accTimeout (emitDiag .probeDiag s))
  | pushed (g : Segment) : ExecEnd i s (segmentPush g s)
  | forwarded (g : Segment) : ExecEnd i s (imuForward g s)
  | released : ExecEnd i s (frameRelease s)
  | compared (v : Verdict) : ExecEnd i s { s with crcVerdict := some v }

theorem onRunning_execEnd {i : Instr} {s u v : State} (h : onRunning s (.next v) = .next u)
    (hv : ExecEnd i s v) : ExecEnd i s u := by
  obtain ⟨_, ⟨_, rfl⟩ | ⟨_, he⟩⟩ := onRunning_eq_next.mp h
  · exact .unchanged
  · cases he
    exact hv

theorem exec_execEnd {i : Instr} {s u : State} (hi : ¬ IsRst i) (h : exec i s = .next u) :
    ExecEnd i s u := by
  cases i with
  | rst cfg => exact absurd ⟨cfg, rfl⟩ hi
  | rxdZ t => exact onRunning_execEnd h .unchanged
  | rxdHA data t =>
    obtain ⟨_, hend, _⟩ := receiveHeadA_ends h
    exact .received data t rfl hend
  | rxdHB data t =>
    obtain ⟨_, hend, _⟩ := receiveHeadB_ends h
    exact .received data t rfl hend
  | rxdCH data t =>
    obtain ⟨_, hend, _⟩ := receiveChunk_ends h
    exact .received data t rfl hend
  | ato =>
    obtain ⟨_, rfl | ⟨_, rfl⟩⟩ := exec_ato_cases h
    · exact .unchanged
    · exact .timedOut
  | segp seg => exact onRunning_execEnd h (.pushed seg)
  | crcv region crcWire => exact onRunning_execEnd h (.compared _)
  | imuf seg => exact onRunning_execEnd h (.forwarded seg)
  | frel => exact onRunning_execEnd h .released
  | msgA plen body t =>
    obtain ⟨_, hend⟩ := receiveMessageA_ends h
    exact .received _ t rfl hend
  | msgB rest t =>
    obtain ⟨_, hend⟩ := receiveMessageB_ends h
    exact .received _ t rfl hend

/-! ### What does not look at the buffer -/

/-- The state with `m` in the place of WB. -/
def withBuffer (m : Memory) (s : State) : State := { s with wb := m }

/-- `f` neither reads nor writes WB. -/
def BlindToBuffer (f : State → State) : Prop := ∀ m s, f (withBuffer m s) = withBuffer m (f s)

theorem BlindToBuffer.comp {f g : State → State} (hf : BlindToBuffer f) (hg : BlindToBuffer g) :
    BlindToBuffer fun s => f (g s) := fun m s => (congrArg f (hg m s)).trans (hf m (g s))

/-- A choice by what is not in WB. -/
theorem BlindToBuffer.ite {c : State → Prop} [∀ s, Decidable (c s)] {f g : State → State}
    (hc : ∀ m s, c (withBuffer m s) ↔ c s) (hf : BlindToBuffer f) (hg : BlindToBuffer g) :
    BlindToBuffer fun s => if c s then f s else g s := fun m s => by
  simp only [hc]
  split
  · exact hf m s
  · exact hg m s

theorem BlindToBuffer.wb_eq {f : State → State} (hf : BlindToBuffer f) (s : State) : (f s).wb = s.wb := by
  show (f s).wb = (withBuffer s.wb (f s)).wb
  exact congrArg State.wb (hf s.wb s)

theorem blind_id : BlindToBuffer fun s => s := fun _ _ => rfl

theorem blind_emit (o : Output) : BlindToBuffer (emit o) := fun _ _ => rfl

theorem blind_emitDiag (c : DiagCause) : BlindToBuffer (emitDiag c) := fun _ _ => rfl

theorem blind_releaseBuffer : BlindToBuffer releaseBuffer := fun _ _ => rfl

theorem blind_drop (c : DiagCause) : BlindToBuffer (drop c) := fun _ _ => rfl

theorem blind_setMode (mode : Mode) : BlindToBuffer (setMode mode) := fun _ _ => rfl

theorem blind_raiseFault (c : FaultCause) : BlindToBuffer (raiseFault c) := fun _ _ => rfl

theorem blind_push (i : Fin 12) (g : Segment) : BlindToBuffer (push i g) := fun _ _ => rfl

theorem blind_imuForward (g : Segment) : BlindToBuffer (imuForward g) :=
  .ite (fun _ _ => Iff.rfl) (blind_emit _) blind_id

theorem blind_frameRelease : BlindToBuffer frameRelease := fun m s => by
  show frameRelease { s with wb := m } = _
  unfold frameRelease
  cases fronts s.slots.toList <;> rfl

theorem blind_releaseIfComplete : BlindToBuffer releaseIfComplete :=
  .ite (fun _ _ => Iff.rfl) blind_frameRelease blind_id

theorem blind_storeSegment (i : Fin 12) (g : Segment) : BlindToBuffer (storeSegment i g) :=
  .ite (fun _ _ => Iff.rfl) (blind_releaseIfComplete.comp (blind_push i g)) blind_id

theorem blind_segmentPush (g : Segment) : BlindToBuffer (segmentPush g) := by
  unfold segmentPush
  cases slotOf g.index with
  | none => exact blind_raiseFault _
  | some i => exact (blind_storeSegment i g).comp (blind_imuForward g)

theorem blind_handleDecoded (answer : DecodeAnswer) : BlindToBuffer (handleDecoded answer) := by
  cases answer with
  | fail => exact blind_emitDiag _
  | seg g => exact blind_segmentPush g

/-- Once the region and the CRC are read, the end of the message does not look at the buffer. -/
theorem blind_finishMessage (o : Oracles) (region : List Byte) (wire : Word) :
    BlindToBuffer (finishMessage o region wire) := fun m s => by
  unfold finishMessage
  cases crcVerdictOf region wire with
  | reject => exact blind_drop _ m s
  | accept => exact (blind_handleDecoded (o.decode region s.wbTime)).comp blind_releaseBuffer m s

theorem blind_accumulationTimeout : BlindToBuffer accumulationTimeout :=
  .ite (fun _ _ => Iff.rfl) ((blind_drop _).comp (blind_emitDiag _)) blind_id

/-! ### The bytes an operation leaves alone -/

/-- Only a received datagram is stored (20_memory.md R57, 46_operation_laws.md R244). -/
theorem ExecEnd.readByte_outside {i : Instr} {s u : State} (h : ExecEnd i s u) {a : Nat}
    (ha : a < (storedRange i s).1 ∨ (storedRange i s).1 + (storedRange i s).2 ≤ a) :
    readByte u.wb a = readByte s.wb a := by
  cases h with
  | unchanged => rfl
  | received data t hlen hend =>
    obtain ⟨hread, _⟩ := hend.keeps
    exact hread a (hlen ▸ ha)
  | timedOut => rfl
  | pushed g => rw [(blind_segmentPush g).wb_eq]
  | forwarded g => rw [(blind_imuForward g).wb_eq]
  | released => rw [blind_frameRelease.wb_eq]
  | compared v => rfl

/-! ### The output trace -/

/-- The trace of `u` is that of `s` with outputs appended, at most `imus` of them IMU and at most `frames`
FRAME (20_memory.md R60). -/
def Appends (imus frames : Nat) (s u : State) : Prop :=
  ∃ os, u.outputs = s.outputs ++ os ∧ imuCount os ≤ imus ∧ frameCount os ≤ frames

theorem imuCount_append (os ps : List Output) : imuCount (os ++ ps) = imuCount os + imuCount ps :=
  List.countP_append

theorem frameCount_append (os ps : List Output) :
    frameCount (os ++ ps) = frameCount os + frameCount ps := List.countP_append

/-- Outputs alike, nothing is appended. -/
theorem appends_of_outputs_eq {s u : State} (h : u.outputs = s.outputs) (m n : Nat) : Appends m n s u :=
  ⟨[], by rw [h, List.append_nil], Nat.zero_le m, Nat.zero_le n⟩

theorem appends_emit (o : Output) (s : State) : Appends (imuCount [o]) (frameCount [o]) s (emit o s) :=
  ⟨[o], rfl, Nat.le_refl _, Nat.le_refl _⟩

theorem Appends.trans {k l m n : Nat} {s u v : State} (h : Appends k l s u) (h' : Appends m n u v) :
    Appends (k + m) (l + n) s v := by
  obtain ⟨os, ho, hi, hf⟩ := h
  obtain ⟨ps, hp, hi', hf'⟩ := h'
  refine ⟨os ++ ps, by rw [hp, ho, List.append_assoc], ?_, ?_⟩
  · rw [imuCount_append]; omega
  · rw [frameCount_append]; omega

theorem Appends.mono {k l m n : Nat} {s u : State} (h : Appends k l s u) (hk : k ≤ m) (hl : l ≤ n) :
    Appends m n s u := by
  obtain ⟨os, ho, hi, hf⟩ := h
  exact ⟨os, ho, hi.trans hk, hf.trans hl⟩

theorem Appends.of_none {s u : State} (h : Appends 0 0 s u) {m n : Nat} : Appends m n s u :=
  h.mono (Nat.zero_le m) (Nat.zero_le n)

theorem appends_emitDiag (c : DiagCause) (s : State) : Appends 0 0 s (emitDiag c s) := appends_emit _ s

theorem appends_drop (c : DiagCause) (s : State) : Appends 0 0 s (drop c s) :=
  ⟨[.diag (diagCode c)], drop_outputs c s, Nat.le_refl 0, Nat.le_refl 0⟩

/-- A message is abandoned with two DIAGs (40_demux.md R105, R115). -/
theorem appends_drop_probeDiag (c : DiagCause) (s : State) :
    Appends 0 0 s (drop c (emitDiag .probeDiag s)) :=
  (appends_emitDiag .probeDiag s).trans (appends_drop c _)

theorem appends_raiseFault (c : FaultCause) (s : State) : Appends 0 0 s (raiseFault c s) :=
  ⟨[.fault (faultCode c)], raiseFault_outputs c s, Nat.le_refl 0, Nat.le_refl 0⟩

theorem appends_imuForward (g : Segment) (s : State) : Appends 1 0 s (imuForward g s) := by
  rcases imuForward_cases g s with ⟨_, he⟩ | ⟨_, he⟩ <;> rw [he]
  · exact appends_emit _ s
  · exact appends_of_outputs_eq rfl 1 0

theorem appends_frameRelease (s : State) : Appends 0 1 s (frameRelease s) := by
  rcases frameRelease_cases s with ⟨_, he⟩ | ⟨fs, _, _, he⟩ <;> rw [he]
  · exact (appends_raiseFault _ s).of_none
  · exact appends_emit (.frame (frameOf s.cfg.layout fs)) s

/-- SEGP emits the inertial sample and releases the frame, each at most once (43_assembler.md R150). -/
theorem appends_segmentPush (g : Segment) (s : State) : Appends 1 1 s (segmentPush g s) := by
  have himu := appends_imuForward g s
  rcases segmentPush_cases g s with ⟨_, he⟩ | ⟨i, _, ⟨_, he⟩ | ⟨_, _, he⟩ | ⟨_, _, he⟩⟩ <;> rw [he]
  · exact (appends_raiseFault _ s).of_none
  · exact himu.mono (Nat.le_refl 1) (Nat.zero_le 1)
  · exact himu.trans (appends_of_outputs_eq (push_outputs i g _) 0 1)
  · have hpush := himu.trans (appends_of_outputs_eq (push_outputs i g (imuForward g s)) 0 0)
    exact hpush.trans (appends_frameRelease _)

theorem MessageEnd.appends {o : Oracles} {s u : State} (h : MessageEnd o s u) : Appends 1 1 s u := by
  cases h with
  | dropped c => exact (appends_drop c s).of_none
  | abandoned => exact (appends_drop_probeDiag _ s).of_none
  | waiting => exact appends_of_outputs_eq rfl 1 1
  | decoded region =>
    have hrelease : Appends 0 0 s (releaseBuffer s) := appends_of_outputs_eq rfl 0 0
    cases o.decode region s.wbTime with
    | fail => exact (hrelease.trans (appends_emitDiag _ _)).of_none
    | seg g => exact hrelease.trans (appends_segmentPush g _)

theorem RxdEnd.appends {o : Oracles} {addr : Nat} {data : List Byte} {t : Time} {s u : State}
    (h : RxdEnd o addr data t s u) : Appends 1 1 s u := by
  cases h with
  | ignored _ => exact appends_of_outputs_eq rfl 1 1
  | dropped c => exact (appends_drop c s).of_none
  | accepted _ hend => exact hend.appends

theorem ExecEnd.appends {i : Instr} {s u : State} (h : ExecEnd i s u) : Appends 1 1 s u := by
  cases h with
  | unchanged => exact appends_of_outputs_eq rfl 1 1
  | received data t _ hend => exact hend.appends
  | timedOut => exact (appends_drop_probeDiag _ s).of_none
  | pushed g => exact appends_segmentPush g s
  | forwarded g => exact (appends_imuForward g s).mono (Nat.le_refl 1) (Nat.zero_le 1)
  | released => exact (appends_frameRelease s).mono (Nat.zero_le 1) (Nat.le_refl 1)
  | compared v => exact appends_of_outputs_eq rfl 1 1

/-! ### What does not accept a datagram does not raise WB_LEN -/

theorem imuForward_wbLen (g : Segment) (s : State) : (imuForward g s).wbLen = s.wbLen := by
  obtain ⟨_, he, _⟩ := imuForward_writes g s
  rw [he]

theorem frameRelease_wbLen (s : State) : (frameRelease s).wbLen = s.wbLen := by
  rcases frameRelease_cases s with ⟨_, he⟩ | ⟨_, _, _, he⟩ <;> rw [he] <;> rfl

theorem segmentPush_wbLen (g : Segment) (s : State) : (segmentPush g s).wbLen = s.wbLen := by
  obtain ⟨_, hlen, _⟩ := segmentPush_keeps g s
  exact hlen

theorem finishMessage_wbLen (o : Oracles) (region : List Byte) (wire : Word) (s : State) :
    (finishMessage o region wire s).wbLen = 0 := by
  rcases finishMessage_cases o region wire s with ⟨_, he⟩ | ⟨_, he⟩ <;> rw [he]
  · rfl
  · cases o.decode region s.wbTime with
    | fail => rfl
    | seg g => exact segmentPush_wbLen g _

theorem accumulationTimeout_wbLen_le (s : State) : (accumulationTimeout s).wbLen ≤ s.wbLen := by
  unfold accumulationTimeout
  split
  · exact Nat.zero_le _
  · exact Nat.le_refl _

/-! ### The bytes that are never read -/

/-- `k` answers alike on two states that differ only in stale bytes (20_memory.md R57). -/
def IgnoresStaleBytes (k : State → Result State) : Prop :=
  ∀ s s' : State, SameUpToStaleBytes s s' → SameAnswer (k s) (k s')

theorem sameUpToStaleBytes_iff {s s' : State} :
    SameUpToStaleBytes s s' ↔
      ∃ m, s' = withBuffer m s ∧ ∀ a < s.wbLen, readByte m a = readByte s.wb a := by
  constructor
  · rintro ⟨he, hread⟩
    exact ⟨s'.wb, he, hread⟩
  · rintro ⟨m, rfl, hread⟩
    exact ⟨rfl, hread⟩

/-- What is blind to WB and does not raise WB_LEN keeps stale bytes stale. -/
theorem BlindToBuffer.ignores {f : State → State} (hf : BlindToBuffer f)
    (hlen : ∀ s, (f s).wbLen ≤ s.wbLen) : IgnoresStaleBytes fun s => .next (f s) := by
  intro s s' h
  obtain ⟨m, rfl, hread⟩ := sameUpToStaleBytes_iff.mp h
  refine sameUpToStaleBytes_iff.mpr ⟨m, hf m s, fun a ha => ?_⟩
  rw [hf.wb_eq]
  exact hread a (Nat.lt_of_lt_of_le ha (hlen s))

theorem ignores_refused (r : Refusal) : IgnoresStaleBytes fun _ => .refused r := fun _ _ _ => rfl

theorem ignores_next : IgnoresStaleBytes fun s => .next s := fun _ _ h => h

theorem ignores_drop (c : DiagCause) : IgnoresStaleBytes fun s => .next (drop c s) :=
  (blind_drop c).ignores fun _ => Nat.zero_le _

/-- A choice by what is not in WB. -/
theorem IgnoresStaleBytes.ite {c : State → Prop} [∀ s, Decidable (c s)] {k l : State → Result State}
    (hc : ∀ m s, c (withBuffer m s) ↔ c s) (hk : IgnoresStaleBytes k) (hl : IgnoresStaleBytes l) :
    IgnoresStaleBytes fun s => if c s then k s else l s := by
  intro s s' h
  obtain ⟨m, rfl, _⟩ := sameUpToStaleBytes_iff.mp h
  simp only [hc]
  split
  · exact hk _ _ h
  · exact hl _ _ h

theorem IgnoresStaleBytes.onRunning {k : State → Result State} (hk : IgnoresStaleBytes k) :
    IgnoresStaleBytes fun s => onRunning s (k s) :=
  .ite (fun _ _ => Iff.rfl) (ignores_refused _) (.ite (fun _ _ => Iff.rfl) ignores_next hk)

/-- A read inside [0, WB_LEN) meets no stale byte, and any other is refused (20_memory.md R55). -/
theorem memRead_of_sameUpToStaleBytes {s s' : State} (h : SameUpToStaleBytes s s') (addr n : Nat) :
    memRead addr n s' = memRead addr n s := by
  obtain ⟨m, rfl, hread⟩ := sameUpToStaleBytes_iff.mp h
  by_cases hin : addr + n ≤ s.wbLen
  · rw [memRead_of_le hin, memRead_of_le (s := withBuffer m s) hin]
    exact readBytes_congr fun k hk => hread _ (by omega)
  · exact (if_neg hin).trans (if_neg hin).symm

theorem memRead32_of_sameUpToStaleBytes {s s' : State} (h : SameUpToStaleBytes s s') (addr : Nat) :
    memRead32 addr s' = memRead32 addr s := by
  rw [memRead32, memRead32, memRead_of_sameUpToStaleBytes h]

/-- A read that meets no stale byte, then a continuation that ignores them. -/
theorem IgnoresStaleBytes.read {α : Type} {r : State → Result α} {k : α → State → Result State}
    (hr : ∀ s s', SameUpToStaleBytes s s' → r s' = r s) (hk : ∀ a, IgnoresStaleBytes (k a)) :
    IgnoresStaleBytes fun s => andThen (r s) fun a => k a s := by
  intro s s' h
  show SameAnswer (andThen (r s) _) (andThen (r s') _)
  rw [hr s s' h]
  cases r s with
  | next a => exact hk a s s' h
  | fault e => rfl
  | refused e => rfl

theorem acceptBytes_eq_ite (addr : Nat) (data : List Byte) (t : Time) (s : State) :
    acceptBytes addr data t s =
      if addr + data.length ≤ Config.wbCap then .next (acceptedAt addr data t s)
      else .fault .writeOutsideBuffer := by
  unfold acceptBytes memWrite
  split <;> rfl

/-- A datagram accepted at or below WB_LEN leaves no stale byte below its end. -/
theorem sameUpToStaleBytes_acceptedAt {s s' : State} (h : SameUpToStaleBytes s s') {addr : Nat}
    (ha : addr ≤ s.wbLen) (data : List Byte) (t : Time) :
    SameUpToStaleBytes (acceptedAt addr data t s) (acceptedAt addr data t s') := by
  obtain ⟨m, rfl, hread⟩ := sameUpToStaleBytes_iff.mp h
  refine sameUpToStaleBytes_iff.mpr ⟨writeBytes m addr data, rfl, fun a hlt => ?_⟩
  have hlt : a < addr + data.length := hlt
  show readByte (writeBytes m addr data) a = readByte (writeBytes s.wb addr data) a
  rw [readByte_writeBytes, readByte_writeBytes]
  split
  · rfl
  · exact hread a (by omega)

theorem IgnoresStaleBytes.acceptBytes {addr : State → Nat} {k : State → Result State} (data : List Byte)
    (t : Time) (hblind : ∀ m s, addr (withBuffer m s) = addr s) (hle : ∀ s, addr s ≤ s.wbLen)
    (hk : IgnoresStaleBytes k) :
    IgnoresStaleBytes fun s => andThen (acceptBytes (addr s) data t s) k := by
  intro s s' h
  obtain ⟨m, rfl, _⟩ := sameUpToStaleBytes_iff.mp h
  simp only [acceptBytes_eq_ite, hblind]
  split
  · exact hk _ _ (sameUpToStaleBytes_acceptedAt h (hle s) data t)
  · rfl

theorem ignores_finish (o : Oracles) (off len crcOff : Nat) :
    IgnoresStaleBytes (finish o off len crcOff) :=
  .read (fun _ _ h => memRead_of_sameUpToStaleBytes h off len) fun region =>
    .read (fun _ _ h => memRead32_of_sameUpToStaleBytes h crcOff) fun wire =>
      (blind_finishMessage o region wire).ignores fun s => by
        rw [finishMessage_wbLen]
        exact Nat.zero_le _

theorem ignores_completeExact (o : Oracles) (total off len : Nat) :
    IgnoresStaleBytes (completeExact o total off len) :=
  .ite (fun _ _ => Iff.rfl) (ignores_drop _)
    (.ite (fun _ _ => Iff.rfl) (ignores_drop _) (ignores_finish o off len _))

theorem ignores_completeA (o : Oracles) : IgnoresStaleBytes (completeA o) :=
  .read (fun _ _ h => memRead32_of_sameUpToStaleBytes h _) fun _ => ignores_completeExact o _ _ _

theorem ignores_handleProbe (o : Oracles) (answer : ProbeAnswer) :
    IgnoresStaleBytes (handleProbe o answer) := by
  cases answer with
  | ok n => exact ignores_completeExact o _ _ _
  | need r =>
    have habandon := (blind_drop .capExceeded).comp (blind_emitDiag .probeDiag)
    exact .ite (fun _ _ => Iff.rfl) (habandon.ignores fun _ => Nat.zero_le _)
      ((blind_setMode .accum).ignores fun _ => Nat.le_refl _)

theorem ignores_tryCompleteB (o : Oracles) : IgnoresStaleBytes (tryCompleteB o) := by
  refine .read (r := fun s => memRead 0 s.wbLen s) (fun s s' h => ?_) fun _ => ignores_handleProbe o _
  obtain ⟨m, rfl, _⟩ := sameUpToStaleBytes_iff.mp h
  exact memRead_of_sameUpToStaleBytes h 0 s.wbLen

/-- A head overwrites the buffer from offset 0 on. -/
theorem ignores_acceptHead (data : List Byte) (t : Time) {k : State → Result State}
    (hk : IgnoresStaleBytes k) : IgnoresStaleBytes fun s => andThen (acceptBytes 0 data t s) k :=
  .acceptBytes (addr := fun _ => 0) data t (fun _ _ => rfl) (fun _ => Nat.zero_le _) hk

theorem ignores_headCheck (data : List Byte) (t : Time) {k : State → Result State}
    (hk : IgnoresStaleBytes k) : IgnoresStaleBytes (headCheck data t k) :=
  .ite (fun _ _ => Iff.rfl) (ignores_drop _)
    (.ite (fun _ _ => Iff.rfl) (ignores_drop _) (ignores_acceptHead data t hk))

theorem ignores_appendChunk (o : Oracles) (data : List Byte) (t : Time) :
    IgnoresStaleBytes (appendChunk o data t) :=
  .ite (fun _ _ => Iff.rfl) (ignores_drop _)
    (.acceptBytes data t (fun _ _ => rfl) (fun _ => Nat.le_refl _) (ignores_tryCompleteB o))

theorem ignores_receiveHeadA (o : Oracles) (data : List Byte) (t : Time) :
    IgnoresStaleBytes (receiveHeadA o data t) :=
  .onRunning (.ite (fun _ _ => Iff.rfl) (ignores_headCheck data t (ignores_completeA o)) (ignores_refused _))

theorem ignores_receiveHeadB (o : Oracles) (data : List Byte) (t : Time) :
    IgnoresStaleBytes (receiveHeadB o data t) :=
  .onRunning
    (.ite (fun _ _ => Iff.rfl) (ignores_headCheck data t (ignores_tryCompleteB o)) (ignores_refused _))

theorem ignores_receiveChunk (o : Oracles) (data : List Byte) (t : Time) :
    IgnoresStaleBytes (receiveChunk o data t) :=
  .onRunning (.ite (fun _ _ => Iff.rfl) (ignores_appendChunk o data t) (ignores_refused _))

theorem ignores_receiveMessageA (o : Oracles) (plen : Word) (body : List Byte) (t : Time) :
    IgnoresStaleBytes (receiveMessageA o plen body t) :=
  .onRunning (.ite (fun _ _ => Iff.rfl) (ignores_acceptHead _ t (ignores_completeA o)) (ignores_refused _))

theorem ignores_receiveMessageB (o : Oracles) (rest : List Byte) (t : Time) :
    IgnoresStaleBytes (receiveMessageB o rest t) :=
  .onRunning (.ite (fun _ _ => Iff.rfl) (ignores_acceptHead _ t (ignores_tryCompleteB o))
    (.ite (fun _ _ => Iff.rfl) (ignores_appendChunk o _ t) (ignores_refused _)))

theorem exec_ignoresStaleBytes {i : Instr} (hi : ¬ IsRst i) : IgnoresStaleBytes (exec i) := by
  cases i with
  | rst cfg => exact absurd ⟨cfg, rfl⟩ hi
  | rxdZ t => exact .onRunning ignores_next
  | rxdHA data t => exact ignores_receiveHeadA _ data t
  | rxdHB data t => exact ignores_receiveHeadB _ data t
  | rxdCH data t => exact ignores_receiveChunk _ data t
  | ato => exact .onRunning (blind_accumulationTimeout.ignores accumulationTimeout_wbLen_le)
  | segp seg => exact .onRunning ((blind_segmentPush seg).ignores fun s => (segmentPush_wbLen seg s).le)
  | crcv region crcWire =>
    have hblind : BlindToBuffer fun s => { s with crcVerdict := some (crcVerdictOf region crcWire) } :=
      fun _ _ => rfl
    exact .onRunning (hblind.ignores fun _ => Nat.le_refl _)
  | imuf seg => exact .onRunning ((blind_imuForward seg).ignores fun s => (imuForward_wbLen seg s).le)
  | frel => exact .onRunning (blind_frameRelease.ignores fun s => (frameRelease_wbLen s).le)
  | msgA plen body t => exact ignores_receiveMessageA _ plen body t
  | msgB rest t => exact ignores_receiveMessageB _ rest t

end Sys2Proof.Machine

namespace Sys2Proof.Proofs

open Sys2Proof.Machine Sys2Proof.Claims

/-- Settles O27: whatever an operation ends in, only a received datagram is stored. -/
theorem memoryOutsideTheDatagramIsUnchanged : Obligations.MemoryOutsideTheDatagramIsUnchanged :=
  fun _ _ _ _ hi hu ha => (exec_execEnd hi hu).readByte_outside ha

/-- Settles O28: no operation but RST looks at a stale byte. -/
theorem staleBytesAreNeverRead : Obligations.StaleBytesAreNeverRead :=
  fun s s' _ hi h => exec_ignoresStaleBytes hi s s' h

/-- Settles O47, by the laws of `writeBytes`. -/
theorem writtenBytesReadBackAndNothingElseChanges :
    Obligations.WrittenBytesReadBackAndNothingElseChanges := by
  intro m a bs hwf hcap
  refine ⟨Memory.wf_writeBytes hwf hcap, ?_, fun _ => readByte_writeBytes_outside⟩
  rw [readBytes_writeBytes (Nat.le_refl a) (Nat.le_refl _), Nat.sub_self, List.drop_zero, List.take_length]

/-- Settles O56: RST emits nothing, every other operation appends at most one IMU and one FRAME. -/
theorem outputsAreOnlyAppended : Obligations.OutputsAreOnlyAppended := by
  intro s u i hu
  by_cases hi : IsRst i
  · obtain ⟨_, rfl⟩ := hi
    obtain ⟨k, _, rfl⟩ := exec_rst_cases hu
    exact appends_of_outputs_eq (resetWith_outputs k s) 1 1
  · exact (exec_execEnd hi hu).appends

/-- Settles O50: the bound of `memRead` fails. -/
theorem readsOutsideTheMessageAreRefused : Obligations.ReadsOutsideTheMessageAreRefused :=
  fun _ _ _ h => if_neg (Nat.not_le.mpr h)

end Sys2Proof.Proofs
end
section
/-! PROOFS. The statements of 30_encoding.md: what codes and message heads decode to (R70, R73, R79, R81, R84),
the round trips of decoder and encoder, the wire messages as the datagrams that carry them (R73, R75) and the
forms that are not selected (R79), with the lemmas they share. -/

namespace Sys2Proof

/-! ### Datagrams and messages, decoded and encoded -/

/-- The transaction that carries a datagram is the RXD form MODE and ENC select. -/
theorem decodeEvent_rxdEvent {mode : Mode} {enc : Enc} {data : List Byte} {t : Time}
    (h : datagramOk data = true) :
    decodeEvent mode enc (rxdEvent data t) = .instr (selectRxd mode enc data t) := by
  obtain ⟨_, hmax⟩ := datagramOk_iff.mp h
  rw [decodeEvent_rxd rfl (toNat_datagramLength hmax).symm]
  exact if_neg (datagramLength_ne_zero h)

/-- A datagram with the marker and more than 12 bytes is a message head of the configured encoding. -/
theorem decodeMessage_of_head {enc : Enc} {data : List Byte} {t : Time} (hlen : 12 < data.length)
    (hmarker : data.take 4 = Config.marker) :
    decodeMessage enc data t =
      .instr (match enc with
        | .a => .msgA (le32 ((data.drop 4).take 4)) (data.drop 8) t
        | .b => .msgB (data.drop 4) t) := by
  have hlong : ¬ data.length ≤ Config.markerSize + Config.minExtra := Nat.not_le.mpr hlen
  have hresync : ¬ (data.length < Config.markerSize ∨ data.take Config.markerSize ≠ Config.marker) :=
    not_or.mpr ⟨fun h => hlong (Nat.le_of_lt (Nat.lt_add_right _ h)), not_not.mpr hmarker⟩
  unfold decodeMessage
  rw [if_neg hresync, if_neg hlong]
  cases enc <;> rfl

/-- A datagram that decodes is a message head (30_encoding.md R80 rejects every other one). -/
theorem decodeMessage_eq_instr {enc : Enc} {data : List Byte} {t : Time} {i : Instr}
    (h : decodeMessage enc data t = .instr i) : 12 < data.length ∧ data.take 4 = Config.marker := by
  unfold decodeMessage at h
  split at h
  · cases h
  · next hresync =>
    split at h
    · cases h
    · next hshort => exact ⟨Nat.lt_of_not_le hshort, not_not.mp (not_or.mp hresync).2⟩

theorem decodeMessage_messageABytes {plen : Word} {body : List Byte} (h : 12 < 8 + body.length) (t : Time) :
    decodeMessage .a (messageABytes plen body) t = .instr (.msgA plen body t) := by
  rw [decodeMessage_of_head (by rwa [length_messageABytes]) (take_messageABytes plen body)]
  simp only [lengthField_messageABytes, Machine.le32_le32Bytes, drop_messageABytes]

theorem decodeMessage_messageBBytes {rest : List Byte} (h : 12 < 4 + rest.length) (t : Time) :
    decodeMessage .b (messageBBytes rest) t = .instr (.msgB rest t) := by
  rw [decodeMessage_of_head (by rwa [length_messageBBytes]) (take_messageBBytes rest)]
  simp only [drop_messageBBytes]

/-- The fields of a datagram with the marker, put together again. -/
theorem messageABytes_fields {data : List Byte} (hlen : 8 ≤ data.length)
    (hmarker : data.take 4 = Config.marker) :
    messageABytes (le32 ((data.drop 4).take 4)) (data.drop 8) = data := by
  have hfield : ((data.drop 4).take 4).length = 4 := by
    rw [List.length_take, List.length_drop]
    omega
  calc messageABytes (le32 ((data.drop 4).take 4)) (data.drop 8)
      = data.take 4 ++ ((data.drop 4).take 4 ++ (data.drop 4).drop 4) := by
        rw [messageABytes, Machine.le32Bytes_le32 hfield, hmarker, List.append_assoc, List.drop_drop]
    _ = data := by rw [List.take_append_drop, List.take_append_drop]

theorem messageBBytes_fields {data : List Byte} (hmarker : data.take 4 = Config.marker) :
    messageBBytes (data.drop 4) = data := by
  rw [messageBBytes, ← hmarker, List.take_append_drop]

namespace Machine

open Sys2Proof.Claims

/-! ### The spec's outcomes on readable bytes -/

theorem finishMessage_eq_ite (o : Oracles) (region : List Byte) (wire : Word) (s : State) :
    finishMessage o region wire s =
      if crc32 region = wire then decodedOutcome (o.decode region s.wbTime) s else dropped 0x04 s := by
  have hdecoded : ∀ answer, handleDecoded answer (releaseBuffer s) = decodedOutcome answer s := fun answer => by
    cases answer <;> rfl
  rcases finishMessage_cases o region wire s with ⟨hne, h⟩ | ⟨heq, h⟩
  · rw [h, if_neg hne]
    rfl
  · rw [h, if_pos heq, hdecoded]

/-- The exact-length tests before `finish`, as the spec's outcome (40_demux.md R103, R105, R106). -/
theorem exactOutcome_eq_ite (o : Oracles) (total : Nat) (region : List Byte) (wire : Word) (s : State) :
    exactOutcome o total region wire s =
      if s.wbLen < total then drop .undersized s
      else if total < s.wbLen then drop .oversized s
      else finishMessage o region wire s := by
  rw [finishMessage_eq_ite]
  rfl

theorem completeA_eq_outcomeA {o : Oracles} {s : State} {bytes : List Byte}
    (hb : readBytes s.wb 0 s.wbLen = .next bytes) (h : 8 ≤ s.wbLen) :
    completeA o s = .next (outcomeA o bytes s) := by
  rw [completeA_of_readBytes hb h, outcomeA, exactOutcome_eq_ite]
  rfl

theorem tryCompleteB_eq_outcomeB {o : Oracles} {s : State} {bytes : List Byte}
    (hb : readBytes s.wb 0 s.wbLen = .next bytes) :
    tryCompleteB o s = .next (outcomeB o bytes s) := by
  rw [tryCompleteB_of_readBytes hb, outcomeB]
  cases o.probe bytes with
  | ok n => exact congrArg _ (exactOutcome_eq_ite ..).symm
  | need r => rfl

/-- A chunk behind readable bytes is dropped by the buffer bound or probed with them (40_demux.md R111,
R112). -/
theorem appendChunk_eq_chunkOutcome {o : Oracles} {old data : List Byte} {t : Time} {s : State}
    (hold : readBytes s.wb 0 s.wbLen = .next old) :
    appendChunk o data t s = .next (chunkOutcome o old data t s) := by
  rw [appendChunk, chunkOutcome, ← wbCap_eq]
  by_cases hcap : Config.wbCap < s.wbLen + data.length
  · rw [if_pos hcap, if_pos hcap]
    rfl
  · rw [if_neg hcap, if_neg hcap, acceptBytes_of_le (Nat.le_of_not_lt hcap), andThen_next]
    exact tryCompleteB_eq_outcomeB (readBytes_acceptedAt_chunk data t hold)

/-- Encoding A on a message written out: the CRC region and the trailing CRC are parts of its body
(20_memory.md R56). -/
theorem outcomeA_messageABytes (o : Oracles) (plen : Word) (body : List Byte) (s : State) :
    outcomeA o (messageABytes plen body) s =
      exactOutcome o (12 + plen.toNat) (body.take plen.toNat) (le32 ((body.drop plen.toNat).take 4)) s := by
  have hplen : plenOf (messageABytes plen body) = plen.toNat := by
    rw [plenOf, lengthField_messageABytes, ← toNat_le32 (length_le32Bytes plen).le, le32_le32Bytes]
  rw [outcomeA, regionA, trailingCrc, hplen, ← List.drop_drop, drop_messageABytes]

/-! ### The RXD forms, selected and not -/

/-- The head check passes a datagram with the marker and more than 12 bytes on to the buffer (40_demux.md
R101). -/
theorem headCheck_eq_accept {data : List Byte} {t : Time} {k : State → Result State} {s : State}
    (hlen : 12 < data.length) (hmarker : data.take 4 = Config.marker) :
    headCheck data t k s = andThen (acceptBytes 0 data t s) k := by
  have hhead : ¬ hasMarker data = false := by
    rw [hasMarker_eq_true.mpr ⟨by omega, hmarker⟩]
    decide
  unfold headCheck
  rw [if_neg hhead]
  exact if_neg (Nat.not_le.mpr hlen)

theorem receiveHeadA_eq_outcomeA {o : Oracles} {data : List Byte} {t : Time} {s : State}
    (hs : s.started = true) (hm : s.mode = .idle) (he : s.cfg.enc = .a) (hlen : 12 < data.length)
    (hmarker : data.take 4 = Config.marker) (hmax : data.length ≤ 65535) :
    receiveHeadA o data t s = .next (outcomeA o data (loaded 0 data t s)) := by
  have hd : datagramOk data = true := datagramOk_iff.mpr ⟨by omega, hmax⟩
  have h8 : 8 ≤ (acceptedAt 0 data t s).wbLen := by
    simp only [acceptedAt]
    omega
  rw [receiveHeadA_of_selected hs (selectsHeadA_iff.mpr ⟨hm, he, hd⟩), headCheck_accepts hlen hmarker hmax]
  exact completeA_eq_outcomeA (readBytes_acceptedAt_head data t s) h8

theorem receiveHeadB_eq_outcomeB {o : Oracles} {data : List Byte} {t : Time} {s : State}
    (hs : s.started = true) (hm : s.mode = .idle) (he : s.cfg.enc = .b) (hlen : 12 < data.length)
    (hmarker : data.take 4 = Config.marker) (hmax : data.length ≤ 65535) :
    receiveHeadB o data t s = .next (outcomeB o data (loaded 0 data t s)) := by
  have hd : datagramOk data = true := datagramOk_iff.mpr ⟨by omega, hmax⟩
  rw [receiveHeadB_of_selected hs (selectsHeadB_iff.mpr ⟨hm, he, hd⟩), headCheck_accepts hlen hmarker hmax]
  exact tryCompleteB_eq_outcomeB (readBytes_acceptedAt_head data t s)

theorem receiveChunk_eq_chunkOutcome {o : Oracles} {old data : List Byte} {t : Time} {s : State}
    (hs : s.started = true) (hm : s.mode = .accum) (hd : datagramOk data = true)
    (hold : readBytes s.wb 0 s.wbLen = .next old) :
    receiveChunk o data t s = .next (chunkOutcome o old data t s) := by
  rw [receiveChunk_of_selected hs (selectsChunk_iff.mpr ⟨hm, hd⟩)]
  exact appendChunk_eq_chunkOutcome hold

theorem receiveHeadA_of_unselected {o : Oracles} {data : List Byte} {t : Time} {s : State}
    (hs : s.started = true) (hm : s.mode ≠ .faulted) (h : ¬ selectsHeadA data s = true) :
    receiveHeadA o data t s = .refused .notSelected := by
  rw [receiveHeadA, onRunning_of_running hs hm, if_neg h]

theorem receiveHeadB_of_unselected {o : Oracles} {data : List Byte} {t : Time} {s : State}
    (hs : s.started = true) (hm : s.mode ≠ .faulted) (h : ¬ selectsHeadB data s = true) :
    receiveHeadB o data t s = .refused .notSelected := by
  rw [receiveHeadB, onRunning_of_running hs hm, if_neg h]

theorem receiveChunk_of_unselected {o : Oracles} {data : List Byte} {t : Time} {s : State}
    (hs : s.started = true) (hm : s.mode ≠ .faulted) (h : ¬ selectsChunk data s = true) :
    receiveChunk o data t s = .refused .notSelected := by
  rw [receiveChunk, onRunning_of_running hs hm, if_neg h]

/-! ### A wire message is the datagram that carries it -/

/-- A message of encoding A is the head datagram of its bytes, in every state (30_encoding.md R73, R75). -/
theorem receiveMessageA_eq_receiveHeadA {plen : Word} {body : List Byte} (hlen : 12 < 8 + body.length)
    (hmax : 8 + body.length ≤ 65535) (o : Oracles) (t : Time) (s : State) :
    receiveMessageA o plen body t s = receiveHeadA o (messageABytes plen body) t s := by
  rw [← length_messageABytes plen body] at hlen hmax
  rw [receiveMessageA, receiveHeadA, headLengthOk_iff.mpr ⟨hlen, hmax⟩, Bool.and_true,
    headCheck_eq_accept hlen (take_messageABytes plen body)]

/-- Outside ACCUM a message of encoding B is the head datagram of its bytes (40_demux.md R104). -/
theorem receiveMessageB_eq_receiveHeadB {rest : List Byte} {s : State} (hlen : 12 < 4 + rest.length)
    (hmax : 4 + rest.length ≤ 65535) (hm : s.mode ≠ .accum) (o : Oracles) (t : Time) :
    receiveMessageB o rest t s = receiveHeadB o (messageBBytes rest) t s := by
  have hchunk : ¬ selectsChunk (messageBBytes rest) s = true := fun h => hm (selectsChunk_iff.mp h).1
  rw [← length_messageBBytes rest] at hlen hmax
  rw [receiveMessageB, receiveHeadB, headLengthOk_iff.mpr ⟨hlen, hmax⟩, Bool.and_true, if_neg hchunk,
    headCheck_eq_accept hlen (take_messageBBytes rest)]

/-- In ACCUM a message of encoding B is the chunk of its bytes, whatever they are (70_reset_and_hazards.md
R227). -/
theorem receiveMessageB_eq_receiveChunk {s : State} (hm : s.mode = .accum) (o : Oracles) (rest : List Byte)
    (t : Time) : receiveMessageB o rest t s = receiveChunk o (messageBBytes rest) t s := by
  have hhead : selectsHeadB (messageBBytes rest) s = false := by
    rw [selectsHeadB, hm]
    rfl
  rw [receiveMessageB, receiveChunk, hhead, Bool.false_and, if_neg Bool.false_ne_true]

/-! ### What a step runs is selected -/

/-- The answer is not the refusal of an operation that nothing selects. -/
def Selected {α : Type} (r : Result α) : Prop := r ≠ .refused .notSelected

theorem selected_next {α : Type} (a : α) : Selected (.next a) := nofun

theorem Selected.andThen {α β : Type} {x : Result α} {f : α → Result β} (hx : Selected x)
    (hf : ∀ a, Selected (f a)) : Selected (andThen x f) := by
  cases x with
  | next a => exact hf a
  | fault r => exact nofun
  | refused r => exact fun h => hx (by cases h; rfl)

theorem Selected.ite {α : Type} {c : Prop} [Decidable c] {x y : Result α} (hx : c → Selected x)
    (hy : ¬ c → Selected y) : Selected (if c then x else y) := by
  split
  · next h => exact hx h
  · next h => exact hy h

/-- Under the guard of every operation but RST only what runs counts. -/
theorem Selected.onRunning {s : State} {k : Result State} (hk : s.mode ≠ .faulted → Selected k) :
    Selected (onRunning s k) :=
  .ite (fun _ => nofun) fun _ => .ite (fun _ => selected_next s) hk

theorem selected_readBytes (m : Memory) (a n : Nat) : Selected (readBytes m a n) := by
  induction n generalizing a with
  | zero => exact selected_next _
  | succ n ih =>
    unfold readBytes
    split
    · exact nofun
    · exact (ih (a + 1)).andThen fun _ => selected_next _

theorem selected_memRead (addr n : Nat) (s : State) : Selected (memRead addr n s) :=
  .ite (fun _ => selected_readBytes s.wb addr n) fun _ => nofun

theorem selected_memRead32 (addr : Nat) (s : State) : Selected (memRead32 addr s) :=
  (selected_memRead addr 4 s).andThen fun _ => selected_next _

theorem selected_acceptBytes (addr : Nat) (data : List Byte) (t : Time) (s : State) :
    Selected (acceptBytes addr data t s) :=
  Selected.andThen (.ite (fun _ => selected_next _) fun _ => nofun) fun _ => selected_next _

theorem selected_completeExact (o : Oracles) (total off len : Nat) (s : State) :
    Selected (completeExact o total off len s) :=
  .ite (fun _ => selected_next _) fun _ => .ite (fun _ => selected_next _) fun _ =>
    (selected_memRead off len s).andThen fun _ => (selected_memRead32 _ s).andThen fun _ => selected_next _

theorem selected_completeA (o : Oracles) (s : State) : Selected (completeA o s) :=
  (selected_memRead32 _ s).andThen fun _ => selected_completeExact o _ _ _ s

theorem selected_tryCompleteB (o : Oracles) (s : State) : Selected (tryCompleteB o s) := by
  refine (selected_memRead 0 s.wbLen s).andThen fun bytes => ?_
  cases o.probe bytes with
  | ok n => exact selected_completeExact o _ _ _ s
  | need r => exact .ite (fun _ => selected_next _) fun _ => selected_next _

theorem selected_headCheck (data : List Byte) (t : Time) {k : State → Result State} (s : State)
    (hk : ∀ u, Selected (k u)) : Selected (headCheck data t k s) :=
  .ite (fun _ => selected_next _) fun _ => .ite (fun _ => selected_next _) fun _ =>
    (selected_acceptBytes 0 data t s).andThen hk

theorem selected_appendChunk (o : Oracles) (data : List Byte) (t : Time) (s : State) :
    Selected (appendChunk o data t s) :=
  .ite (fun _ => selected_next _) fun _ => (selected_acceptBytes s.wbLen data t s).andThen (selected_tryCompleteB o)

theorem selected_exec_rst (c : StrapInputs) (s : State) : Selected (exec (.rst c) s) := by
  have hstraps : Selected (sampleStraps c) := by
    unfold sampleStraps
    split
    · exact .ite (fun _ => nofun) fun _ => by split <;> exact nofun
    · exact nofun
  exact hstraps.andThen fun _ => selected_next _

/-- The form that MODE and ENC select meets its own selection test (30_encoding.md R79). -/
theorem selected_exec_selectRxd {data : List Byte} (hd : datagramOk data = true) (t : Time) (s : State) :
    Selected (exec (selectRxd s.mode s.cfg.enc data t) s) := by
  cases hm : s.mode with
  | idle =>
    cases he : s.cfg.enc with
    | a =>
      exact .onRunning fun _ => .ite (fun _ => selected_headCheck data t s (selected_completeA _))
        fun hn => absurd (selectsHeadA_iff.mpr ⟨hm, he, hd⟩) hn
    | b =>
      exact .onRunning fun _ => .ite (fun _ => selected_headCheck data t s (selected_tryCompleteB _))
        fun hn => absurd (selectsHeadB_iff.mpr ⟨hm, he, hd⟩) hn
  | accum =>
    exact .onRunning fun _ => .ite (fun _ => selected_appendChunk _ data t s)
      fun hn => absurd (selectsChunk_iff.mpr ⟨hm, hd⟩) hn
  | faulted =>
    cases s.cfg.enc with
    | a => exact .onRunning fun hn => absurd hm hn
    | b => exact .onRunning fun hn => absurd hm hn

theorem selected_exec_of_decoded {e : Event} {i : Instr} {s : State}
    (hd : decodeEvent s.mode s.cfg.enc e = .instr i) : Selected (exec i s) := by
  rcases decodeEvent_cases hd with ⟨_, rfl⟩ | ⟨_, _, ⟨_, rfl⟩ | ⟨hok, rfl⟩⟩ | ⟨_, rfl⟩ | ⟨_, rfl⟩
  · exact selected_exec_rst e.cfg s
  · exact .onRunning fun _ => selected_next _
  · exact selected_exec_selectRxd hok e.t s
  · exact .onRunning fun _ => selected_next _
  · exact .onRunning fun _ => selected_next _

theorem selected_step (s : State) : Selected (step s) := by
  cases hin : s.input with
  | nil =>
    rw [step_no_event hin]
    exact selected_next s
  | cons e rest =>
    cases hd : decodeEvent s.mode s.cfg.enc e with
    | instr i =>
      rw [step_of_decoded hin hd]
      exact selected_exec_of_decoded (s := { s with input := rest }) hd
    | rejected r =>
      rw [step_of_rejected hin hd]
      cases r <;> exact nofun

end Machine

end Sys2Proof

namespace Sys2Proof.Proofs

open Sys2Proof.Machine Sys2Proof.Claims

/-- Settles O5, by the operation: an event's code and fields decode to it, and so does a message's head. -/
theorem decodeOfEncodeIsTheOperation : Obligations.DecodeOfEncodeIsTheOperation := by
  intro i w mode enc hwf hw hsel
  cases i with
  | rst cfg =>
    cases hw
    exact decodeEvent_rst rfl
  | rxdZ t =>
    cases hw
    exact decodeEvent_rxd rfl rfl
  | rxdHA data t =>
    cases hw
    obtain ⟨rfl, rfl⟩ : mode = .idle ∧ enc = .a := by simpa [Instr.selectedBy] using hsel
    exact decodeEvent_rxdEvent hwf
  | rxdHB data t =>
    cases hw
    obtain ⟨rfl, rfl⟩ : mode = .idle ∧ enc = .b := by simpa [Instr.selectedBy] using hsel
    exact decodeEvent_rxdEvent hwf
  | rxdCH data t =>
    cases hw
    obtain rfl : mode = .accum := of_decide_eq_true hsel
    exact decodeEvent_rxdEvent hwf
  | ato =>
    cases hw
    exact decodeEvent_ato rfl
  | segp seg =>
    cases hw
    exact decodeEvent_segp rfl
  | crcv region crcWire => cases hw
  | imuf seg => cases hw
  | frel => cases hw
  | msgA plen body t =>
    cases hw
    obtain ⟨_, rfl⟩ : mode = .idle ∧ enc = .a := by simpa [Instr.selectedBy] using hsel
    exact decodeMessage_messageABytes (headLengthOk_iff.mp hwf).1 t
  | msgB rest t =>
    cases hw
    obtain ⟨_, rfl⟩ : mode ≠ .faulted ∧ enc = .b := by simpa [Instr.selectedBy] using hsel
    exact decodeMessage_messageBBytes (headLengthOk_iff.mp hwf).1 t

/-- Settles O6: a datagram that decodes has the marker, and its fields put together are its bytes. -/
theorem encodeOfDecodedDatagramIsTheDatagram : Obligations.EncodeOfDecodedDatagramIsTheDatagram := by
  intro enc data t i h
  obtain ⟨hlen, hmarker⟩ := decodeMessage_eq_instr h
  rw [decodeMessage_of_head hlen hmarker] at h
  cases enc with
  | a =>
    cases h
    exact congrArg (some ∘ Words.datagram) (messageABytes_fields (by omega) hmarker)
  | b =>
    cases h
    exact congrArg (some ∘ Words.datagram) (messageBBytes_fields hmarker)

/-- Settles O18: MSG.A is RXD.HA of its bytes, and encoding A on them is encoding A on its fields. -/
theorem messageAIsItsHeadDatagram : Obligations.MessageAIsItsHeadDatagram := by
  intro s plen body t hs hm he hlen hmax
  have hexec : exec (.msgA plen body t) s = exec (.rxdHA (messageABytes plen body) t) s :=
    receiveMessageA_eq_receiveHeadA hlen hmax Config.oracles t s
  refine ⟨hexec, ?_⟩
  rw [← length_messageABytes plen body] at hlen hmax
  rw [hexec, ← outcomeA_messageABytes]
  exact receiveHeadA_eq_outcomeA hs hm he hlen (take_messageABytes plen body) hmax

/-- Settles O19: MSG.B is RXD.HB of its bytes in IDLE and RXD.CH of them in ACCUM. -/
theorem messageBIsItsDatagram : Obligations.MessageBIsItsDatagram := by
  intro s rest t hs hlen hmax
  have hlen' : 12 < (messageBBytes rest).length := by rwa [length_messageBBytes]
  have hmax' : (messageBBytes rest).length ≤ 65535 := by rwa [length_messageBBytes]
  refine ⟨fun hm he => ?_, fun hm => ?_⟩
  · have hexec : exec (.msgB rest t) s = exec (.rxdHB (messageBBytes rest) t) s :=
      receiveMessageB_eq_receiveHeadB hlen hmax (by rw [hm]; decide) Config.oracles t
    refine ⟨hexec, ?_⟩
    rw [hexec]
    exact receiveHeadB_eq_outcomeB hs hm he hlen' (take_messageBBytes rest) hmax'
  · have hexec : exec (.msgB rest t) s = exec (.rxdCH (messageBBytes rest) t) s :=
      receiveMessageB_eq_receiveChunk hm Config.oracles rest t
    refine ⟨hexec, fun old hold => ?_⟩
    rw [hexec]
    exact receiveChunk_eq_chunkOutcome hs hm (datagramOk_iff.mpr ⟨by omega, hmax'⟩) hold

/-- Settles O20: each form's selection test fails, and a step runs the form that meets its own. -/
theorem unselectedFormsAreRefusedAndNeverStepped : Obligations.UnselectedFormsAreRefusedAndNeverStepped := by
  refine ⟨fun s data t hs hm => ⟨fun h => ?_, fun h => ?_, fun h => ?_⟩, selected_step⟩
  · refine receiveHeadA_of_unselected hs hm fun hsel => ?_
    obtain ⟨hidle, henc, _⟩ := selectsHeadA_iff.mp hsel
    simp [hidle, henc] at h
  · refine receiveHeadB_of_unselected hs hm fun hsel => ?_
    obtain ⟨hidle, henc, _⟩ := selectsHeadB_iff.mp hsel
    simp [hidle, henc] at h
  · refine receiveChunk_of_unselected hs hm fun hsel => ?_
    obtain ⟨haccum, _⟩ := selectsChunk_iff.mp hsel
    simp [haccum] at h

/-- Settles O2: the table words by evaluation, the RXD forms and the messages by what they decode to. -/
theorem wordsDecodeToTheirOperations : Obligations.WordsDecodeToTheirOperations :=
  ⟨by decide, by decide, by decide, by decide, by decide,
    decodeEvent_rxdEvent (by decide), decodeEvent_rxdEvent (by decide), decodeEvent_rxdEvent (by decide),
    decodeMessage_of_head (by decide) (by decide), decodeMessage_of_head (by decide) (by decide)⟩

/-- Settles O3: a code that no format has is rejected by name, and the step refuses it by that name. -/
theorem reservedEventCodesAreRefused : Obligations.ReservedEventCodesAreRefused :=
  fun _ _ _ hin h1 h8 h9 hC => step_of_rejected hin (decodeEvent_reserved h1 h8 h9 hC)

/-- Settles O4, by what each code decodes to. -/
theorem codeModeEncAndLengthSelectTheOperation : Obligations.CodeModeEncAndLengthSelectTheOperation := by
  intro e mode enc
  refine ⟨decodeEvent_rst, decodeEvent_ato, decodeEvent_segp, fun hev hl => ⟨fun hz => ?_, fun hz => ?_⟩⟩
  · rw [decodeEvent_rxd hev hl, if_pos hz]
  · have hrxd : ∀ mode enc, decodeEvent mode enc e = .instr (selectRxd mode enc e.data e.t) := fun mode enc => by
      rw [decodeEvent_rxd hev hl, if_neg hz]
    exact ⟨hrxd .idle .a, hrxd .idle .b, hrxd .accum enc, hrxd .faulted .a, hrxd .faulted .b⟩

end Sys2Proof.Proofs
end
section
/-! PROOFS. The statements of 40_demux.md: what RXD in its forms and ATO answer (R100 to R115), how a whole and a
corrupted message of encoding A end (R118), where an RXD faults (R119) and what the demultiplexer's operations
leave alone (R117), with the lemmas they share. -/

namespace Sys2Proof.Machine

open Sys2Proof.Claims

/-! ### The RXD forms, as the spec's outcomes -/

/-- The head check answers the spec's outcome when `k` answers `v` on an accepted head (40_demux.md R101). -/
theorem headCheck_eq_headOutcome {data : List Byte} {t : Time} {k : State → Result State} {s v : State}
    (hmax : data.length ≤ 65535) (hk : 12 < data.length → k (acceptedAt 0 data t s) = .next v) :
    headCheck data t k s = .next (headOutcome data s v) := by
  unfold headOutcome
  split
  · next hresync => exact headCheck_bad_marker hresync
  · next hresync =>
    obtain ⟨hlen, hmarker⟩ := not_or.mp hresync
    have hmarker : data.take 4 = [2, 2, 2, 2] := not_not.mp hmarker
    split
    · next hshort => exact headCheck_short (Nat.le_of_not_lt hlen) hmarker hshort
    · next hshort =>
      have hlong := Nat.lt_of_not_le hshort
      rw [headCheck_accepts hlong hmarker hmax]
      exact hk hlong

theorem receiveHeadA_eq_headOutcome {data : List Byte} {s : State} (hs : s.started = true)
    (hsel : selectsHeadA data s = true) (o : Oracles) (t : Time) :
    receiveHeadA o data t s = .next (headOutcome data s (outcomeA o data (loaded 0 data t s))) := by
  obtain ⟨_, _, hd⟩ := selectsHeadA_iff.mp hsel
  obtain ⟨_, hmax⟩ := datagramOk_iff.mp hd
  rw [receiveHeadA_of_selected hs hsel]
  refine headCheck_eq_headOutcome hmax fun hlong => ?_
  have h8 : 8 ≤ (acceptedAt 0 data t s).wbLen := by
    simp only [acceptedAt]
    omega
  exact completeA_eq_outcomeA (readBytes_acceptedAt_head data t s) h8

theorem receiveHeadB_eq_headOutcome {data : List Byte} {s : State} (hs : s.started = true)
    (hsel : selectsHeadB data s = true) (o : Oracles) (t : Time) :
    receiveHeadB o data t s = .next (headOutcome data s (outcomeB o data (loaded 0 data t s))) := by
  obtain ⟨_, _, hd⟩ := selectsHeadB_iff.mp hsel
  obtain ⟨_, hmax⟩ := datagramOk_iff.mp hd
  rw [receiveHeadB_of_selected hs hsel]
  exact headCheck_eq_headOutcome hmax fun _ =>
    tryCompleteB_eq_outcomeB (readBytes_acceptedAt_head data t s)

/-- The head form that ENC selects runs the head check (30_encoding.md R79). -/
theorem exec_head_eq_headCheck {s : State} {data : List Byte} (hs : s.started = true) (hm : s.mode = .idle)
    (hd : datagramOk data = true) (t : Time) :
    ∃ k, exec (match s.cfg.enc with | .a => .rxdHA data t | .b => .rxdHB data t) s = headCheck data t k s := by
  cases he : s.cfg.enc with
  | a => exact ⟨_, receiveHeadA_of_selected hs (selectsHeadA_iff.mpr ⟨hm, he, hd⟩)⟩
  | b => exact ⟨_, receiveHeadB_of_selected hs (selectsHeadB_iff.mpr ⟨hm, he, hd⟩)⟩

/-! ### A flipped bit -/

theorem flipBit_cons_of_lt (b : Byte) (bs : List Byte) {k : Nat} (h : k < 8) :
    flipBit (b :: bs) k = (b ^^^ BitVec.twoPow 8 k) :: bs := by
  rw [flipBit, Nat.div_eq_of_lt h, Nat.mod_eq_of_lt h, List.modify_zero_cons]

theorem flipBit_cons_add (b : Byte) (bs : List Byte) (k : Nat) :
    flipBit (b :: bs) (k + 8) = b :: flipBit bs k := by
  rw [flipBit, Nat.add_div_right k (by decide), Nat.add_mod_right, List.modify_succ_cons, flipBit]

@[simp] theorem length_flipBit (bs : List Byte) (k : Nat) : (flipBit bs k).length = bs.length :=
  List.length_modify ..

/-- A bit of the first part of a sequence is flipped in that part. -/
theorem flipBit_append_of_lt {as : List Byte} (bs : List Byte) {k : Nat} (h : k < 8 * as.length) :
    flipBit (as ++ bs) k = flipBit as k ++ bs := by
  induction as generalizing k with
  | nil => simp at h
  | cons a as ih =>
    rw [List.length_cons] at h
    by_cases hk : k < 8
    · rw [List.cons_append, flipBit_cons_of_lt _ _ hk, flipBit_cons_of_lt _ _ hk, List.cons_append]
    · obtain ⟨k, rfl⟩ := Nat.exists_eq_add_of_le' (Nat.le_of_not_lt hk)
      rw [List.cons_append, flipBit_cons_add, flipBit_cons_add, ih (by omega), List.cons_append]

/-- A bit behind the first part of a sequence is flipped in the rest. -/
theorem flipBit_append_add (as bs : List Byte) (k : Nat) :
    flipBit (as ++ bs) (k + 8 * as.length) = as ++ flipBit bs k := by
  induction as with
  | nil => rfl
  | cons a as ih =>
    rw [List.length_cons, Nat.mul_succ, ← Nat.add_assoc, List.cons_append, flipBit_cons_add, ih,
      List.cons_append]

theorem xor_twoPow_ne_self (b : Byte) {k : Nat} (h : k < 8) : b ^^^ BitVec.twoPow 8 k ≠ b := fun he => by
  have hbit := congrArg (fun v : Byte => v.getLsbD k) he
  simp [h] at hbit

/-- Different bytes take an accumulator to different accumulators. -/
theorem crcByte_injective {c : Word} {a b : Byte} (h : crcByte c a = crcByte c b) : a = b := by
  have hwide : a.setWidth 32 = b.setWidth 32 := (BitVec.xor_right_inj c).mp (crcBits_injective h)
  have hbyte := congrArg (BitVec.setWidth 8) hwide
  rwa [BitVec.setWidth_setWidth_of_le _ (by decide), BitVec.setWidth_setWidth_of_le _ (by decide),
    BitVec.setWidth_eq, BitVec.setWidth_eq] at hbyte

/-- A flipped bit changes the accumulator: its byte does, and no later byte undoes that (41_crc.md R135). -/
theorem crcAccumulate_flipBit_ne (c : Word) {bs : List Byte} {k : Nat} (h : k < 8 * bs.length) :
    crcAccumulate c (flipBit bs k) ≠ crcAccumulate c bs := by
  induction bs generalizing c k with
  | nil => simp at h
  | cons b bs ih =>
    rw [List.length_cons] at h
    by_cases hk : k < 8
    · rw [flipBit_cons_of_lt _ _ hk]
      exact fun he => xor_twoPow_ne_self b hk (crcByte_injective (crcAccumulate_injective he))
    · obtain ⟨k, rfl⟩ := Nat.exists_eq_add_of_le' (Nat.le_of_not_lt hk)
      rw [flipBit_cons_add]
      exact ih (crcByte c b) (by omega)

theorem crc32_flipBit_ne {bs : List Byte} {k : Nat} (h : k < 8 * bs.length) :
    crc32 (flipBit bs k) ≠ crc32 bs := fun he =>
  crcAccumulate_flipBit_ne _ h ((BitVec.xor_left_inj _).mp he)

theorem flipBit_ne_self {bs : List Byte} {k : Nat} (h : k < 8 * bs.length) : flipBit bs k ≠ bs := fun he =>
  crc32_flipBit_ne h (congrArg crc32 he)

/-- The bytes of a word with one bit flipped are those of another word. -/
theorem flipBit_le32Bytes (w : Word) {k : Nat} (h : k < 32) :
    ∃ w', w' ≠ w ∧ flipBit (le32Bytes w) k = le32Bytes w' := by
  have hbytes : le32Bytes (le32 (flipBit (le32Bytes w) k)) = flipBit (le32Bytes w) k :=
    le32Bytes_le32 (by simp)
  refine ⟨_, fun hw => flipBit_ne_self (bs := le32Bytes w) (k := k) (by simpa using h) ?_, hbytes.symm⟩
  rw [← hbytes, hw]

/-! ### A message of encoding A, whole and corrupted -/

theorem exactOutcome_of_length_ne {total : Nat} {s : State} (h : s.wbLen ≠ total) (o : Oracles)
    (region : List Byte) (wire : Word) :
    exactOutcome o total region wire s = dropped (if s.wbLen < total then 0x02 else 0x03) s := by
  unfold exactOutcome
  by_cases hlt : s.wbLen < total
  · rw [if_pos hlt, if_pos hlt]
  · rw [if_neg hlt, if_neg hlt, if_pos (by omega)]

theorem exactOutcome_of_length_eq {total : Nat} {s : State} (h : s.wbLen = total) (o : Oracles)
    (region : List Byte) (wire : Word) :
    exactOutcome o total region wire s =
      if crc32 region = wire then decodedOutcome (o.decode region s.wbTime) s else dropped 0x04 s := by
  unfold exactOutcome
  rw [if_neg (by omega), if_neg (by omega)]

theorem validMessageA_eq (payload : List Byte) :
    validMessageA payload =
      messageABytes (BitVec.ofNat 32 payload.length) (payload ++ le32Bytes (crc32 payload)) :=
  List.append_assoc ..

/-- One flipped bit of a valid message breaks its marker, or its length field, or the agreement of its payload
and its trailing CRC (40_demux.md R118). -/
theorem flipBit_validMessageA_cases (payload : List Byte) {k : Nat} (hk : k < 8 * (12 + payload.length)) :
    (k < 32 ∧ (flipBit (validMessageA payload) k).take 4 ≠ [2, 2, 2, 2]) ∨
    (32 ≤ k ∧ k < 64 ∧ ∃ plen, plen ≠ BitVec.ofNat 32 payload.length ∧
      flipBit (validMessageA payload) k = messageABytes plen (payload ++ le32Bytes (crc32 payload))) ∨
    (64 ≤ k ∧ ∃ region wire, region.length = payload.length ∧ crc32 region ≠ wire ∧
      flipBit (validMessageA payload) k =
        messageABytes (BitVec.ofNat 32 payload.length) (region ++ le32Bytes wire)) := by
  have hparts : validMessageA payload = Config.marker ++ (le32Bytes (BitVec.ofNat 32 payload.length) ++
      (payload ++ le32Bytes (crc32 payload))) := by
    simp only [validMessageA, List.append_assoc]
  have hmessage : ∀ plen body, messageABytes plen body = Config.marker ++ (le32Bytes plen ++ body) :=
    fun _ _ => List.append_assoc ..
  rw [hparts]
  by_cases h32 : k < 32
  · have hm : k < 8 * Config.marker.length := h32
    have hlen : (flipBit Config.marker k).length = 4 := length_flipBit ..
    refine .inl ⟨h32, ?_⟩
    rw [flipBit_append_of_lt _ hm, List.take_left' hlen]
    exact flipBit_ne_self hm
  obtain ⟨k, rfl⟩ : ∃ j, k = j + 8 * Config.marker.length := Nat.exists_eq_add_of_le' (Nat.le_of_not_lt h32)
  rw [length_marker] at hk
  rw [flipBit_append_add, length_marker]
  by_cases h64 : k < 32
  · obtain ⟨plen, hne, hplen⟩ := flipBit_le32Bytes (BitVec.ofNat 32 payload.length) h64
    refine .inr (.inl ⟨by omega, by omega, plen, hne, ?_⟩)
    rw [flipBit_append_of_lt _ (by simpa using h64), hplen, hmessage]
  obtain ⟨k, rfl⟩ : ∃ j, k = j + 8 * (le32Bytes (BitVec.ofNat 32 payload.length)).length :=
    Nat.exists_eq_add_of_le' (Nat.le_of_not_lt h64)
  rw [length_le32Bytes] at hk
  rw [flipBit_append_add, length_le32Bytes]
  refine .inr (.inr ⟨by omega, ?_⟩)
  by_cases hp : k < 8 * payload.length
  · refine ⟨flipBit payload k, crc32 payload, length_flipBit _ _, crc32_flipBit_ne hp, ?_⟩
    rw [flipBit_append_of_lt _ hp, hmessage]
  · obtain ⟨k, rfl⟩ := Nat.exists_eq_add_of_le' (Nat.le_of_not_lt hp)
    obtain ⟨wire, hne, hwire⟩ := flipBit_le32Bytes (crc32 payload) (k := k) (by omega)
    refine ⟨payload, wire, rfl, hne.symm, ?_⟩
    rw [flipBit_append_add, hwire, hmessage]

section Message

variable {s : State} {region : List Byte} (hs : s.started = true) (hm : s.mode = .idle) (he : s.cfg.enc = .a)
  (h1 : 1 ≤ region.length) (hmax : 12 + region.length ≤ 65535)

include hs hm he h1 hmax

/-- RXD.HA on a message written out: the length field decides what its region is (40_demux.md R103). -/
theorem receiveHeadA_messageABytes (o : Oracles) (plen wire : Word) (t : Time) :
    let bytes := messageABytes plen (region ++ le32Bytes wire)
    receiveHeadA o bytes t s =
      .next (exactOutcome o (12 + plen.toNat) ((region ++ le32Bytes wire).take plen.toNat)
        (le32 (((region ++ le32Bytes wire).drop plen.toNat).take 4)) (loaded 0 bytes t s)) := by
  intro bytes
  have hlen : bytes.length = 12 + region.length := by
    simp only [bytes, length_messageABytes, List.length_append, length_le32Bytes]
    omega
  have hlong : 12 < bytes.length := by omega
  have hfits : bytes.length ≤ 65535 := by omega
  rw [receiveHeadA_eq_outcomeA hs hm he hlong (take_messageABytes _ _) hfits, outcomeA_messageABytes]

/-- A length field that is not the region's length is a drop by a length cause (40_demux.md R103). -/
theorem receiveHeadA_of_wrong_length (o : Oracles) {plen : Word} (hne : plen ≠ BitVec.ofNat 32 region.length)
    (wire : Word) (t : Time) :
    let bytes := messageABytes plen (region ++ le32Bytes wire)
    receiveHeadA o bytes t s =
      .next (dropped (if 12 + region.length < 12 + plen.toNat then 0x02 else 0x03) (loaded 0 bytes t s)) := by
  intro bytes
  have hlen : (loaded 0 bytes t s).wbLen = 12 + region.length := by
    simp only [loaded, bytes, length_messageABytes, List.length_append, length_le32Bytes]
    omega
  have hplen : plen.toNat ≠ region.length := fun h => hne (by rw [← h, BitVec.ofNat_toNat, BitVec.setWidth_eq])
  have htotal : (loaded 0 bytes t s).wbLen ≠ 12 + plen.toNat := by omega
  rw [receiveHeadA_messageABytes hs hm he h1 hmax, exactOutcome_of_length_ne htotal, hlen]

/-- With the right length field the CRC decides whether the region reaches the decoder (40_demux.md R106). -/
theorem receiveHeadA_of_right_length (o : Oracles) (wire : Word) (t : Time) :
    let bytes := messageABytes (BitVec.ofNat 32 region.length) (region ++ le32Bytes wire)
    receiveHeadA o bytes t s =
      .next (if crc32 region = wire then decodedOutcome (o.decode region t) (loaded 0 bytes t s)
        else dropped 0x04 (loaded 0 bytes t s)) := by
  intro bytes
  have hlen : (loaded 0 bytes t s).wbLen = 12 + region.length := by
    simp only [loaded, bytes, length_messageABytes, List.length_append, length_le32Bytes]
    omega
  have hplen : (BitVec.ofNat 32 region.length).toNat = region.length := by
    rw [BitVec.toNat_ofNat]
    exact Nat.mod_eq_of_lt (by omega)
  have hwire : (le32Bytes wire).take 4 = le32Bytes wire := List.take_of_length_le (length_le32Bytes wire).le
  rw [receiveHeadA_messageABytes hs hm he h1 hmax, hplen, List.take_left' rfl, List.drop_left' rfl, hwire,
    le32_le32Bytes, exactOutcome_of_length_eq hlen]
  rfl

end Message

/-! ### Where an RXD faults -/

/-- From the invariant SEGP faults on a broken index only: EMPTY_SLOT is unreachable (10_state.md R38). -/
theorem badIndex_of_segmentPush {s : State} (h : Inv s) (hm : s.mode ≠ .faulted) {g : Segment}
    (hu : (segmentPush g s).mode = .faulted) : 11 < g.index.toNat := by
  have hq : Quiet s (imuForward g s) := (Quiet.refl s).imuForward g
  rcases segmentPush_cases g s with ⟨hbad, _⟩ | ⟨i, _, ⟨_, he⟩ | ⟨_, _, he⟩ | ⟨_, hfull, he⟩⟩
  · exact hbad
  · exact absurd (he ▸ hu) (hq.mode hm)
  · exact absurd (he ▸ hu) ((hq.push i g).mode hm)
  · have hcause := (h.segmentPush g).cause
    rw [CauseInv, if_pos hu, he] at hcause
    rcases frameRelease_cases (push i g (imuForward g s)) with ⟨_, hr⟩ | ⟨fs, _, _, hr⟩
    · rw [hr] at hcause
      cases hcause
    · rw [he, hr] at hu
      exact absurd hu (hq.mode hm)

theorem Loaded.badIndex_of_decoded {s : State} (h : Loaded s) {answer : DecodeAnswer}
    (hu : (decodedOutcome answer s).mode = .faulted) : ∃ g, answer = .seg g ∧ 11 < g.index.toNat := by
  cases answer with
  | fail => cases hu
  | seg g => exact ⟨g, rfl, badIndex_of_segmentPush h.inv_releaseBuffer (by simp) hu⟩

theorem Loaded.badIndex_of_exactOutcome {s : State} (h : Loaded s) {o : Oracles} {total : Nat}
    {region : List Byte} {wire : Word} (hu : (exactOutcome o total region wire s).mode = .faulted) :
    AnsweredBadIndex o region wire s.wbTime := by
  unfold exactOutcome at hu
  split at hu
  · cases hu
  · split at hu
    · cases hu
    · split at hu
      · next hcrc => exact ⟨hcrc, h.badIndex_of_decoded hu⟩
      · cases hu

theorem Loaded.badIndex_of_outcomeB {s : State} (h : Loaded s) {o : Oracles} {bytes : List Byte}
    (hu : (outcomeB o bytes s).mode = .faulted) :
    ∃ n, o.probe bytes = .ok n ∧
      AnsweredBadIndex o (bytes.take n.toNat) (trailingCrc n.toNat bytes) s.wbTime := by
  unfold outcomeB at hu
  split at hu
  · next n hn => exact ⟨n, hn, h.badIndex_of_exactOutcome hu⟩
  · split at hu <;> cases hu

theorem headOutcome_faulted {data : List Byte} {s v : State} (hu : (headOutcome data s v).mode = .faulted) :
    v.mode = .faulted := by
  unfold headOutcome at hu
  split at hu
  · cases hu
  · split at hu
    · cases hu
    · exact hu

/-- In a faulted state of the invariant FAULT_CAUSE is BAD_INDEX (60_exceptions.md R191). -/
theorem Inv.faultCause_of_faulted {s : State} (h : Inv s) (hm : s.mode = .faulted) : s.faultCause = 0x81 :=
  h.cause.trans (if_pos hm)

theorem loaded_head {s : State} (h : Inv s) (hm : s.mode ≠ .faulted) {data : List Byte}
    (hd : datagramOk data = true) (t : Time) : Loaded (loaded 0 data t s) := by
  obtain ⟨_, hmax⟩ := datagramOk_iff.mp hd
  exact h.loaded_acceptedAt hm t (Nat.zero_le _) (by rw [wbCap_eq]; omega)

section Faults

variable {o : Oracles} {s u : State} {data : List Byte} {t : Time} (h : Inv s) (hm : s.mode ≠ .faulted)
  (hf : u.mode = .faulted)

include h hm hf

theorem badIndex_of_receiveHeadA (hu : receiveHeadA o data t s = .next u) :
    AnsweredBadIndex o (regionA data) (trailingCrc (8 + plenOf data) data) t := by
  obtain ⟨hs, _, hsel⟩ := receiveHeadA_ends hu
  obtain ⟨_, _, hd⟩ := selectsHeadA_iff.mp (hsel hm)
  rw [receiveHeadA_eq_headOutcome hs (hsel hm)] at hu
  cases hu
  exact (loaded_head h hm hd t).badIndex_of_exactOutcome (headOutcome_faulted hf)

theorem badIndex_of_receiveHeadB (hu : receiveHeadB o data t s = .next u) :
    ∃ n, o.probe data = .ok n ∧ AnsweredBadIndex o (data.take n.toNat) (trailingCrc n.toNat data) t := by
  obtain ⟨hs, _, hsel⟩ := receiveHeadB_ends hu
  obtain ⟨_, _, hd⟩ := selectsHeadB_iff.mp (hsel hm)
  rw [receiveHeadB_eq_headOutcome hs (hsel hm)] at hu
  cases hu
  exact (loaded_head h hm hd t).badIndex_of_outcomeB (headOutcome_faulted hf)

theorem badIndex_of_receiveChunk (hu : receiveChunk o data t s = .next u) :
    ∃ old n, readBytes s.wb 0 s.wbLen = .next old ∧ o.probe (old ++ data) = .ok n ∧
      AnsweredBadIndex o ((old ++ data).take n.toNat) (trailingCrc n.toNat (old ++ data)) t := by
  obtain ⟨hs, _, hsel⟩ := receiveChunk_ends hu
  obtain ⟨hacc, hd⟩ := selectsChunk_iff.mp (hsel hm)
  obtain ⟨old, hold⟩ := readBytes_of_bufferInv h.buffer
  rw [receiveChunk_eq_chunkOutcome hs hacc hd hold] at hu
  cases hu
  unfold chunkOutcome at hf
  split at hf
  · cases hf
  · next hcap =>
    have hl : Loaded (loaded s.wbLen data t s) :=
      h.loaded_acceptedAt hm t (Nat.le_refl _) (Nat.le_of_not_lt hcap)
    obtain ⟨n, hn, hbad⟩ := hl.badIndex_of_outcomeB hf
    exact ⟨old, n, hold, hn, hbad⟩

end Faults

/-! ### What SEGP makes of the accumulator depends on the accumulator and the configuration only -/

/-- Two states with the same slots, mask and configuration. -/
structure SameAccumulator (s s' : State) : Prop where
  slots : s.slots = s'.slots
  mask : s.mask = s'.mask
  cfg : s.cfg = s'.cfg

theorem SameAccumulator.imuForward {s s' : State} (h : SameAccumulator s s') (g : Segment) :
    SameAccumulator (imuForward g s) (imuForward g s') := by
  obtain ⟨hslots, hmask, hcfg⟩ := imuForward_frame g s
  obtain ⟨hslots', hmask', hcfg'⟩ := imuForward_frame g s'
  exact ⟨by rw [hslots, hslots', h.slots], by rw [hmask, hmask', h.mask], by rw [hcfg, hcfg', h.cfg]⟩

theorem SameAccumulator.push {s s' : State} (h : SameAccumulator s s') (i : Fin 12) (g : Segment) :
    SameAccumulator (push i g s) (push i g s') where
  slots := by rw [push_slots, push_slots, slot_congr h.slots, h.slots, h.cfg]
  mask := by rw [push_mask, push_mask, h.mask]
  cfg := h.cfg

theorem SameAccumulator.frameRelease {s s' : State} (h : SameAccumulator s s') :
    SameAccumulator (frameRelease s) (frameRelease s') := by
  unfold Machine.frameRelease
  rw [← h.slots]
  split
  · exact ⟨h.slots, h.mask, h.cfg⟩
  · exact ⟨rfl, rfl, h.cfg⟩

theorem SameAccumulator.storeSegment {s s' : State} (h : SameAccumulator s s') (i : Fin 12) (g : Segment) :
    SameAccumulator (storeSegment i g s) (storeSegment i g s') := by
  unfold Machine.storeSegment releaseIfComplete frameComplete
  rw [← (h.push i g).mask]
  split
  · split
    · exact (h.push i g).frameRelease
    · exact h.push i g
  · exact h

theorem SameAccumulator.segmentPush {s s' : State} (h : SameAccumulator s s') (g : Segment) :
    SameAccumulator (segmentPush g s) (segmentPush g s') := by
  unfold Machine.segmentPush
  split
  · exact ⟨h.slots, h.mask, h.cfg⟩
  · exact (h.imuForward g).storeSegment _ g

/-! ### What the demultiplexer's operations leave alone -/

/-- The accumulator is unchanged, or is what SEGP of a Segment the decoder answered makes of it. -/
def AccumulatorFrame (o : Oracles) (t : Time) (s u : State) : Prop :=
  (u.slots = s.slots ∧ u.mask = s.mask) ∨
    ∃ region g, o.decode region t = .seg g ∧
      u.slots = (segmentPush g s).slots ∧ u.mask = (segmentPush g s).mask

theorem MessageEnd.accumulatorFrame {o : Oracles} {s v u : State} (h : MessageEnd o v u)
    (hv : SameAccumulator v s) : AccumulatorFrame o v.wbTime s u := by
  cases h with
  | dropped c => exact .inl ⟨hv.slots, hv.mask⟩
  | abandoned => exact .inl ⟨hv.slots, hv.mask⟩
  | waiting => exact .inl ⟨hv.slots, hv.mask⟩
  | decoded region =>
    unfold handleDecoded
    split
    · exact .inl ⟨hv.slots, hv.mask⟩
    · next g hg =>
      have hr : SameAccumulator (releaseBuffer v) s := ⟨hv.slots, hv.mask, hv.cfg⟩
      exact .inr ⟨region, g, hg, (hr.segmentPush g).slots, (hr.segmentPush g).mask⟩

theorem RxdEnd.accumulatorFrame {o : Oracles} {addr : Nat} {data : List Byte} {t : Time} {s u : State}
    (h : RxdEnd o addr data t s u) : AccumulatorFrame o t s u := by
  cases h with
  | ignored _ => exact .inl ⟨rfl, rfl⟩
  | dropped c => exact .inl ⟨rfl, rfl⟩
  | accepted _ hend => exact hend.accumulatorFrame ⟨rfl, rfl, rfl⟩

/-- Every way an operation of the demultiplexer ends: nothing happens, the timeout's drop, or an RXD's end with
the operation's receive time. -/
theorem exec_demuxOp_cases {i : Instr} {s u : State} (hi : IsDemuxOp i) (h : exec i s = .next u) :
    u = s ∨ u = drop .accTimeout (emitDiag .probeDiag s) ∨
      ∃ addr data, RxdEnd Config.oracles addr data i.receiveTime s u := by
  rcases hi with ⟨t, rfl⟩ | ⟨d, t, rfl⟩ | ⟨d, t, rfl⟩ | ⟨d, t, rfl⟩ | rfl | ⟨p, b, t, rfl⟩ | ⟨r, t, rfl⟩
  · obtain ⟨_, hu⟩ := exec_rxdZ_cases h
    exact .inl hu
  · obtain ⟨_, hend, _⟩ := receiveHeadA_ends h
    exact .inr (.inr ⟨_, _, hend⟩)
  · obtain ⟨_, hend, _⟩ := receiveHeadB_ends h
    exact .inr (.inr ⟨_, _, hend⟩)
  · obtain ⟨_, hend, _⟩ := receiveChunk_ends h
    exact .inr (.inr ⟨_, _, hend⟩)
  · obtain ⟨_, hu | ⟨_, hu⟩⟩ := exec_ato_cases h
    · exact .inl hu
    · exact .inr (.inl hu)
  · obtain ⟨_, hend⟩ := receiveMessageA_ends h
    exact .inr (.inr ⟨_, _, hend⟩)
  · obtain ⟨_, hend⟩ := receiveMessageB_ends h
    exact .inr (.inr ⟨_, _, hend⟩)

end Sys2Proof.Machine

namespace Sys2Proof.Proofs

open Sys2Proof.Machine Sys2Proof.Claims

/-- Settles O12: RXD.Z is ignored in FAULTED, and outside it answers the state it ran in. -/
theorem zeroLengthDatagramChangesNothing : Obligations.ZeroLengthDatagramChangesNothing := by
  intro s t hs
  obtain ⟨u, hu⟩ := exec_rxdZ_answers (t := t) hs
  obtain ⟨_, rfl⟩ := exec_rxdZ_cases hu
  exact hu

/-- Settles O13: under either encoding the head form runs the head check. -/
theorem badHeadsAreDroppedByCause : Obligations.BadHeadsAreDroppedByCause := by
  intro s data t hs hm h1 hmax
  obtain ⟨k, hk⟩ := exec_head_eq_headCheck hs hm (datagramOk_iff.mpr ⟨h1, hmax⟩) t
  refine ⟨fun hbad => ?_, fun ⟨h4, hmarker, hshort⟩ => ?_⟩
  · exact hk.trans (headCheck_bad_marker hbad)
  · exact hk.trans (headCheck_short h4 hmarker hshort)

/-- Settles O14: the head check, then encoding A on the bytes accepted. -/
theorem headOfEncodingACompletes : Obligations.HeadOfEncodingACompletes := by
  intro s data t hs hm he h1 hmax
  have hall := fun o =>
    receiveHeadA_eq_headOutcome hs (selectsHeadA_iff.mpr ⟨hm, he, datagramOk_iff.mpr ⟨h1, hmax⟩⟩) o t
  exact ⟨hall, hall Config.oracles⟩

/-- Settles O15: the head check, then the probe step on the bytes accepted. -/
theorem headOfEncodingBCompletes : Obligations.HeadOfEncodingBCompletes := by
  intro s data t hs hm he h1 hmax
  have hall := fun o =>
    receiveHeadB_eq_headOutcome hs (selectsHeadB_iff.mpr ⟨hm, he, datagramOk_iff.mpr ⟨h1, hmax⟩⟩) o t
  exact ⟨hall, hall Config.oracles⟩

/-- Settles O16: the buffer bound, then the probe step on the bytes gathered and the datagram. -/
theorem chunkCompletes : Obligations.ChunkCompletes := by
  intro s old data t hs hm h1 hmax hold
  have hall : ∀ o, receiveChunk o data t s = .next (chunkOutcome o old data t s) := fun _ =>
    receiveChunk_eq_chunkOutcome hs hm (datagramOk_iff.mpr ⟨h1, hmax⟩) hold
  exact ⟨hall, hall Config.oracles⟩

/-- Settles O17, by MODE: the timeout emits and drops in ACCUM only. -/
theorem timeoutDropsOnlyAMessageInProgress : Obligations.TimeoutDropsOnlyAMessageInProgress := by
  intro s hs
  have hexec : s.mode ≠ .faulted → exec .ato s = .next (accumulationTimeout s) := onRunning_of_running hs
  refine ⟨fun hm => ?_, fun hm => ?_⟩
  · rw [hexec (by rw [hm]; decide), accumulationTimeout, if_pos hm, drop, emitDiag, emitDiag, emit, emit,
      List.append_assoc]
    rfl
  · rw [hexec (by rw [hm]; decide), accumulationTimeout, if_neg (by rw [hm]; decide)]

/-- Settles O21: with a rejected CRC `finish` is the drop, and no answer of the decoder stands in it. -/
theorem rejectedCrcNeverReachesTheDecoder : Obligations.RejectedCrcNeverReachesTheDecoder := by
  intro o region wire s hne
  rw [finishMessage_eq_ite, if_neg hne]

/-- Settles O22: the message's own length field and CRC pass both tests. -/
theorem validMessageReachesTheDecoder : Obligations.ValidMessageReachesTheDecoder := by
  intro o s payload t hs hm he h1 hmax
  rw [validMessageA_eq, receiveHeadA_of_right_length hs hm he h1 hmax, if_pos rfl]

/-- Settles O23, by the part of the message the bit is in: marker, length field, or payload and CRC. -/
theorem singleBitCorruptionNeverReachesTheDecoder :
    Obligations.SingleBitCorruptionNeverReachesTheDecoder := by
  intro s payload t k hs hm he h1 hmax hk
  rcases flipBit_validMessageA_cases payload hk with
    ⟨h32, hmarker⟩ | ⟨h32, h64, plen, hne, hbytes⟩ | ⟨h64, region, wire, hlen, hcrc, hbytes⟩
  · have hd : datagramOk (flipBit (validMessageA payload) k) = true := by
      rw [datagramOk_iff, length_flipBit, validMessageA_eq, length_messageABytes, List.length_append,
        length_le32Bytes]
      omega
    refine ⟨dropped 0x01 s, fun o => ?_, ?_, rfl, rfl, rfl, rfl, rfl⟩
    · rw [receiveHeadA_of_selected hs (selectsHeadA_iff.mpr ⟨hm, he, hd⟩)]
      exact headCheck_bad_marker (.inr hmarker)
    · rw [if_pos h32]
      rfl
  · rw [hbytes]
    refine ⟨_, fun o => receiveHeadA_of_wrong_length hs hm he h1 hmax o hne _ t, ?_, rfl, rfl, rfl, rfl, rfl⟩
    rw [if_neg (by omega), if_pos h64]
    split
    · exact .inl rfl
    · exact .inr rfl
  · rw [hbytes, ← hlen]
    refine ⟨_, fun o => (receiveHeadA_of_right_length hs hm he (by omega) (by omega) o wire t).trans
      (congrArg _ (if_neg hcrc)), ?_, rfl, rfl, rfl, rfl, rfl⟩
    rw [if_neg (by omega), if_neg (by omega)]
    rfl

/-- Settles O24: the end state meets the invariant, so its cause is BAD_INDEX, and the outcome on the bytes
gathered faults only through the decoder's answer. -/
theorem rxdFaultsOnlyOnABrokenContract : Obligations.RxdFaultsOnlyOnABrokenContract := by
  intro o s u data t h hm hf
  refine ⟨fun hu => ⟨?_, badIndex_of_receiveHeadA h hm hf hu⟩,
    fun hu => ⟨?_, badIndex_of_receiveHeadB h hm hf hu⟩, fun hu => ⟨?_, badIndex_of_receiveChunk h hm hf hu⟩⟩
  · exact (h.of_receiveHeadA hu).faultCause_of_faulted hf
  · exact (h.of_receiveHeadB hu).faultCause_of_faulted hf
  · exact (h.of_receiveChunk hu).faultCause_of_faulted hf

/-- Settles O26, by the ways an operation of the demultiplexer ends. -/
theorem demuxFrame : Obligations.DemuxFrame := by
  intro s u i hi h
  rcases exec_demuxOp_cases hi h with rfl | rfl | ⟨addr, data, hend⟩
  · exact ⟨rfl, rfl, rfl, rfl, rfl, fun _ => rfl, .inl rfl, .inl ⟨rfl, rfl⟩⟩
  · exact ⟨rfl, rfl, rfl, rfl, rfl, fun _ => rfl, .inl rfl, .inl ⟨rfl, rfl⟩⟩
  · obtain ⟨_, htime, hcfg, hstarted, hinput, hverdict, hdraws, hcause⟩ := hend.keeps
    refine ⟨hcfg, hstarted, hinput, hverdict, hdraws, fun hm => ?_, htime, hend.accumulatorFrame⟩
    rcases hcause with ⟨_, hkept⟩ | ⟨_, rfl⟩ | ⟨hf, _⟩
    · exact hkept
    · rfl
    · exact absurd hf hm

end Sys2Proof.Proofs
end
section
/-! PROOFS. The statements of 41_crc.md: the table form (R132), the residue (R136), single-bit detection (R135)
and CRCV (R133), with the lemmas they share. -/

namespace Sys2Proof.Machine

/-! ### Eight turns: the low byte goes through the table, the rest is shifted -/

theorem byte_ushiftRight_eight (b : Byte) : b.setWidth 32 >>> 8 = 0#32 :=
  BitVec.eq_of_getLsbD_eq fun i _ => by simp

theorem crcBits_eight_of_high (v : Word) : crcBits 8 ((v.setWidth 8).setWidth 32 ^^^ v) = v >>> 8 := by
  rw [crcBits_of_low_zero, BitVec.ushiftRight_xor_distrib, byte_ushiftRight_eight, BitVec.zero_xor]
  intro i hi
  have hi' : i < 32 := by omega
  simp [hi, hi']

/-- What is added to the accumulator at once may be added byte by byte: its low byte now, the rest, shifted,
after the eight turns of that byte. -/
theorem crcBits_eight_xor (c v : Word) : crcBits 8 (c ^^^ v) = crcByte c (v.setWidth 8) ^^^ v >>> 8 := by
  have hsplit : c ^^^ v = c ^^^ (v.setWidth 8).setWidth 32 ^^^ ((v.setWidth 8).setWidth 32 ^^^ v) := by
    rw [BitVec.xor_assoc, ← BitVec.xor_assoc _ _ v, BitVec.xor_self, BitVec.zero_xor]
  rw [hsplit, crcBits_xor, crcBits_eight_of_high, crcByte]

theorem crcByte_zero (i : Byte) : crcByte 0#32 i = crcTable i := by
  rw [crcByte, BitVec.zero_xor, crcTable]

/-- 41_crc.md R132: the table update does what the eight turns of a byte do. -/
theorem crcByte_eq_crcTableByte (c : Word) (b : Byte) : crcByte c b = crcTableByte c b := by
  have hshift : (c ^^^ b.setWidth 32) >>> 8 = c >>> 8 := by
    rw [BitVec.ushiftRight_xor_distrib, byte_ushiftRight_eight, BitVec.xor_zero]
  calc crcByte c b = crcBits 8 (0#32 ^^^ (c ^^^ b.setWidth 32)) := by rw [BitVec.zero_xor, crcByte]
    _ = crcTable ((c ^^^ b.setWidth 32).setWidth 8) ^^^ c >>> 8 := by
      rw [crcBits_eight_xor, crcByte_zero, hshift]
    _ = crcTableByte c b := BitVec.xor_comm _ _

/-! ### The accumulator after the bytes of a word -/

theorem crcAccumulate_append (c : Word) (as bs : List Byte) :
    crcAccumulate c (as ++ bs) = crcAccumulate (crcAccumulate c as) bs :=
  List.foldl_append

/-- The little-endian bytes of a value do what the value, added at once, does in as many turns as they have
bits. -/
theorem crcAccumulate_leBytes (n : Nat) (c v : Word) (h : v.toNat < 256 ^ n) :
    crcAccumulate c (leBytes n v.toNat) = crcBits (8 * n) (c ^^^ v) := by
  induction n generalizing c v with
  | zero =>
    have hv : v = 0#32 := BitVec.eq_of_toNat_eq (Nat.lt_one_iff.mp h)
    rw [hv, BitVec.xor_zero]
    rfl
  | succ n ih =>
    have hdiv : v.toNat / 256 = (v >>> 8).toNat := by
      rw [BitVec.toNat_ushiftRight, Nat.shiftRight_eq_div_pow]
    have hlt : (v >>> 8).toNat < 256 ^ n := by
      rw [← hdiv]
      exact Nat.div_lt_of_lt_mul (by rwa [pow_succ'] at h)
    calc crcAccumulate c (leBytes (n + 1) v.toNat)
        = crcAccumulate (crcByte c (v.setWidth 8)) (leBytes n (v >>> 8).toNat) := by
          rw [leBytes, BitVec.ofNat_toNat, hdiv]
          rfl
      _ = crcBits (8 * n) (crcBits 8 (c ^^^ v)) := by rw [ih _ _ hlt, crcBits_eight_xor]
      _ = crcBits (8 * (n + 1)) (c ^^^ v) := by rw [← crcBits_add, Nat.mul_succ, Nat.add_comm]

theorem crcAccumulate_le32Bytes (c v : Word) : crcAccumulate c (le32Bytes v) = crcBits 32 (c ^^^ v) :=
  crcAccumulate_leBytes 4 c v v.isLt

/-- 41_crc.md R136: the accumulator cancels against the CRC made of it, and what is left does not depend on the
region. -/
theorem crcAccumulate_append_crc32 (region : List Byte) :
    crcAccumulate Config.crcInit (region ++ le32Bytes (crc32 region)) = 0xDEBB20E3 := by
  have hcancel : crcAccumulate Config.crcInit region ^^^ crc32 region = 0xFFFFFFFF := by
    rw [crc32, ← BitVec.xor_assoc, BitVec.xor_self, BitVec.zero_xor, Config.crcXorOut]
  rw [crcAccumulate_append, crcAccumulate_le32Bytes, hcancel]
  decide +kernel

/-! ### The verdict -/

@[simp] theorem crcVerdictOf_eq_accept {region : List Byte} {wire : Word} :
    crcVerdictOf region wire = .accept ↔ crc32 region = wire := by
  unfold crcVerdictOf
  split
  · next h => exact iff_of_true rfl h
  · next h => exact iff_of_false Verdict.noConfusion h

@[simp] theorem crcVerdictOf_eq_reject {region : List Byte} {wire : Word} :
    crcVerdictOf region wire = .reject ↔ crc32 region ≠ wire := by
  unfold crcVerdictOf
  split
  · next h => exact iff_of_false Verdict.noConfusion (not_not.mpr h)
  · next h => exact iff_of_true rfl h

theorem xor_twoPow_ne {n k : Nat} (v : BitVec n) (h : k < n) : v ^^^ BitVec.twoPow n k ≠ v := fun he => by
  have hbit := congrArg (fun u : BitVec n => u.getLsbD k) he
  simp [h] at hbit

end Sys2Proof.Machine

namespace Sys2Proof.Proofs

open Sys2Proof.Machine Sys2Proof.Claims

/-- Settles O30: byte by byte the table update is the bit loop's. -/
theorem crcTableFormAgrees : Obligations.CrcTableFormAgrees := by
  intro bs
  have hstep : crcByte = crcTableByte := funext fun c => funext fun b => crcByte_eq_crcTableByte c b
  rw [← hstep]
  rfl

/-- Settles O31: the final XOR takes the accumulator's residue to that of `crc32`. -/
theorem crcResidue : Obligations.CrcResidue := by
  intro region
  have hres := crcAccumulate_append_crc32 region
  refine ⟨hres, ?_⟩
  rw [crc32, hres]
  decide

/-- Settles O32: a flipped bit changes the CRC of the region, or the word it is compared with. -/
theorem crcDetectsSingleBitErrors : Obligations.CrcDetectsSingleBitErrors := by
  intro region wire haccept
  have hcrc : crc32 region = wire := crcVerdictOf_eq_accept.mp haccept
  subst hcrc
  exact ⟨fun k hk => crcVerdictOf_eq_reject.mpr (crc32_flipBit_ne hk),
    fun k hk => crcVerdictOf_eq_reject.mpr (xor_twoPow_ne _ hk).symm⟩

/-- Settles O29: each value is computed by the bit loop of 41_crc.md R131. -/
theorem crcKnownValues : Obligations.CrcKnownValues := by
  unfold Obligations.CrcKnownValues
  decide +kernel

/-- Settles O33: outside FAULTED the operation runs, and its answer is the comparison. -/
theorem crcvAnswersTheComparison : Obligations.CrcvAnswersTheComparison := by
  intro s region wire hs hm
  exact onRunning_of_running hs hm

end Sys2Proof.Proofs
end

section
/-! PROOFS. The statements of 43_assembler.md: SEGP and IMUF (R150 to R153), what a run of pushes gathers (R154,
R156), when it releases a frame, and the frame of the assembler's operations, with the lemmas they share. -/

namespace Sys2Proof.Machine

open Sys2Proof.Claims

/-! ### SEGP, case by case -/

theorem exec_segp_of_running {s : State} (hs : s.started = true) (hm : s.mode ≠ .faulted) (g : Segment) :
    exec (.segp g) s = .next (segmentPush g s) := onRunning_of_running hs hm

theorem segmentPush_of_badIndex {g : Segment} (h : 11 < g.index.toNat) (s : State) :
    segmentPush g s = raiseFault .badIndex s := by
  rw [segmentPush, slotOf_eq_none.mpr h]

theorem segmentPush_of_index {g : Segment} {i : Fin 12} (h : g.index.toNat = i.val) (s : State) :
    segmentPush g s = storeSegment i g (imuForward g s) := by
  rw [segmentPush, slotOf_eq_some.mpr h]

theorem storeSegment_of_noGroups {g : Segment} (h : g.groups = []) (i : Fin 12) (s : State) :
    storeSegment i g s = s := by
  rw [storeSegment, if_neg (by simp [h])]

theorem storeSegment_of_groups {g : Segment} (h : g.groups ≠ []) (i : Fin 12) (s : State) :
    storeSegment i g s = releaseIfComplete (push i g s) := by
  rw [storeSegment, if_pos (Nat.one_le_iff_ne_zero.mpr (by simpa using h))]

theorem releaseIfComplete_of_partial {s : State} (h : s.mask ≠ 0xFFF) : releaseIfComplete s = s := by
  rw [releaseIfComplete, frameComplete, if_neg (by simpa using h)]

theorem releaseIfComplete_of_full {s : State} (h : s.mask = 0xFFF) : releaseIfComplete s = frameRelease s := by
  rw [releaseIfComplete, frameComplete, if_pos (beq_iff_eq.mpr h)]

/-- SEGP that leaves the mask incomplete is its push (43_assembler.md R152). -/
theorem segmentPush_of_partial {s : State} {g : Segment} {i : Fin 12} (hi : g.index.toNat = i.val)
    (hg : g.groups ≠ []) (hm : (push i g (imuForward g s)).mask ≠ 0xFFF) :
    segmentPush g s = push i g (imuForward g s) := by
  rw [segmentPush_of_index hi, storeSegment_of_groups hg, releaseIfComplete_of_partial hm]

/-- SEGP that completes the mask releases after its push (43_assembler.md R153). -/
theorem segmentPush_of_full {s : State} {g : Segment} {i : Fin 12} (hi : g.index.toNat = i.val)
    (hg : g.groups ≠ []) (hm : (push i g (imuForward g s)).mask = 0xFFF) :
    segmentPush g s = frameRelease (push i g (imuForward g s)) := by
  rw [segmentPush_of_index hi, storeSegment_of_groups hg, releaseIfComplete_of_full hm]

theorem eq_iff_index_eq {g : Segment} {i : Fin 12} (hi : g.index.toNat = i.val) {j : Fin 12} :
    j = i ↔ g.index.toNat = j.val := by
  rw [hi, Fin.ext_iff, eq_comm]

theorem exists_slot_of_storable {g : Segment} : Storable g → ∃ i : Fin 12, g.index.toNat = i.val :=
  fun ⟨hidx, _⟩ => ⟨⟨g.index.toNat, hidx⟩, rfl⟩

/-- The model's push is the rule's: front insertion cut to MAX_DEPTH, and the bit (43_assembler.md R152). -/
theorem push_eq_pushed (i : Fin 12) (g : Segment) (s : State) : push i g s = pushed i g s := by
  rw [push, pushQueue_eq_take]
  rfl

/-! ### The frame of the fronts -/

/-- The lesser of a time and a Segment's capture time: one turn of `frameTime` (44_frame_release.md R167). -/
def earlierTime (m : Time) (g : Segment) : Time := if captureTime g < m then captureTime g else m

theorem frameTime_eq_foldl (fs : List Segment) :
    frameTime fs = fs.foldl earlierTime (BitVec.allOnes Config.timeW) := rfl

theorem earlierTime_le_left (m : Time) (g : Segment) : earlierTime m g ≤ m := by
  unfold earlierTime
  split
  · next h => exact BitVec.le_of_lt h
  · exact BitVec.le_refl m

theorem earlierTime_le_right (m : Time) (g : Segment) : earlierTime m g ≤ captureTime g := by
  unfold earlierTime
  split
  · exact BitVec.le_refl _
  · next h => exact BitVec.not_lt.mp h

theorem earlierTime_eq_or (m : Time) (g : Segment) :
    earlierTime m g = m ∨ earlierTime m g = captureTime g := by
  unfold earlierTime
  split
  · exact .inr rfl
  · exact .inl rfl

theorem foldl_earlierTime_le (m : Time) (fs : List Segment) :
    fs.foldl earlierTime m ≤ m ∧ ∀ g ∈ fs, fs.foldl earlierTime m ≤ captureTime g := by
  induction fs generalizing m with
  | nil => exact ⟨BitVec.le_refl m, fun _ hg => absurd hg List.not_mem_nil⟩
  | cons g fs ih =>
    obtain ⟨hm, hfs⟩ := ih (earlierTime m g)
    exact ⟨BitVec.le_trans hm (earlierTime_le_left m g),
      List.forall_mem_cons.mpr ⟨BitVec.le_trans hm (earlierTime_le_right m g), hfs⟩⟩

theorem foldl_earlierTime_eq_or (m : Time) (fs : List Segment) :
    fs.foldl earlierTime m = m ∨ ∃ g ∈ fs, fs.foldl earlierTime m = captureTime g := by
  induction fs generalizing m with
  | nil => exact .inl rfl
  | cons g fs ih =>
    rcases ih (earlierTime m g) with he | ⟨g', hg', he⟩
    · rcases earlierTime_eq_or m g with hm | hm
      · exact .inl (he.trans hm)
      · exact .inr ⟨g, List.mem_cons_self, he.trans hm⟩
    · exact .inr ⟨g', List.mem_cons_of_mem g hg', he⟩

theorem frameTime_le {fs : List Segment} {g : Segment} (hg : g ∈ fs) : frameTime fs ≤ captureTime g := by
  obtain ⟨_, hle⟩ := foldl_earlierTime_le (BitVec.allOnes Config.timeW) fs
  exact hle g hg

/-- The frame's time is attained. Where the fold keeps its start, all ones, every capture time is all ones. -/
theorem exists_frameTime_eq {fs : List Segment} (hfs : fs ≠ []) : ∃ g ∈ fs, frameTime fs = captureTime g := by
  rcases foldl_earlierTime_eq_or (BitVec.allOnes Config.timeW) fs with he | he
  · obtain ⟨g, hg⟩ := List.exists_mem_of_ne_nil fs hfs
    have hle := frameTime_le hg
    rw [frameTime_eq_foldl, he] at hle
    exact ⟨g, hg, by rw [frameTime_eq_foldl, he]; exact (BitVec.allOnes_le_iff.mp hle).symm⟩
  · exact he

/-- The records in stored order: groups, scanlines, points (44_frame_release.md R168). -/
theorem frameData_eq_flatMap (l : Layout) (fs : List Segment) :
    frameData l fs =
      fs.flatMap fun g => g.groups.flatMap fun grp => grp.flatMap fun line => line.flatMap (serialize l) := by
  simp only [frameData, pointsOf, List.flatMap_def, List.map_flatten, List.flatten_flatten, List.map_map,
    Function.comp_def]

theorem length_pointsOf (g : Segment) :
    (pointsOf g).length = (g.groups.map fun grp => (grp.map List.length).sum).sum := by
  simp [pointsOf, List.length_flatten, List.map_flatten, List.sum_flatten, Function.comp_def]

/-- `frameOf` builds the FRAME of its Segments (44_frame_release.md R165, R167, R168, R171). -/
theorem isFrameOf_frameOf (l : Layout) {fs : List Segment} (hfs : fs ≠ []) : IsFrameOf l fs (frameOf l fs) := by
  refine ⟨fun g => frameTime_le, exists_frameTime_eq hfs, frameData_eq_flatMap l fs, ?_, rfl, rfl, rfl⟩
  rw [frameOf_npoints, List.length_flatMap]
  simp only [length_pointsOf]

/-! ### A run of pushes that leaves an index untouched -/

/-- The mask is complete exactly when every bit is set. -/
theorem mask_eq_full_iff {s : State} : s.mask = 0xFFF ↔ ∀ i, present s i = true := by
  refine ⟨present_of_full, fun h => BitVec.eq_of_getLsbD_eq fun k hk => ?_⟩
  exact (h ⟨k, hk⟩).trans ((BitVec.getLsbD_allOnes (v := 12)).trans (decide_eq_true hk)).symm

@[simp] theorem slot_imuForward (g : Segment) (s : State) (j : Fin 12) : slot (imuForward g s) j = slot s j := by
  obtain ⟨hslots, _, _⟩ := imuForward_frame g s
  exact slot_congr hslots j

@[simp] theorem present_imuForward (g : Segment) (s : State) (j : Fin 12) :
    present (imuForward g s) j = present s j := by
  obtain ⟨_, hmask, _⟩ := imuForward_frame g s
  exact present_congr hmask j

@[simp] theorem cfg_imuForward (g : Segment) (s : State) : (imuForward g s).cfg = s.cfg := by
  obtain ⟨_, _, hcfg⟩ := imuForward_frame g s
  exact hcfg

@[simp] theorem frameCount_imuForward (g : Segment) (s : State) :
    frameCount (imuForward g s).outputs = frameCount s.outputs := by
  rcases imuForward_cases g s with ⟨_, he⟩ | ⟨_, he⟩ <;> rw [he]
  exact frameCount_append _ _

/-- SEGP of the Segments `gs`, one after another. -/
def pushAll (gs : List Segment) (s : State) : State := gs.foldl (fun u g => segmentPush g u) s

theorem pushAll_concat (gs : List Segment) (g : Segment) (s : State) :
    pushAll (gs ++ [g]) s = segmentPush g (pushAll gs s) := List.foldl_concat ..

/-- Those of `gs` that belong to slot `i`, in their order. -/
def pushesTo (i : Fin 12) (gs : List Segment) : List Segment := gs.filter fun g => g.index.toNat = i.val

theorem pushesTo_concat (i : Fin 12) (gs : List Segment) (g : Segment) :
    pushesTo i (gs ++ [g]) = if g.index.toNat = i.val then pushesTo i gs ++ [g] else pushesTo i gs := by
  rw [pushesTo, List.filter_append]
  split
  · next h => rw [List.filter_cons_of_pos (by simpa using h)]; rfl
  · next h => rw [List.filter_cons_of_neg (by simpa using h)]; exact List.append_nil _

theorem pushesTo_ne_nil_iff {i : Fin 12} {gs : List Segment} :
    pushesTo i gs ≠ [] ↔ ∃ g ∈ gs, g.index.toNat = i.val := by
  simp [pushesTo]

/-- What pushes of `gs` from `s` leave in `u` when no frame was released: an empty slot now holds the newest
MAX_DEPTH of its pushes, newest first, the touched bits are set too, and no FRAME is new (43_assembler.md R154,
R156). -/
structure Gathered (gs : List Segment) (s u : State) : Prop where
  cfg : u.cfg = s.cfg
  slot : ∀ i, slot s i = [] → slot u i = (pushesTo i gs).reverse.take s.cfg.maxDepth
  present : ∀ i, present u i = true ↔ present s i = true ∨ ∃ g ∈ gs, g.index.toNat = i.val
  frames : frameCount u.outputs = frameCount s.outputs

theorem gathered_nil (s : State) : Gathered [] s s :=
  ⟨rfl, fun i hi => by simp [hi, pushesTo], fun i => by simp, rfl⟩

/-- A push cuts to MAX_DEPTH, so what an earlier cut dropped is dropped again. -/
theorem pushQueue_take (depth : Nat) (g : Segment) (q : List Segment) :
    pushQueue depth g (q.take depth) = (g :: q).take depth := by
  rw [pushQueue_eq_take]
  cases depth with
  | zero => rfl
  | succ d => rw [List.take_succ_cons, List.take_succ_cons, List.take_take, Nat.min_eq_left (Nat.le_succ d)]

/-- A push goes to the front of its own slot and sets its own bit. -/
theorem Gathered.push {gs : List Segment} {s u : State} (h : Gathered gs s u) {g : Segment} {i : Fin 12}
    (hi : g.index.toNat = i.val) : Gathered (gs ++ [g]) s (push i g (imuForward g u)) where
  cfg := (cfg_imuForward g u).trans h.cfg
  slot j hj := by
    rw [slot_push, slot_imuForward, slot_imuForward, cfg_imuForward, h.cfg, h.slot j hj, pushesTo_concat, hi]
    by_cases hji : j = i
    · rw [hji, if_pos rfl, if_pos rfl, List.reverse_concat, ← pushQueue_take, ← hji, h.slot j hj]
    · rw [if_neg hji, if_neg fun he => hji (Fin.ext he.symm)]
  present j := by
    rw [present_push, present_imuForward, Bool.or_eq_true, h.present, decide_eq_true_iff, eq_iff_index_eq hi, or_assoc]
    simp [or_and_right, exists_or]
  frames := (frameCount_imuForward g u).trans h.frames

/-- Pushes that leave index `j` untouched never complete the mask, so each of them is only a push. -/
theorem gathered_pushAll {gs : List Segment} {s : State} {j : Fin 12} (hst : ∀ g ∈ gs, Storable g)
    (hj : present s j = false) (hne : ∀ g ∈ gs, g.index.toNat ≠ j.val) : Gathered gs s (pushAll gs s) := by
  induction gs using List.reverseRecOn with
  | nil => exact gathered_nil s
  | append_singleton gs g ih =>
    obtain ⟨hst', hg⟩ := List.forall_mem_append.mp hst
    have hstg : Storable g := List.forall_mem_singleton.mp hg
    obtain ⟨i, hi⟩ := exists_slot_of_storable hstg
    obtain ⟨_, hgroups⟩ := hstg
    have hpush := (ih hst' fun g' hg' => hne g' (List.mem_append_left _ hg')).push hi
    have hclear : ¬ present (Machine.push i g (imuForward g (pushAll gs s))) j = true := by
      rw [hpush.present, hj]
      rintro (h | ⟨g', hg', he⟩)
      · cases h
      · exact hne g' hg' he
    rw [pushAll_concat, segmentPush_of_partial hi hgroups fun hfull => hclear (present_of_full hfull j)]
    exact hpush

theorem present_of_empty_mask {s : State} (h : s.mask = 0) (i : Fin 12) : present s i = false := by
  rw [present, h]
  exact BitVec.getLsbD_zero

/-- Where the pushes of `gs` from an empty accumulator, and that of `g`, touch every index, the push of `g`
leaves no slot empty. -/
theorem Gathered.slot_push_ne_nil {gs : List Segment} {s u : State} (h : Gathered gs s u)
    (hempty : ∀ i, Machine.slot s i = []) (hdepth : 1 ≤ s.cfg.maxDepth) {g : Segment} {i : Fin 12}
    (hi : g.index.toNat = i.val)
    (hall : ∀ j : Fin 12, g.index.toNat = j.val ∨ ∃ g' ∈ gs, g'.index.toNat = j.val) (j : Fin 12) :
    Machine.slot (Machine.push i g (imuForward g u)) j ≠ [] := by
  rw [(h.push hi).slot j (hempty j), Ne, List.take_eq_nil_iff, List.reverse_eq_nil_iff, not_or]
  refine ⟨Nat.one_le_iff_ne_zero.mp hdepth, pushesTo_ne_nil_iff.mpr ?_⟩
  rcases hall j with hj | ⟨g', hg', hj⟩
  · exact ⟨g, by simp, hj⟩
  · exact ⟨g', List.mem_append_left _ hg', hj⟩

/-- A release over twelve filled slots emits one FRAME and cuts. -/
theorem frameRelease_of_filled {s : State} (h : ∀ i, slot s i ≠ []) :
    ∃ f, frameRelease s = emit (.frame f) (hardCut s) := by
  rcases frameRelease_cases s with ⟨⟨i, hi⟩, _⟩ | ⟨fs, _, _, he⟩
  · exact absurd hi (h i)
  · exact ⟨_, he⟩

/-! ### The frame of the assembler's operations -/

/-- `u` has an empty accumulator, or the slots and bits of `s` but for those of an index in `touched`. -/
def AccumulatorChange (touched : Fin 12 → Prop) (s u : State) : Prop :=
  (u.mask = 0 ∧ ∀ j, slot u j = []) ∨ ∀ j, ¬ touched j → slot u j = slot s j ∧ present u j = present s j

/-- What SEGP, IMUF, FREL and CRCV leave alone, when the indices a push may change are those in `touched`. -/
structure AssemblerEnd (touched : Fin 12 → Prop) (s u : State) : Prop where
  wb : u.wb = s.wb
  wbLen : u.wbLen = s.wbLen
  wbTime : u.wbTime = s.wbTime
  cfg : u.cfg = s.cfg
  started : u.started = s.started
  input : u.input = s.input
  draws : u.draws = s.draws
  cause : (u.mode = s.mode ∧ u.faultCause = s.faultCause) ∨ u.mode = .faulted
  accumulator : AccumulatorChange touched s u

theorem accumulatorChange_refl (touched : Fin 12 → Prop) (s : State) : AccumulatorChange touched s s :=
  .inr fun _ _ => ⟨rfl, rfl⟩

/-- The trace and CRCV's answer are no part of the frame. -/
theorem assemblerEnd_of_outputs (touched : Fin 12 → Prop) (s : State) (os : List Output) (v : Option Verdict) :
    AssemblerEnd touched s { s with outputs := os, crcVerdict := v } :=
  ⟨rfl, rfl, rfl, rfl, rfl, rfl, rfl, .inl ⟨rfl, rfl⟩, accumulatorChange_refl touched s⟩

theorem assemblerEnd_imuForward (touched : Fin 12 → Prop) (g : Segment) (s : State) :
    AssemblerEnd touched s (imuForward g s) := by
  obtain ⟨os, he, _⟩ := imuForward_writes g s
  rw [he]
  exact assemblerEnd_of_outputs touched s _ _

theorem AssemblerEnd.raiseFault {touched : Fin 12 → Prop} {s u : State} (h : AssemblerEnd touched s u)
    (c : FaultCause) : AssemblerEnd touched s (raiseFault c u) :=
  { h with cause := .inr rfl, accumulator := h.accumulator }

theorem AssemblerEnd.frameRelease {touched : Fin 12 → Prop} {s u : State} (h : AssemblerEnd touched s u) :
    AssemblerEnd touched s (frameRelease u) := by
  rcases frameRelease_cases u with ⟨_, he⟩ | ⟨fs, _, _, he⟩ <;> rw [he]
  · exact h.raiseFault _
  · exact { h with accumulator := .inl ⟨rfl, fun j => slot_hardCut j u⟩ }

theorem assemblerEnd_push {g : Segment} {i : Fin 12} (hi : g.index.toNat = i.val) (s : State) :
    AssemblerEnd (fun j => g.index.toNat = j.val) s (push i g (imuForward g s)) := by
  have h := assemblerEnd_imuForward (fun j => g.index.toNat = j.val) g s
  refine { h with accumulator := .inr fun j hj => ?_ }
  have hji : j ≠ i := fun he => hj ((eq_iff_index_eq hi).mp he)
  simp [hji]

theorem assemblerEnd_segmentPush (g : Segment) (s : State) :
    AssemblerEnd (fun j => g.index.toNat = j.val) s (segmentPush g s) := by
  rcases segmentPush_cases g s with ⟨_, he⟩ | ⟨i, hi, ⟨_, he⟩ | ⟨_, _, he⟩ | ⟨_, _, he⟩⟩ <;> rw [he]
  · exact (assemblerEnd_of_outputs _ s _ _).raiseFault _
  · exact assemblerEnd_imuForward _ g s
  · exact assemblerEnd_push hi s
  · exact (assemblerEnd_push hi s).frameRelease

theorem onRunning_assemblerEnd {touched : Fin 12 → Prop} {s u v : State}
    (h : onRunning s (.next v) = .next u) (hv : AssemblerEnd touched s v) : AssemblerEnd touched s u := by
  obtain ⟨_, ⟨_, rfl⟩ | ⟨_, he⟩⟩ := onRunning_eq_next.mp h
  · exact assemblerEnd_of_outputs touched u u.outputs u.crcVerdict
  · cases he
    exact hv

theorem exec_assemblerEnd {i : Instr} {s u : State} (hi : IsAssemblerOp i) (h : exec i s = .next u) :
    AssemblerEnd (fun j => ∃ g, i = .segp g ∧ g.index.toNat = j.val) s u := by
  rcases hi with ⟨g, rfl⟩ | ⟨g, rfl⟩ | rfl | ⟨region, wire, rfl⟩
  · have hseg := onRunning_assemblerEnd h (assemblerEnd_segmentPush g s)
    simpa using hseg
  · exact onRunning_assemblerEnd h (assemblerEnd_imuForward _ g s)
  · exact onRunning_assemblerEnd h (assemblerEnd_of_outputs _ s s.outputs s.crcVerdict).frameRelease
  · exact onRunning_assemblerEnd h (assemblerEnd_of_outputs _ s s.outputs _)

end Sys2Proof.Machine

namespace Sys2Proof.Proofs

open Sys2Proof.Machine Sys2Proof.Claims

/-- Settles O36: SEGP is its push where the mask stays incomplete. -/
theorem segpPushesOntoItsSlot : Obligations.SegpPushesOntoItsSlot := by
  intro s g i hs hm hi hg hmask
  obtain ⟨_, hkept, _⟩ := imuForward_frame g s
  have hpart : (push i g (imuForward g s)).mask ≠ 0xFFF := by rwa [push_mask, hkept]
  rw [exec_segp_of_running hs hm, segmentPush_of_partial hi hg hpart, push_eq_pushed, imuForward_eq_forwarded]

/-- Settles O37: the completing SEGP emits `frameOf` of the fronts, which is their FRAME, and cuts. -/
theorem segpOfTheLastBitReleasesTheFrame : Obligations.SegpOfTheLastBitReleasesTheFrame := by
  intro s g i fs hs hm hi hg hdepth hmask hlen hfs
  refine ⟨frameOf s.cfg.layout fs, isFrameOf_frameOf _ (List.ne_nil_of_length_eq_add_one hlen), ?_⟩
  obtain ⟨os, he, _⟩ := imuForward_writes g s
  rw [exec_segp_of_running hs hm, segmentPush_of_complete hdepth hi hg hmask hlen hfs,
    ← imuForward_eq_forwarded, he]
  rfl

/-- Settles O39: with an index untouched the mask never completes, so every SEGP of the run is only its push. -/
theorem slotKeepsTheNewestPushes : Obligations.SlotKeepsTheNewestPushes := by
  intro s gs i j hst hj hne hi u pushes
  have h : Gathered gs s u := gathered_pushAll hst hj hne
  have hslot : slot u i = pushes.reverse.take s.cfg.maxDepth := h.slot i hi
  refine ⟨hslot, ?_, fun hp => (h.present i).mpr (.inr (pushesTo_ne_nil_iff.mp hp))⟩
  rw [hslot, List.length_take, List.length_reverse, Nat.min_comm]

/-- Settles O40: the run before gathers without a release; then the last index completes the mask over twelve
filled slots. -/
theorem frameFiresExactlyWhenAllTwelveAreTouched : Obligations.FrameFiresExactlyWhenAllTwelveAreTouched := by
  intro s gs hmask hempty hdepth hst ⟨k, hk⟩ u
  have hclear := present_of_empty_mask hmask
  have h : Gathered gs s u := gathered_pushAll hst (hclear k) hk
  have hbits : ∀ i : Fin 12, present u i = true ↔ ∃ g ∈ gs, g.index.toNat = i.val := fun i => by
    rw [h.present, hclear]
    simp
  refine ⟨h.frames, hbits, fun g hg hall => ?_⟩
  obtain ⟨i, hi⟩ := exists_slot_of_storable hg
  obtain ⟨_, hgroups⟩ := hg
  have hfull : (push i g (imuForward g u)).mask = 0xFFF := mask_eq_full_iff.mpr fun j => by
    rw [present_push, present_imuForward, Bool.or_eq_true, hbits, decide_eq_true_iff, eq_iff_index_eq hi]
    exact (hall j).symm
  obtain ⟨f, he⟩ := frameRelease_of_filled (h.slot_push_ne_nil hempty hdepth hi hall)
  rw [segmentPush_of_full hi hgroups hfull, he]
  refine ⟨?_, rfl, fun j => slot_hardCut j (push i g (imuForward g u))⟩
  rw [emit_outputs, frameCount_append, hardCut_outputs, (h.push hi).frames]
  rfl

/-- Settles O41, by the operation. -/
theorem assemblerFrame : Obligations.AssemblerFrame := by
  intro s u i hi h
  have hend := exec_assemblerEnd hi h
  refine ⟨hend.wb, hend.wbLen, hend.wbTime, hend.cfg, hend.started, hend.input, hend.draws, hend.cause, ?_⟩
  exact hend.accumulator.imp_right fun hkept j hj => hkept j fun ⟨g, hg, he⟩ => hj g hg he

/-- Settles O34: the index test comes first. -/
theorem segpOutOfRangeRaisesBadIndex : Obligations.SegpOutOfRangeRaisesBadIndex := by
  intro s g hs hm hi
  rw [exec_segp_of_running hs hm, segmentPush_of_badIndex hi]
  rfl

/-- Settles O35: without a point group there is no push after the inertial forward. -/
theorem segpWithoutGroupsStoresNothing : Obligations.SegpWithoutGroupsStoresNothing := by
  intro s g hs hm hi hg
  have hlt : g.index.toNat < 12 := Nat.lt_succ_of_le hi
  rw [exec_segp_of_running hs hm, segmentPush_of_index (i := ⟨g.index.toNat, hlt⟩) rfl,
    storeSegment_of_noGroups hg, imuForward_eq_forwarded]

/-- Settles O38, by whether the sample is valid. -/
theorem imufForwardsTheSample : Obligations.ImufForwardsTheSample := by
  intro s g hs hm
  have hexec : exec (.imuf g) s = .next (imuForward g s) := onRunning_of_running hs hm
  refine ⟨fun hv => ?_, fun hv => ?_⟩
  · rw [hexec, imuForward, if_pos hv]
    rfl
  · rw [hexec, imuForward, if_neg (by simp [hv])]

end Sys2Proof.Proofs
end

section
/-! PROOFS. The statements of 44_frame_release.md: FREL (R165 to R170), the frame's time and its point count (R167,
R168, R171), the records and the strides of the layouts (R172 to R174), with the lemmas they share. -/

namespace Sys2Proof.Machine

/-! ### FREL -/

theorem exec_frel_of_running {s : State} (hs : s.started = true) (hm : s.mode ≠ .faulted) :
    exec .frel s = .next (frameRelease s) := onRunning_of_running hs hm

/-! ### The contiguous block of a record -/

theorem scalarCount_mono : Monotone scalarCount := by
  unfold Monotone
  decide

theorem blockFields_eq_take (level : Fin 5) (p : Point) :
    blockFields level p = (blockFields 4 p).take (scalarCount level) := by
  fin_cases level <;> rfl

/-- Each level adds its fields behind those of the level below (44_frame_release.md R172). -/
theorem blockFields_prefix {level level' : Fin 5} (h : level ≤ level') (p : Point) :
    blockFields level p <+: blockFields level' p := by
  rw [blockFields_eq_take level, blockFields_eq_take level']
  exact List.take_prefix_take_left (scalarCount_mono h)

/-- The bytes of the block, before `lts` and `reflectivity`. -/
def blockBytes (level : Fin 5) (p : Point) : List Byte := (blockFields level p).flatMap le32Bytes

@[simp] theorem length_blockBytes (level : Fin 5) (p : Point) : (blockBytes level p).length = baseOf level := by
  simp [blockBytes, List.length_flatMap, baseOf, Nat.mul_comm]

theorem serialize_eq_append (l : Layout) (p : Point) :
    serialize l p = blockBytes l.level p ++ (if l.ts then le64Bytes p.lts else []) ++
      (if l.refl then le32Bytes p.reflectivity else []) := rfl

/-- Word `k` of a sequence of words stands at byte `4 * k`. -/
theorem le32_of_words {ws : List Word} {k : Nat} {v : Word} (h : ws[k]? = some v) (rest : List Byte) :
    le32 (((ws.flatMap le32Bytes ++ rest).drop (4 * k)).take 4) = v := by
  induction ws generalizing k with
  | nil => simp at h
  | cons w ws ih =>
    rw [List.flatMap_cons, List.append_assoc]
    cases k with
    | zero =>
      obtain rfl : w = v := by simpa using h
      rw [Nat.mul_zero, List.drop_zero, List.take_left' (length_le32Bytes w), le32_le32Bytes]
    | succ k =>
      rw [Nat.mul_succ, Nat.add_comm, ← List.drop_drop, List.drop_left' (length_le32Bytes w)]
      exact ih (by simpa using h)

/-! ### The fields of a record -/

/-- A field of the block of some level reads back in every layout of that level or above (44_frame_release.md
R172). -/
theorem serialize_blockField {l : Layout} {level : Fin 5} (hl : level ≤ l.level) {p : Point} {k : Nat} {v : Scalar}
    (h : (blockFields level p)[k]? = some v) : le32 (((serialize l p).drop (4 * k)).take 4) = v := by
  obtain ⟨more, hmore⟩ := blockFields_prefix hl p
  simp only [serialize_eq_append, blockBytes, ← hmore, List.flatMap_append, List.append_assoc]
  exact le32_of_words h _

theorem serialize_lts {l : Layout} (h : l.ts = true) (p : Point) :
    ((serialize l p).drop (baseOf l.level)).take 8 = le64Bytes p.lts := by
  rw [serialize_eq_append, if_pos h, List.append_assoc, List.drop_left' (length_blockBytes l.level p),
    List.take_left' (length_le64Bytes p.lts)]

theorem serialize_reflectivity {l : Layout} (h : l.refl = true) (p : Point) :
    (serialize l p).drop (baseOf l.level + if l.ts then 8 else 0) = le32Bytes p.reflectivity := by
  rw [serialize_eq_append, if_pos h]
  apply List.drop_left'
  rw [List.length_append, length_blockBytes, apply_ite List.length, length_le64Bytes, List.length_nil]

theorem leValue_le64Bytes (v : BitVec 64) : leValue (le64Bytes v) = v.toNat := by
  rw [le64Bytes, leValue_leBytes]
  exact Nat.mod_eq_of_lt v.isLt

end Sys2Proof.Machine

namespace Sys2Proof.Proofs

open Sys2Proof.Machine

/-- Settles O42: over twelve fronts FREL emits `frameOf` of them, which is their FRAME, and cuts; over an empty
slot it raises the fault. -/
theorem frelReleasesTheFrontsOrRaisesEmptySlot : Obligations.FrelReleasesTheFrontsOrRaisesEmptySlot := by
  intro s hs hm
  rw [exec_frel_of_running hs hm]
  refine ⟨fun fs hlen hfs => ?_, fun hempty => ?_⟩
  · refine ⟨frameOf s.cfg.layout fs, isFrameOf_frameOf _ (List.ne_nil_of_length_eq_add_one hlen), ?_⟩
    rw [frameRelease_of_fronts hlen hfs]
    rfl
  · rw [frameRelease_of_empty hempty]
    rfl

/-- Settles O43: the fold keeps the lesser time at every turn, and its start is above every time. -/
theorem frameTimeIsTheLeastCaptureTime : Obligations.FrameTimeIsTheLeastCaptureTime :=
  fun _ hfs => ⟨fun _ => frameTime_le, exists_frameTime_eq hfs⟩

/-- Settles O44: every record is one stride long, so dividing the data's length by the stride counts the Points. -/
theorem frameCountsItsPoints : Obligations.FrameCountsItsPoints := by
  intro l fs
  refine ⟨?_, ?_⟩
  · rw [frameOf_npoints, List.length_flatMap]
    simp only [length_pointsOf]
  · rw [frameOf_npoints]
    exact length_frameData l fs

/-- Settles O45, field by field: those of the block by the level that adds them, then `lts` and `reflectivity`. -/
theorem recordFieldsStandAtTheirOffsets : Obligations.RecordFieldsStandAtTheirOffsets := by
  intro l p base word
  have hbase : base = baseOf l.level := (baseOf_eq l.level).symm
  have hfield : ∀ level ≤ l.level, ∀ (k : Nat) (v : Scalar), (blockFields level p)[k]? = some v → word (4 * k) = v :=
    fun level hl k v => serialize_blockField hl
  have hx := hfield 0 (Fin.zero_le _)
  refine ⟨?_, hx 0 _ rfl, hx 1 _ rfl, hx 2 _ rfl, fun h => hfield 1 h 3 _ rfl, fun h => hfield 2 h 4 _ rfl,
    fun h => ⟨hfield 3 h 5 _ rfl, hfield 3 h 6 _ rfl⟩,
    fun h => ⟨hfield 4 h 7 _ rfl, hfield 4 h 8 _ rfl, hfield 4 h 9 _ rfl⟩, fun h => ?_, fun h => ?_⟩
  · rw [length_serialize, hbase]
    rfl
  · rw [hbase, serialize_lts h, leValue_le64Bytes]
  · show le32 (((serialize l p).drop _).take 4) = _
    rw [hbase, serialize_reflectivity h, List.take_of_length_le (length_le32Bytes _).le, le32_le32Bytes]

/-- Settles O46, by the level. -/
theorem stridesOfAllLayouts : Obligations.StridesOfAllLayouts := by
  unfold Obligations.StridesOfAllLayouts
  decide

end Sys2Proof.Proofs
end

section
/-! PROOFS. The statements of 45_control.md: RST (R185) and the configuration under every other operation (R186),
with the lemmas they share. -/

namespace Sys2Proof.Machine

open Sys2Proof.Claims

/-! ### Straps, legal and illegal -/

theorem strapInputs_legal_iff {c : StrapInputs} :
    c.legal = true ↔ c.enc.isSome ∧ c.ts.isSome ∧ c.refl.isSome ∧ (∃ l, c.level = some l ∧ l.toNat < 5) ∧
      c.maxDepth ≠ some 0 := by
  rcases c with ⟨enc, _ | depth, _ | level, ts, refl⟩ <;>
    simp [StrapInputs.legal, Nat.one_le_iff_ne_zero, and_assoc]

/-- An illegal configuration has a strap undriven, or fails one of the two range tests (10_state.md R40). -/
theorem sampleStraps_of_illegal {c : StrapInputs} (h : c.legal = false) : ∃ r, sampleStraps c = .refused r := by
  by_cases hundriven : c.enc = none ∨ c.level = none ∨ c.ts = none ∨ c.refl = none
  · exact ⟨_, sampleStraps_of_undriven hundriven⟩
  · simp only [not_or, ← Option.isSome_iff_ne_none] at hundriven
    obtain ⟨henc, hlevel, hts, hrefl⟩ := hundriven
    obtain ⟨level, hlevel⟩ := Option.isSome_iff_exists.mp hlevel
    obtain ⟨hzero, hrange⟩ := sampleStraps_of_driven henc hlevel hts hrefl
    by_cases hd : c.maxDepth = some 0
    · exact ⟨_, hzero hd⟩
    · refine ⟨_, hrange hd (Nat.not_lt.mp fun hl => ?_)⟩
      exact Bool.eq_false_iff.mp h (strapInputs_legal_iff.mpr ⟨henc, hts, hrefl, ⟨level, hlevel, hl⟩, hd⟩)

theorem depth_getD_ne_zero {depth : Option Nat} (h : depth ≠ some 0) : depth.getD Config.defaultDepth ≠ 0 := by
  cases depth with
  | none => decide
  | some d => exact fun h0 => h (congrArg some h0)

/-- 45_control.md R185: the configuration that legal straps give. -/
theorem sampleStraps_of_inRange (enc : BitVec 1) {depth : Option Nat} {level : BitVec 3} (ts refl : BitVec 1)
    (hl : level.toNat < 5) (hd : depth ≠ some 0) :
    sampleStraps { enc := some enc, maxDepth := depth, level := some level, ts := some ts, refl := some refl } =
      .next
        { enc := encOf enc
          maxDepth := depth.getD 3
          layout := { level := ⟨level.toNat, hl⟩, ts := decide (ts = 1), refl := decide (refl = 1) } } := by
  simp only [sampleStraps, if_neg (depth_getD_ne_zero hd), dif_pos hl]
  rfl

theorem exec_rst_of_sampled {c : StrapInputs} {k : Straps} (h : sampleStraps c = .next k) (s : State) :
    exec (.rst c) s = .next (resetWith k s) := andThen_eq_next.mpr ⟨k, h, rfl⟩

/-! ### The operations but RST -/

/-- Every operation but RST is one of the demultiplexer's or one of the assembler's. -/
theorem isDemuxOp_or_isAssemblerOp {i : Instr} (hi : ¬ IsRst i) : IsDemuxOp i ∨ IsAssemblerOp i := by
  cases i with
  | rst cfg => exact absurd ⟨cfg, rfl⟩ hi
  | _ => simp [IsDemuxOp, IsAssemblerOp]

end Sys2Proof.Machine

namespace Sys2Proof.Proofs

open Sys2Proof.Machine Sys2Proof.Claims

/-- Settles O7: illegal straps are refused when they are sampled; legal ones give the configuration `resetWith`
puts into the reset state. -/
theorem rstGivesTheResetState : Obligations.RstGivesTheResetState := by
  refine ⟨fun s c hc => ?_, fun s enc depth level ts refl hl hd => ?_⟩
  · obtain ⟨r, hr⟩ := sampleStraps_of_illegal hc
    exact ⟨r, exec_rst_of_refused hr s⟩
  · exact ⟨_, exec_rst_of_sampled (sampleStraps_of_inRange enc ts refl hl hd) s, rfl, fun i => slot_resetWith i _ s,
      rfl, rfl, rfl, rfl, rfl, rfl, rfl⟩

/-- Settles O11: the frames of the demultiplexer and of the assembler both hold CFG. -/
theorem onlyRstChangesTheConfiguration : Obligations.OnlyRstChangesTheConfiguration := by
  intro s u i hi hu
  rcases isDemuxOp_or_isAssemblerOp hi with hdemux | hassembler
  · obtain ⟨hcfg, _⟩ := demuxFrame s u i hdemux hu
    exact hcfg
  · exact (exec_assemblerEnd hassembler hu).cfg

end Sys2Proof.Proofs
end

section
/-! PROOFS. The statements of 46_operation_laws.md: the MODE and WB_LEN in which each RXD form ends (R242), with the
lemmas they share. -/

namespace Sys2Proof.Machine

open Sys2Proof.Claims

/-! ### The buffer is released, or the message waits in it -/

/-- WB_LEN is 0, and no message is waiting for more bytes: MODE is IDLE or FAULTED (46_operation_laws.md R242). -/
def BufferReleased (s : State) : Prop := s.wbLen = 0 ∧ (s.mode = .idle ∨ s.mode = .faulted)

/-- The message of `n` bytes stands in the buffer and waits for more (40_demux.md R105, 46_operation_laws.md
R242). -/
def Waiting (n : Nat) (s : State) : Prop := s.wbLen = n ∧ s.mode = .accum

theorem bufferReleased_drop (c : DiagCause) (s : State) : BufferReleased (drop c s) := ⟨rfl, .inl rfl⟩

/-- SEGP keeps WB_LEN, and MODE but for the fault it may take. -/
theorem BufferReleased.segmentPush {s : State} (h : BufferReleased s) (g : Segment) :
    BufferReleased (segmentPush g s) := by
  obtain ⟨hlen, hmode⟩ := h
  obtain ⟨_, hkeep, _, _, _, _, _, _, ⟨hm, _⟩ | ⟨hm, _⟩⟩ := segmentPush_keeps g s
  · exact ⟨hkeep.trans hlen, by rwa [hm]⟩
  · exact ⟨hkeep.trans hlen, .inr hm⟩

/-- The buffer is released before the decoder's answer acts (40_demux.md R106). -/
theorem bufferReleased_handleDecoded (answer : DecodeAnswer) (s : State) :
    BufferReleased (handleDecoded answer (releaseBuffer s)) := by
  have hr : BufferReleased (releaseBuffer s) := ⟨rfl, .inl rfl⟩
  cases answer with
  | fail => exact hr
  | seg g => exact hr.segmentPush g

/-! ### Encoding A never waits -/

theorem bufferReleased_finishMessage (o : Oracles) (region : List Byte) (wire : Word) (s : State) :
    BufferReleased (finishMessage o region wire s) := by
  rcases finishMessage_cases o region wire s with ⟨_, he⟩ | ⟨_, he⟩ <;> rw [he]
  · exact bufferReleased_drop _ _
  · exact bufferReleased_handleDecoded _ _

theorem bufferReleased_exactOutcome (o : Oracles) (total : Nat) (region : List Byte) (wire : Word) (s : State) :
    BufferReleased (exactOutcome o total region wire s) := by
  rw [exactOutcome_eq_ite]
  split
  · exact bufferReleased_drop _ _
  · split
    · exact bufferReleased_drop _ _
    · exact bufferReleased_finishMessage _ _ _ _

theorem bufferReleased_headOutcome {data : List Byte} {s v : State} (hv : BufferReleased v) :
    BufferReleased (headOutcome data s v) := by
  unfold headOutcome
  split
  · exact bufferReleased_drop .badResync s
  · split
    · exact bufferReleased_drop .undersized s
    · exact hv

/-! ### Encoding B waits with every byte it gathered -/

theorem MessageEnd.released_or_waiting {o : Oracles} {s u : State} (h : MessageEnd o s u) :
    BufferReleased u ∨ Waiting s.wbLen u := by
  cases h with
  | dropped c => exact .inl (bufferReleased_drop _ _)
  | abandoned => exact .inl (bufferReleased_drop _ _)
  | waiting => exact .inr ⟨rfl, rfl⟩
  | decoded region => exact .inl (bufferReleased_handleDecoded _ _)

theorem RxdEnd.released_or_waiting {o : Oracles} {addr : Nat} {data : List Byte} {t : Time} {s u : State}
    (h : RxdEnd o addr data t s u) (hm : s.mode ≠ .faulted) :
    BufferReleased u ∨ Waiting (addr + data.length) u := by
  cases h with
  | ignored hf => exact absurd hf hm
  | dropped c => exact .inl (bufferReleased_drop _ _)
  | accepted _ hend => exact hend.released_or_waiting

/-! ### The RXD forms -/

section Forms

variable {o : Oracles} {data : List Byte} {t : Time} {s u : State} (hm : s.mode ≠ .faulted)

include hm

theorem bufferReleased_of_receiveHeadA (hu : receiveHeadA o data t s = .next u) : BufferReleased u := by
  obtain ⟨hs, _, hsel⟩ := receiveHeadA_ends hu
  rw [receiveHeadA_eq_headOutcome hs (hsel hm)] at hu
  cases hu
  exact bufferReleased_headOutcome (bufferReleased_exactOutcome ..)

theorem released_or_waiting_of_receiveHeadB (hu : receiveHeadB o data t s = .next u) :
    BufferReleased u ∨ Waiting data.length u := by
  obtain ⟨_, hend, _⟩ := receiveHeadB_ends hu
  rw [← Nat.zero_add data.length]
  exact hend.released_or_waiting hm

theorem released_or_waiting_of_receiveChunk (hu : receiveChunk o data t s = .next u) :
    BufferReleased u ∨ Waiting (s.wbLen + data.length) u := by
  obtain ⟨_, hend, _⟩ := receiveChunk_ends hu
  exact hend.released_or_waiting hm

end Forms

end Sys2Proof.Machine

namespace Sys2Proof.Proofs

open Sys2Proof.Machine Sys2Proof.Claims

/-- Settles O25: encoding A releases the buffer however it ends; encoding B releases it or waits with the bytes
gathered. -/
theorem rxdEndsIdleWaitingOrFaulted : Obligations.RxdEndsIdleWaitingOrFaulted := by
  intro o s u data t _
  refine ⟨fun hm => ?_, fun hm => ?_, fun hm => ?_⟩ <;>
    have hrun : s.mode ≠ .faulted := by rw [hm]; decide
  · exact bufferReleased_of_receiveHeadA hrun
  · exact released_or_waiting_of_receiveHeadB hrun
  · exact released_or_waiting_of_receiveChunk hrun

end Sys2Proof.Proofs
end

section
/-! PROOFS. The statements of 60_exceptions.md: what FAULTED ignores (R201), with the lemmas they share. -/

namespace Sys2Proof.Machine

open Sys2Proof.Claims

/-- Every operation but RST runs under the guard `onRunning`, the wire messages and the internal operations too
(log entries 8 and 12). -/
theorem exec_eq_onRunning {i : Instr} (hi : ¬ IsRst i) (s : State) : ∃ k, exec i s = onRunning s k := by
  cases i with
  | rst cfg => exact absurd ⟨cfg, rfl⟩ hi
  | _ => exact ⟨_, rfl⟩

/-- In FAULTED every operation but RST answers the state it ran in (60_exceptions.md R201). -/
theorem exec_of_faulted {i : Instr} {s : State} (hi : ¬ IsRst i) (hs : s.started = true) (hm : s.mode = .faulted) :
    exec i s = .next s := by
  obtain ⟨k, hk⟩ := exec_eq_onRunning hi s
  exact hk.trans (onRunning_of_faulted hs hm)

end Sys2Proof.Machine

namespace Sys2Proof.Proofs

open Sys2Proof.Machine Sys2Proof.Claims

/-- Settles O55: a step runs the decoded operation on the state with the event consumed, which is still FAULTED. -/
theorem faultedIsSticky : Obligations.FaultedIsSticky := by
  intro s hs hm
  refine ⟨fun i hi => exec_of_faulted hi hs hm, fun e rest i hin hd hi => ?_⟩
  exact (step_of_decoded hin hd).trans (exec_of_faulted hi hs hm)

end Sys2Proof.Proofs
end

section
/-! PROOFS. The statements of 70_reset_and_hazards.md: before the first RST nothing has a meaning (R221). -/

namespace Sys2Proof.Proofs

open Sys2Proof.Machine Sys2Proof.Claims

/-- Settles O10: the guard that every operation but RST runs under refuses a state RST was never applied to. -/
theorem noBehaviourBeforeTheFirstRst : Obligations.NoBehaviourBeforeTheFirstRst := by
  intro s i hs hi
  obtain ⟨k, hk⟩ := exec_eq_onRunning hi s
  exact hk.trans (onRunning_before_reset hs)

end Sys2Proof.Proofs
end
